-- ==== Sys2Proof/Word.lean ====
section
/-! DEFINITION. The 64-bit word and its readings as an unsigned and a signed integer, and the width of a message's
`count` field (00_scope R7, R9, R14). -/

namespace Sys2Proof

/-- A *word* is a 64-bit pattern: a register, a memory word, an instruction word (R7 `XLEN`, R9). -/
abbrev Word := BitVec 64

/-- `u64(v)` of R9: the pattern read as an unsigned integer. -/
abbrev u64 (v : Word) : Nat := v.toNat

/-- `s64(v)` of R9: the pattern read as a two's-complement signed integer. -/
abbrev s64 (v : Word) : Int := v.toInt

/-- `wrap64(m)` of R9: the word `m mod 2^64`. -/
abbrev wrap64 (m : Int) : Word := BitVec.ofInt 64 m

/-- `zext_64(v)` of R9: a narrower unsigned field as a word, zeros above. -/
abbrev zext64 (v : Nat) : Word := BitVec.ofNat 64 v

/-- `I64_MAX` of R9. -/
abbrev i64Max : Word := 0x7FFFFFFFFFFFFFFF#64

/-- `I64_MIN` of R9. -/
abbrev i64Min : Word := 0x8000000000000000#64

/-- By how much `COUNT_BITS` exceeds 4: an implementation's choice, so it has no body (R7, D26). Log entry 16. -/
opaque Config.countBitsAbove4 : Nat

/-- `COUNT_BITS`, a parameter, at least 4 (R7, D26). -/
def Config.countBits : Nat := 4 + Config.countBitsAbove4

/-- Every number below 16 fits in `COUNT_BITS` bits. -/
theorem Config.lt_two_pow_countBits {n : Nat} (h : n < 16) : n < 2 ^ Config.countBits :=
  Nat.lt_of_lt_of_le h (Nat.pow_le_pow_right (n := 2) (by decide) (Nat.le_add_right 4 _))

/-- A `COUNT_BITS`-bit unsigned field, the hardware's place for `usize` (R14, R65). -/
abbrev Count := BitVec Config.countBits

/-- A number below 16 as a count. -/
abbrev Count.small (n : Nat) (h : n < 16) : Count := BitVec.ofNatLT n (Config.lt_two_pow_countBits h)

end Sys2Proof
end

