-- ==== Sys2Proof/Syntax.lean ====
section
/-! DEFINITION. The seven registers and the ten instructions (10_state R21, 30_encoding R101, R118). -/

namespace Sys2Proof

/-- The seven registers of R21, by name. Their codes are a table of Decode.lean (`REG_CODE`). -/
inductive Reg where
  | a | b | c | d
  /-- stack pointer, used implicitly by `Push` and `Pop` -/
  | sp
  /-- base/frame pointer, no implicit use -/
  | bp
  /-- instruction pointer, read and advanced by every step -/
  | ip
  deriving DecidableEq, Repr, Inhabited

/-- The closed list of ten instructions (R101), one constructor per row of spec/opcode_table.json, operands in the
order of R118. `addr` is an absolute word address (R107); its range is checked by `Instr.wellFormed`. -/
inductive Instr where
  | nop
  | add (r1 r2 : Reg)
  | mul (r1 r2 : Reg)
  | load (r1 : Reg) (addr : Nat)
  | store (addr : Nat) (r1 : Reg)
  | push (r1 : Reg)
  | pop (r1 : Reg)
  | jumpIfZero (addr : Nat)
  | jumpIfPositive (addr : Nat)
  | jumpIfNegative (addr : Nat)
  deriving DecidableEq, Repr, Inhabited

/-- The address operand of an instruction that has one (R106). -/
def Instr.addr? : Instr → Option Nat
  | .load _ addr => some addr
  | .store addr _ => some addr
  | .jumpIfZero addr => some addr
  | .jumpIfPositive addr => some addr
  | .jumpIfNegative addr => some addr
  | .nop => none
  | .add _ _ => none
  | .mul _ _ => none
  | .push _ => none
  | .pop _ => none

/-- Register operand 1 of an instruction that has one (R106, R108). -/
def Instr.r1? : Instr → Option Reg
  | .nop => none
  | .add r1 _ => some r1
  | .mul r1 _ => some r1
  | .load r1 _ => some r1
  | .store _ r1 => some r1
  | .push r1 => some r1
  | .pop r1 => some r1
  | .jumpIfZero _ => none
  | .jumpIfPositive _ => none
  | .jumpIfNegative _ => none

/-- Register operand 2 of an instruction that has one (R106, R108). -/
def Instr.r2? : Instr → Option Reg
  | .nop => none
  | .add _ r2 => some r2
  | .mul _ r2 => some r2
  | .load _ _ => none
  | .store _ _ => none
  | .push _ => none
  | .pop _ => none
  | .jumpIfZero _ => none
  | .jumpIfPositive _ => none
  | .jumpIfNegative _ => none

end Sys2Proof
end

