-- ==== Sys2Proof/Machine/Types.lean ====
section
/-! DEFINITION. The plain data the machine's state is made of: registers, flags, fetch window, bus messages, halt causes,
phases, memory contents, and the events one step can be (10_state R20 to R43, 20_memory R65, R69, 60_exceptions R201). -/

namespace Sys2Proof.Machine

/-- The register file: seven 64-bit registers (R21). -/
structure Regs where
  a : Word
  b : Word
  c : Word
  d : Word
  sp : Word
  bp : Word
  ip : Word
  deriving DecidableEq, Repr, Inhabited

/-- The four condition flags (R28). -/
structure Flags where
  /-- ZERO -/
  z : Bool
  /-- SIGN -/
  s : Bool
  /-- OVERFLOW -/
  o : Bool
  /-- CARRY, a second copy of OVERFLOW (R29) -/
  c : Bool
  deriving DecidableEq, Repr, Inhabited

/-- The fetch window: `win.valid`, `win.base`, `win.w[0..7]` (R36). -/
structure Window where
  valid : Bool
  base : Word
  w : Vector Word 8
  deriving DecidableEq, Repr

/-- `ErrInfo`: the opaque payload of an `Error` message (R7, D17). Only a label: no rule looks inside. -/
structure ErrInfo where
  label : Nat
  deriving DecidableEq, Repr, Inhabited

/-- One entry `(address, word)` of a `GiveBlock` (R65). -/
abbrev Entry := Word × Word

/-- `CoreMsg`, the closed set of bus messages (R65). -/
inductive CoreMsg where
  /-- read `count` words starting at `address` -/
  | requestBlock (address : Word) (count : Count)
  /-- upward a write of each entry; downward the answer to a read or the acknowledgement of a write -/
  | giveBlock (entries : List Entry)
  /-- downward only: the request is refused -/
  | error (info : ErrInfo)
  deriving DecidableEq, Repr, Inhabited

/-- `TaggedMsg = (id, msg)`: a message at the Router's memory side (R69). The width of `id` depends on the number of Cores,
so it is the predicate `TaggedMsg.fits` (Machine/Bus.lean), which every step keeps (log entry 16). -/
abbrev TaggedMsg := Nat × CoreMsg

/-- The six fatal causes (R201). -/
inductive Cause where
  | unknownOpcode
  | unknownRegister
  | busDisconnected
  | malformedResponse
  | stackUnderflow
  | memoryError
  deriving DecidableEq, Repr, Inhabited

/-- The `info` a halt records (R201, last column). -/
inductive HaltInfo where
  /-- `BusDisconnected` records nothing -/
  | nothing
  /-- decode errors record the word and the address it was fetched at (R111) -/
  | fetched (w : Word) (a : Word)
  /-- `MalformedResponse` records the offending message -/
  | message (m : CoreMsg)
  /-- `StackUnderflow` records the rejected new SP value -/
  | newSp (v : Word)
  /-- `MemoryError` records the `ErrInfo` of the message -/
  | err (info : ErrInfo)
  deriving DecidableEq, Repr, Inhabited

/-- The phase of a Core (R34). -/
inductive Phase where
  | ready
  | awaitFetch (a : Word)
  | awaitLoad (r : Reg) (a : Word)
  | awaitStore (a : Word) (v : Word)
  | awaitPush (a : Word) (v : Word)
  | awaitPop (r : Reg) (a : Word)
  | halted (cause : Cause) (info : HaltInfo)
  deriving DecidableEq, Repr, Inhabited

/-- Memory contents: `(address, word)` cells in one canonical form (`Memory.wf`, Machine/Memory.lean). The cell is the
64-bit word, since the word is the smallest unit the hardware has and no byte order exists in it (R11, R75). -/
abbrev Memory := List (Nat × Word)

/-- What one step of the Package can be: an event of one agent (R12). -/
inductive Event where
  /-- Core `i` performs the whole step of R141, its bus transactions carried through the Router and the memory
  without other agents' events in between (one of the orders R12 allows, R150) -/
  | fullStep (i : Nat)
  /-- *Begin* of Core `i` (R145) -/
  | begin (i : Nat)
  /-- *FetchResponse* of Core `i` (R146) -/
  | fetchResponse (i : Nat)
  /-- *DataResponse* of Core `i` (R148) -/
  | dataResponse (i : Nat)
  /-- *Disconnect* of Core `i` (R149) -/
  | disconnect (i : Nat)
  /-- Router *Up(i)* (R222) -/
  | routerUp (i : Nat)
  /-- Router *Down* (R223) -/
  | routerDown
  /-- the memory serves the head of `mem_up` as its contract says (R70 to R73) -/
  | memServe
  /-- the memory breaks its contract (R74): it takes the head of `mem_up` or not, writes any words in its range and
  sends any tagged messages, each tag cut to the width of its field (R69) -/
  | memRogue (take : Bool) (writes : List Entry) (answers : List TaggedMsg)
  /-- the environment's `disconnected` input of Core `i` becomes 1 (R204) -/
  | linkLost (i : Nat)
  /-- the environment's `mem_disconnected` input becomes 1 (R225) -/
  | memLinkLost
  /-- the host sets its run input (R152) -/
  | hostRun (run : Bool)
  /-- the host applies `reset` to the whole Package (R250) -/
  | hostReset
  deriving DecidableEq, Repr, Inhabited

end Sys2Proof.Machine
end

