-- ==== Sys2Proof/Config.lean ====
section
/-! DEFINITION. What an implementation fixes (00_scope R7) and the free values, which nothing in Lean can evaluate. Each
parameter that the spec names because its source leaves a point open has the spec's default here; the operation it
switches takes the parameter as an argument, so that a claim can be made about the other setting too. -/

namespace Sys2Proof.Config

open Sys2Proof.Machine

/-- `FLAGS_ON_NO_RESULT` (R7, R33). -/
inductive FlagPolicy where
  | unchanged
  | cleared
  deriving DecidableEq, Repr

/-- `STEP_MODE` (R7, R152). -/
inductive StepMode where
  | free
  | gated
  deriving DecidableEq, Repr

/-- The memory has `2^52` words (R7 `ADDR_BITS`, R60). -/
abbrev memWords : Nat := 2 ^ 52

/-- `WINDOW`: words in the fetch window and in every fetch request (R7). -/
abbrev windowWords : Nat := 8

/-- The `count` of a fetch request: `WINDOW` words (R7, R68). -/
def windowCount : Count := Count.small windowWords (by decide)

/-- The `count` of a data read: one word (R68). -/
def oneCount : Count := Count.small 1 (by decide)

/-- `NUM_CORES` for `State.reset` alone: every operation and statement is about any number of Cores.
DESIGN CHOICE, log entry 4. -/
def numCores : Nat := 2

/-- `MEM_INIT` for `State.reset` alone, as cells: all words zero. DESIGN CHOICE, log entry 5. -/
def memInit : Memory := []

/-- `RESET_REG`: all seven registers 0 (R7, R45). -/
def resetRegs : Regs := { a := 0, b := 0, c := 0, d := 0, sp := 0, bp := 0, ip := 0 }

/-- `RESET_FLAGS`: `0 0 0 0` (R7, R45). -/
def resetFlags : Flags := { z := false, s := false, o := false, c := false }

/-- `FLAGS_ON_NO_RESULT`, default *unchanged* (R33, D5). -/
def flagsOnNoResult : FlagPolicy := .unchanged

/-- `POSITIVE_EXCLUDES_ZERO`, default off (R192, D6). -/
def positiveExcludesZero : Bool := false

/-- `POP_SETS_FLAGS`, default on (R182, D8). -/
def popSetsFlags : Bool := true

/-- `STRICT_UNUSED_BITS`, default off (R113, D3). -/
def strictUnusedBits : Bool := false

/-- `STEP_MODE`, default *free* (R152, D28). -/
def stepMode : StepMode := .free

/-- Free value: which event comes next when the state's list of chosen events is empty. No order between agents is
fixed (R12, R79, R226), so nothing constrains it. Log entry 2. -/
opaque freeEvent : Nat → Event

/-- Free value: the `ErrInfo` the memory chooses for a refusal (R72 "with `info` of the memory's choosing"). Log entry 6. -/
opaque freeErrInfo : Nat → ErrInfo

end Sys2Proof.Config
end

