-- ==== Sys2Proof/WellFormed.lean ====
section
/-! DEFINITION. Which instruction terms have an encoding: the address operand lies in `[0, 2^52)` (30_encoding R104,
R107). Register operands are among the seven by their type. -/

namespace Sys2Proof

/-- `[0, 2^52)`, the range of an address operand (R107). -/
def addrInRange (addr : Nat) : Bool := decide (addr < 2 ^ 52)

/-- `encode` is total on instructions "whose address is below `2^52`" (R104); one check per address form. -/
def Instr.wellFormed : Instr → Bool
  | .nop => true
  | .add _ _ => true
  | .mul _ _ => true
  | .load _ addr => addrInRange addr
  | .store addr _ => addrInRange addr
  | .push _ => true
  | .pop _ => true
  | .jumpIfZero addr => addrInRange addr
  | .jumpIfPositive addr => addrInRange addr
  | .jumpIfNegative addr => addrInRange addr

/-- `Instr.wellFormed` as a proposition. -/
abbrev Instr.WellFormed (i : Instr) : Prop := i.wellFormed = true

end Sys2Proof
end

