-- ==== Sys2Proof/Decode.lean ====
section
/-! DEFINITION. The instruction decoder and the encoder it inverts (30_encoding R102 to R119). -/

namespace Sys2Proof

/-- `w[hi:lo]` of R8: `floor(w / 2^lo) mod 2^(hi-lo+1)`. -/
def bits (w : Word) (hi lo : Nat) : Nat := w.toNat / 2 ^ lo % 2 ^ (hi - lo + 1)

/-- The table `REG_CODE` (R21): the register code of each register. -/
def Reg.code : Reg → Nat
  | .a => 0
  | .b => 1
  | .c => 2
  | .d => 3
  | .sp => 4
  | .bp => 5
  | .ip => 6

/-- `reg(c)` of R105: codes 0 to 6 name registers, the others nothing (R108). -/
def Reg.ofCode : Nat → Option Reg
  | 0 => some .a
  | 1 => some .b
  | 2 => some .c
  | 3 => some .d
  | 4 => some .sp
  | 5 => some .bp
  | 6 => some .ip
  | _ => none

/-- The two decode errors (R109, R110). -/
inductive DecodeError where
  | unknownOpcode
  | unknownRegister
  deriving DecidableEq, Repr

/-- The outcome of `decode`: an instruction or an error (R105). -/
inductive Decoded where
  | ok (i : Instr)
  | err (e : DecodeError)
  deriving DecidableEq, Repr

/-- An instruction with one register operand, or `UnknownRegister` (R110). -/
def decodeOneReg (c1 : Nat) (mk : Reg → Instr) : Decoded :=
  match Reg.ofCode c1 with
  | some r => .ok (mk r)
  | none => .err .unknownRegister

/-- An instruction with two register operands, or `UnknownRegister` (R110). -/
def decodeTwoRegs (c1 c2 : Nat) (mk : Reg → Reg → Instr) : Decoded :=
  match Reg.ofCode c1, Reg.ofCode c2 with
  | some r, some q => .ok (mk r q)
  | _, _ => .err .unknownRegister

/-- Family 7: the jump kind selects the jump (R101, R109). -/
def decodeJump (kind addr : Nat) : Decoded :=
  match kind with
  | 1 => .ok (.jumpIfZero addr)
  | 2 => .ok (.jumpIfPositive addr)
  | 3 => .ok (.jumpIfNegative addr)
  | _ => .err .unknownOpcode

/-- The case table of R105 on the fields of R102: family first, then kind, then register codes (R111). -/
def decodeFields (fam kind c1 c2 addr : Nat) : Decoded :=
  match fam with
  | 0 => .ok .nop
  | 1 => decodeTwoRegs c1 c2 .add
  | 2 => decodeTwoRegs c1 c2 .mul
  | 3 => decodeOneReg c1 fun r => .load r addr
  | 4 => decodeOneReg c1 fun r => .store addr r
  | 5 => decodeOneReg c1 .push
  | 6 => decodeOneReg c1 .pop
  | 7 => decodeJump kind addr
  | _ => .err .unknownOpcode

/-- The bits an instruction does not use are zero in `w`: the list of R113. -/
def unusedBitsZero (i : Instr) (w : Word) : Bool :=
  match i with
  | .nop => bits w 59 0 == 0
  | .add _ _ => bits w 59 56 == 0 && bits w 47 0 == 0
  | .mul _ _ => bits w 59 56 == 0 && bits w 47 0 == 0
  | .load _ _ => bits w 59 56 == 0
  | .store _ _ => bits w 59 56 == 0
  | .push _ => bits w 59 56 == 0 && bits w 51 0 == 0
  | .pop _ => bits w 59 56 == 0 && bits w 51 0 == 0
  | .jumpIfZero _ => bits w 55 52 == 0
  | .jumpIfPositive _ => bits w 55 52 == 0
  | .jumpIfNegative _ => bits w 55 52 == 0

/-- `STRICT_UNUSED_BITS` (R113): when it is on, a non-zero unused bit gives `UnknownOpcode`. R111 gives this test no place
in its order; that it comes after the register codes, so that a word with a bad register code and a non-zero unused bit is
`UnknownRegister`, is a DESIGN CHOICE, log entry 21. -/
def checkUnused (strict : Bool) (w : Word) : Decoded → Decoded
  | .ok i => if strict && !unusedBitsZero i w then .err .unknownOpcode else .ok i
  | .err e => .err e

/-- `decode` under either setting of `STRICT_UNUSED_BITS` (R105, R113). -/
def decodeWith (strict : Bool) (w : Word) : Decoded :=
  checkUnused strict w (decodeFields (bits w 63 60) (bits w 59 56) (bits w 55 52) (bits w 51 48) (bits w 51 0))

/-- `decode`, the function the hardware computes, total on the `2^64` words (R105). -/
def decode (w : Word) : Decoded := decodeWith Config.strictUnusedBits w

/-- The `op` number of R112, also the order of R101's list by encoding. -/
def Instr.op : Instr → Nat
  | .nop => 0
  | .add _ _ => 1
  | .mul _ _ => 2
  | .load _ _ => 3
  | .store _ _ => 4
  | .push _ => 5
  | .pop _ => 6
  | .jumpIfZero _ => 7
  | .jumpIfPositive _ => 8
  | .jumpIfNegative _ => 9

/-- The `err` number of R112. -/
def Decoded.errCode : Decoded → Nat
  | .ok _ => 0
  | .err .unknownOpcode => 1
  | .err .unknownRegister => 2

/-- The decoder block's output ports (R112); an output the rule calls unspecified is `none`. -/
structure DecoderOut where
  err : Nat
  op : Option Nat
  r1 : Option Nat
  r2 : Option Nat
  addr : Option Nat
  deriving DecidableEq, Repr

/-- The decoder as a block (R112): `op`, `r1`, `r2` and `addr` are given when the instruction has them. -/
def decoderBlock (w : Word) : DecoderOut :=
  match decode w with
  | .err e => { err := (Decoded.err e).errCode, op := none, r1 := none, r2 := none, addr := none }
  | .ok i =>
    { err := 0
      op := some i.op
      r1 := if i.r1?.isSome then some (bits w 54 52) else none
      r2 := if i.r2?.isSome then some (bits w 50 48) else none
      addr := if i.addr?.isSome then some (bits w 51 0) else none }

/-- The concatenation of R103: family, kind, register code 1, and the low 52 bits. -/
def layoutWord (fam kind c1 low : Nat) : Word :=
  BitVec.ofNat 64 (fam * 2 ^ 60 + kind * 2 ^ 56 + c1 * 2 ^ 52 + low)

/-- The words of R104, one line per instruction; `c2` stands in bits 51:48. -/
def encodeFields : Instr → Word
  | .nop => layoutWord 0 0 0 0
  | .add r1 r2 => layoutWord 1 0 r1.code (r2.code * 2 ^ 48)
  | .mul r1 r2 => layoutWord 2 0 r1.code (r2.code * 2 ^ 48)
  | .load r1 addr => layoutWord 3 0 r1.code addr
  | .store addr r1 => layoutWord 4 0 r1.code addr
  | .push r1 => layoutWord 5 0 r1.code 0
  | .pop r1 => layoutWord 6 0 r1.code 0
  | .jumpIfZero addr => layoutWord 7 1 0 addr
  | .jumpIfPositive addr => layoutWord 7 2 0 addr
  | .jumpIfNegative addr => layoutWord 7 3 0 addr

/-- `encode` (R104): an address of `2^52` or more has no encoding. -/
def encode (i : Instr) : Option Word :=
  if i.wellFormed then some (encodeFields i) else none

/-- One row of spec/opcode_table.json: `op` (R112), `match` and `mask` (R119). -/
structure OpcodeRow where
  op : Nat
  pattern : Word
  mask : Word
  deriving DecidableEq, Repr

/-- The ten rows of spec/opcode_table.json. -/
def opcodeTable : List OpcodeRow :=
  [ ⟨0, 0x0000000000000000#64, 0xF000000000000000#64⟩,
    ⟨1, 0x1000000000000000#64, 0xF000000000000000#64⟩,
    ⟨2, 0x2000000000000000#64, 0xF000000000000000#64⟩,
    ⟨3, 0x3000000000000000#64, 0xF000000000000000#64⟩,
    ⟨4, 0x4000000000000000#64, 0xF000000000000000#64⟩,
    ⟨5, 0x5000000000000000#64, 0xF000000000000000#64⟩,
    ⟨6, 0x6000000000000000#64, 0xF000000000000000#64⟩,
    ⟨7, 0x7100000000000000#64, 0xFF00000000000000#64⟩,
    ⟨8, 0x7200000000000000#64, 0xFF00000000000000#64⟩,
    ⟨9, 0x7300000000000000#64, 0xFF00000000000000#64⟩ ]

/-- "A word `w` selects the row iff `w AND mask = match`" (R119). -/
def OpcodeRow.selects (row : OpcodeRow) (w : Word) : Bool := w &&& row.mask == row.pattern

/-- The instruction the decoder reads from a word whose bits are `w` (bits from `nbits` on are zero). -/
def decodeTableWord (nbits w : Nat) : Option Instr :=
  match decode (BitVec.ofNat 64 (w % 2 ^ nbits)) with
  | .ok i => some i
  | .err _ => none

end Sys2Proof
end

