-- ==== Sys2Proof/Machine/State.lean ====
section
/-! DEFINITION. The state of one Core and of the Package, the reasons a step can stop, and the state after reset
(10_state R20, R43 to R45, 60_exceptions R220, R221). -/

namespace Sys2Proof.Machine

/-- One Core (R20): registers, flags, fetch window, phase, its two queues, its identity, and its `disconnected` input
(R204) held as the environment last set it. -/
structure CoreState where
  regs : Regs
  flags : Flags
  win : Window
  phase : Phase
  /-- requests this Core has sent, not yet taken by the Router -/
  up : List CoreMsg
  /-- responses delivered to this Core, not yet consumed -/
  down : List CoreMsg
  /-- the identity, used for bus routing only (R42) -/
  id : Nat
  /-- the environment's `disconnected` input of this Core (R204) -/
  disconnected : Bool
  deriving DecidableEq, Repr

/-- The Package (R43, R220), the memory of its environment (R70) and its inputs. The last three fields are the model's
own: which Core `exec` runs on, which events come next, and the counter free values are drawn with. -/
structure State where
  cores : List CoreState
  memUp : List TaggedMsg
  memDown : List TaggedMsg
  routerFault : Bool
  /-- the environment's input: the memory channel is gone (R221) -/
  memDisconnected : Bool
  /-- the memory's contents (R70) -/
  mem : Memory
  /-- the host's run input, looked at only in `STEP_MODE` *gated* (R152). R152 says only "a run input"; that it is one
  for the whole Package, gating every Core, is a DESIGN CHOICE, log entry 12 -/
  runInput : Bool
  /-- model's own: the index of the Core whose step is being executed (log entry 1) -/
  active : Nat
  /-- model's own: the events the environment has chosen to come next (log entry 2) -/
  sched : List Event
  /-- model's own: the counter free values are drawn with (log entry 3) -/
  tick : Nat
  deriving DecidableEq, Repr

/-- Why the machine stops with a fault. -/
inductive Fault where
  /-- Raised by `State.idle` (Machine/Engine.lean) when a Core's event is called for and every Core of the Package is
  halted: R208 "a model treats it as a fault that is kept". Safe: the hardware has no Core event to perform then.
  The causes stand in the Cores' phases. Log entry 9. -/
  | packageHalted
  deriving DecidableEq, Repr

/-- Why a step gives an instruction no meaning. -/
inductive Refusal where
  /-- An instruction whose meaning is not written yet, by its mnemonic; raised by no arm of `exec`. Safe. -/
  | notModelled (mnemonic : String)
  /-- Raised by `State.onReady` when `active` names no Core of the Package. Never in a step. Safe. Log entry 1. -/
  | noSuchCore
  /-- Raised by `State.onReady` when the active Core's phase is not `Ready`, so that no step of it can begin (R145,
  R151). Never in a step. Safe. Log entry 1. -/
  | coreNotReady
  deriving DecidableEq, Repr

/-- The outcome of an instruction or of a step. -/
abbrev Result := Host.Outcome State Fault Refusal

/-- The window after reset: invalid; its other contents are never read (R45, V1). Log entry 10. -/
def Window.reset : Window := { valid := false, base := 0, w := #v[0, 0, 0, 0, 0, 0, 0, 0] }

/-- A Core after reset, with its index as identity (R45). -/
def CoreState.reset (id : Nat) : CoreState :=
  { regs := Config.resetRegs
    flags := Config.resetFlags
    win := Window.reset
    phase := .ready
    up := []
    down := []
    id := id
    disconnected := false }

/-- A Package of `n` Cores after reset with memory contents `mem` (R45, R250): every Core the same but for `id`, every
queue empty. -/
def State.resetOf (n : Nat) (mem : Memory) : State :=
  { cores := (List.range n).map CoreState.reset
    memUp := []
    memDown := []
    routerFault := false
    memDisconnected := false
    mem := mem
    runInput := true
    active := 0
    sched := []
    tick := 0 }

/-- The machine right after reset (R45), for the `N` and the `MEM_INIT` named in Config. -/
def State.reset : State := State.resetOf Config.numCores Config.memInit

end Sys2Proof.Machine
end

