-- ==== Sys2Proof/Machine/Flags.lean ====
section
/-! DEFINITION. Every flag computation of the spec and the arithmetic that feeds it (10_state R31, R33, 41_arithmetic
R161, R162, 44_jump_nop R191 to R193). -/

namespace Sys2Proof.Machine

/-- `apply_result(v, ovf)`: all four flags (R31). -/
def applyResult (v : Word) (ovf : Bool) : Flags :=
  { z := decide (u64 v = 0), s := v.msb, o := ovf, c := ovf }

/-- The mathematical result does not fit in 64 bits signed (R161, R162). -/
def signedOverflow (m : Int) : Bool := decide (m < -2 ^ 63 ∨ m > 2 ^ 63 - 1)

/-- The mathematical sum of R161. -/
def sumOf (x y : Word) : Int := s64 x + s64 y

/-- The mathematical product of R162. -/
def productOf (x y : Word) : Int := s64 x * s64 y

/-- What an instruction that produces no value does to the flags, under either policy (R33). -/
def noResultFlags : Config.FlagPolicy → Flags → Flags
  | .unchanged, f => f
  | .cleared, _ => { z := false, s := false, o := false, c := false }

/-- What `Pop` does to the flags, under either setting of `POP_SETS_FLAGS` (R182). -/
def popFlags (sets : Bool) (w : Word) (f : Flags) : Flags := if sets then applyResult w false else f

/-- The condition of `JumpIfZero` (R191). -/
def zeroTaken (f : Flags) : Bool := f.z

/-- The condition of `JumpIfPositive`: SIGN clear, and ZERO clear too only under `POSITIVE_EXCLUDES_ZERO` (R192). -/
def positiveTaken (excludesZero : Bool) (f : Flags) : Bool := !f.s && !(excludesZero && f.z)

/-- The condition of `JumpIfNegative` (R193). -/
def negativeTaken (f : Flags) : Bool := f.s

end Sys2Proof.Machine
end

