-- ==== Sys2Proof/Machine/Memory.lean ====
section
/-! DEFINITION. The memory's contents as cells in one canonical form, and how a well-behaved memory serves a message
(20_memory R60, R70 to R73). -/

namespace Sys2Proof.Machine

/-- What an address with no cell reads as. MEM_INIT is any contents at all, since every function on the finite address
space is a list of cells. Log entry 5. -/
def Memory.unlisted : Word := 0

/-- `mem[a]`. -/
def Memory.read : Memory → Nat → Word
  | [], _ => Memory.unlisted
  | (k, x) :: rest, a => if k = a then x else Memory.read rest a

/-- `mem[a] <- v`, keeping the canonical form. -/
def Memory.write : Memory → Nat → Word → Memory
  | [], a, v => if v = Memory.unlisted then [] else [(a, v)]
  | (k, x) :: rest, a, v =>
    if a < k then
      if v = Memory.unlisted then (k, x) :: rest else (a, v) :: (k, x) :: rest
    else if a = k then
      if v = Memory.unlisted then rest else (a, v) :: rest
    else (k, x) :: Memory.write rest a v

/-- Cells strictly rising from `lo`, inside the address space, none equal to what an unlisted address reads as. -/
def Memory.wfFrom : Nat → Memory → Bool
  | _, [] => true
  | lo, (k, x) :: rest =>
    decide (lo ≤ k) && decide (k < Config.memWords) && !(x == Memory.unlisted) && Memory.wfFrom (k + 1) rest

/-- The canonical form of memory contents. -/
def Memory.wf (m : Memory) : Bool := Memory.wfFrom 0 m

/-- The entries `(a, mem[a]), ..., (a+n-1, mem[a+n-1])` of R71. -/
def Memory.block (m : Memory) : Nat → Nat → List Entry
  | _, 0 => []
  | a, n + 1 => (zext64 a, m.read a) :: Memory.block m (a + 1) n

/-- Every entry's address lies in the address space (R72, R73). -/
def entriesInRange (es : List Entry) : Bool := es.all fun e => decide (u64 e.1 < Config.memWords)

/-- `mem[e[j].address] <- e[j].word` for each `j` in order (R73). -/
def Memory.writeAll : Memory → List Entry → Memory
  | m, [] => m
  | m, e :: es => Memory.writeAll (m.write (u64 e.1) e.2) es

/-- A read block is wholly inside the address space: `n >= 1` and `a + n <= 2^52` (R71, R72). -/
def blockInRange (a n : Nat) : Bool := decide (1 ≤ n) && decide (a + n ≤ Config.memWords)

/-- How a well-behaved memory serves one message: the contents after it and the answer (R71 to R73). `info` is what it
says when it refuses. -/
def Memory.serve (m : Memory) (info : ErrInfo) : CoreMsg → Memory × CoreMsg
  | .requestBlock a n =>
    if blockInRange (u64 a) n.toNat then (m, .giveBlock (m.block (u64 a) n.toNat)) else (m, .error info)
  | .giveBlock es =>
    if !es.isEmpty && entriesInRange es then (m.writeAll es, .giveBlock es) else (m, .error info)
  | .error _ => (m, .error info)

end Sys2Proof.Machine
end

