-- ==== Sys2Proof/Machine/Operands.lean ====
section
/-! DEFINITION. Register operands and the four addressing modes (10_state R22, 42_load_store R173, 20_memory R64). -/

namespace Sys2Proof.Machine

/-- `x[r]` (R10, R22). -/
def Regs.read (x : Regs) : Reg → Word
  | .a => x.a
  | .b => x.b
  | .c => x.c
  | .d => x.d
  | .sp => x.sp
  | .bp => x.bp
  | .ip => x.ip

/-- `x[r] <- v` (R10, R22, R24). -/
def Regs.write (x : Regs) : Reg → Word → Regs
  | .a, v => { x with a := v }
  | .b, v => { x with b := v }
  | .c, v => { x with c := v }
  | .d, v => { x with d := v }
  | .sp, v => { x with sp := v }
  | .bp, v => { x with bp := v }
  | .ip, v => { x with ip := v }

/-- Read a register of a Core. -/
def CoreState.reg (c : CoreState) (r : Reg) : Word := c.regs.read r

/-- Write a register of a Core; nothing else changes, the flags included (R24). -/
def CoreState.setReg (c : CoreState) (r : Reg) (v : Word) : CoreState := { c with regs := c.regs.write r v }

/-- Absolute: `zext_64(addr)` (R107, R170, R173). -/
def absoluteAddr (addr : Nat) : Word := zext64 addr

/-- Stack, pre-decrement: `x[SP] -w 1` (R173, R181). -/
def pushAddr (c : CoreState) : Word := c.reg .sp - 1

/-- Stack, post-increment: `x[SP]` (R173, R182). -/
def popAddr (c : CoreState) : Word := c.reg .sp

/-- Instruction fetch: `x[IP]` (R64, R142, R173). -/
def fetchAddr (c : CoreState) : Word := c.reg .ip

end Sys2Proof.Machine
end

