-- ==== Sys2Proof/Machine/Ops.lean ====
section
/-! DEFINITION. The named operations every instruction is made of: flags, advance and halting of a Core, the fetch
window, checking an answer, and reaching the active Core (10_state R31, R37, R38, 20_memory R66, R67, 40_engine_step
R144, 60_exceptions R207). -/

namespace Sys2Proof.Machine

/-! ### One Core -/

/-- Set all four flags. -/
def CoreState.setFlags (c : CoreState) (f : Flags) : CoreState := { c with flags := f }

/-- Set the phase. -/
def CoreState.setPhase (c : CoreState) (p : Phase) : CoreState := { c with phase := p }

/-- Replace the downward queue. -/
def CoreState.setDown (c : CoreState) (d : List CoreMsg) : CoreState := { c with down := d }

/-- `x[IP] <- x[IP] +w 1`, from the value IP has at that moment, no flag (R27, R144). -/
def CoreState.advance (c : CoreState) : CoreState := c.setReg .ip (c.reg .ip + 1)

/-- Step 5 of R141 for an instruction that did not jump, and the phase back to `Ready` (R147, R148). -/
def CoreState.finish (c : CoreState) : CoreState := c.advance.setPhase .ready

/-- The end of a conditional jump: the target if it is taken, else the advance (R141, R144, R191 to R193). -/
def CoreState.branch (c : CoreState) (taken : Bool) (addr : Nat) : CoreState :=
  if taken then (c.setReg .ip (absoluteAddr addr)).setPhase .ready else c.finish

/-- Taking a fatal condition, `raise <Cause>(info)`: the phase and nothing else (R207). There is no return from it but
`reset` (R208). -/
def CoreState.halt (c : CoreState) (cause : Cause) (info : HaltInfo) : CoreState :=
  c.setPhase (.halted cause info)

/-- The phase is one of the five `Await…` phases (R34). -/
def Phase.awaiting : Phase → Bool
  | .ready => false
  | .awaitFetch _ => true
  | .awaitLoad _ _ => true
  | .awaitStore _ _ => true
  | .awaitPush _ _ => true
  | .awaitPop _ _ => true
  | .halted _ _ => false

/-- The Core is stopped by a fatal condition: the output `halted` of R153. -/
def CoreState.isHalted (c : CoreState) : Bool :=
  match c.phase with
  | .halted _ _ => true
  | _ => false

/-- The codes of R201. -/
def Cause.code : Cause → Nat
  | .unknownOpcode => 1
  | .unknownRegister => 2
  | .busDisconnected => 3
  | .malformedResponse => 4
  | .stackUnderflow => 5
  | .memoryError => 6

/-- The output `cause` of R153; code 0 means "not halted" (R201). -/
def CoreState.causeOut (c : CoreState) : Nat :=
  match c.phase with
  | .halted cause _ => cause.code
  | _ => 0

/-- The output `info` of R153. -/
def CoreState.infoOut (c : CoreState) : Option HaltInfo :=
  match c.phase with
  | .halted _ info => some info
  | _ => none

/-! ### The fetch window -/

/-- `lookup(a)`: a hit iff the window is valid and `base <= a < base + 8`, compared as mathematical integers (R37). -/
def Window.lookup (win : Window) (a : Word) : Option Word :=
  if win.valid = true ∧ u64 win.base ≤ u64 a then win.w[u64 a - u64 win.base]? else none

/-- `refill(b, ws)`: the window is replaced whole (R38). `ws` has eight words wherever it is called. -/
def Window.refill (b : Word) (ws : List Word) : Window :=
  { valid := true
    base := b
    w := #v[ws.getD 0 0, ws.getD 1 0, ws.getD 2 0, ws.getD 3 0, ws.getD 4 0, ws.getD 5 0, ws.getD 6 0, ws.getD 7 0] }

/-! ### Answers on the bus -/

/-- What a Core makes of the message that answers its request. -/
inductive Answer where
  /-- the words of a validated `GiveBlock` -/
  | words (ws : List Word)
  /-- the fatal condition the message raises -/
  | bad (cause : Cause) (info : HaltInfo)
  deriving DecidableEq, Repr

/-- Entry `i` is at address `a + i`, a mathematical sum (R66). -/
def contiguousFrom : Nat → List Entry → Bool
  | _, [] => true
  | a, e :: es => decide (u64 e.1 = a) && contiguousFrom (a + 1) es

/-- The test of R66 and R67 on the answer to a request for `n` words at `a`; for a write `n = 1` and the word is not
looked at (D16). -/
def checkAnswer (a : Word) (n : Nat) (m : CoreMsg) : Answer :=
  match m with
  | .giveBlock es =>
    if es.length = n ∧ contiguousFrom (u64 a) es = true then .words (es.map Prod.snd)
    else .bad .malformedResponse (.message m)
  | .requestBlock _ _ => .bad .malformedResponse (.message m)
  | .error info => .bad .memoryError (.err info)

/-- A Core takes an answer: the fatal condition halts it (R146, R148), the words go to `k`. -/
def CoreState.takeAnswer (c : CoreState) (ans : Answer) (k : List Word → CoreState) : CoreState :=
  match ans with
  | .words ws => k ws
  | .bad cause info => c.halt cause info

/-! ### The Package -/

/-- Replace Core `i`. -/
def State.setCore (s : State) (i : Nat) (c : CoreState) : State := { s with cores := s.cores.set i c }

/-- Make Core `i` the one whose step is executed. -/
def State.withActive (s : State) (i : Nat) : State := { s with active := i }

/-- The `disconnected` input Core `c` sees: the environment's, or the Router's while `router_fault` is set (R204,
R225). -/
def State.linkDown (s : State) (c : CoreState) : Bool := c.disconnected || s.routerFault

/-- Every Core is halted. -/
def State.allHalted (s : State) : Bool := s.cores.all CoreState.isHalted

/-- An instruction's meaning: what it makes of the active Core, which must be `Ready` (R145, R151). -/
def State.onReady (s : State) (f : CoreState → State) : Result :=
  match s.cores[s.active]? with
  | some c => if c.phase = .ready then .next (f c) else .refused .coreNotReady
  | none => .refused .noSuchCore

/-- `reset` applied to the whole Package: its Cores and queues; not the memory, which the block does not reset (R250,
R251), nor the model's own fields. -/
def State.applyReset (s : State) : State :=
  { State.resetOf s.cores.length s.mem with runInput := s.runInput, sched := s.sched, tick := s.tick }

end Sys2Proof.Machine
end

