-- ==== Sys2Proof/Machine/Arithmetic.lean ====
section
/-! DEFINITION. `Add` and `Mul` (41_arithmetic R160 to R164). -/

namespace Sys2Proof.Machine

/-- The common arm of R160: `x[r1]` receives the wrapped mathematical result `m`, the flags follow it, IP advances. -/
def CoreState.arith (c : CoreState) (r1 : Reg) (m : Int) : CoreState :=
  ((c.setReg r1 (wrap64 m)).setFlags (applyResult (wrap64 m) (signedOverflow m))).finish

/-- `Add(r1, r2)` (R161). -/
def execAdd (r1 r2 : Reg) (s : State) : Result :=
  s.onReady fun c => s.setCore s.active (c.arith r1 (sumOf (c.reg r1) (c.reg r2)))

/-- `Mul(r1, r2)` (R162). -/
def execMul (r1 r2 : Reg) (s : State) : Result :=
  s.onReady fun c => s.setCore s.active (c.arith r1 (productOf (c.reg r1) (c.reg r2)))

end Sys2Proof.Machine
end

