-- ==== Sys2Proof/Machine/JumpNop.lean ====
section
/-! DEFINITION. The three conditional jumps and `Nop` (44_jump_nop R190 to R195). -/

namespace Sys2Proof.Machine

/-- A jump: its condition is read first, then the flags follow the no-result policy (R33), then IP (R190). -/
def CoreState.jump (c : CoreState) (taken : Bool) (addr : Nat) : CoreState :=
  (c.setFlags (noResultFlags Config.flagsOnNoResult c.flags)).branch taken addr

/-- `JumpIfZero(addr)` (R191). -/
def execJumpIfZero (addr : Nat) (s : State) : Result :=
  s.onReady fun c => s.setCore s.active (c.jump (zeroTaken c.flags) addr)

/-- `JumpIfPositive(addr)` (R192). -/
def execJumpIfPositive (addr : Nat) (s : State) : Result :=
  s.onReady fun c => s.setCore s.active (c.jump (positiveTaken Config.positiveExcludesZero c.flags) addr)

/-- `JumpIfNegative(addr)` (R193). -/
def execJumpIfNegative (addr : Nat) (s : State) : Result :=
  s.onReady fun c => s.setCore s.active (c.jump (negativeTaken c.flags) addr)

/-- `Nop`: only the advance (R194). -/
def execNop (s : State) : Result :=
  s.onReady fun c => s.setCore s.active (c.setFlags (noResultFlags Config.flagsOnNoResult c.flags)).finish

end Sys2Proof.Machine
end

