-- ==== Sys2Proof/Machine/Bus.lean ====
section
/-! DEFINITION. Sending a request, the Router's and the memory's events, and one bus transaction carried through from
request to answer (20_memory R66, R67, R70 to R74, 60_exceptions R222, R223, R225). -/

namespace Sys2Proof.Machine

/-- `max(1, ceil(log2 n))`: `TAG_BITS` of a Package of `n` Cores (R7, D19). -/
def tagBits (n : Nat) : Nat := if n ≤ 2 then 1 else Nat.log2 (n - 1) + 1

/-- The tag fits its field of `TAG_BITS` bits in a Package of `n` Cores (R69). -/
def TaggedMsg.fits (n : Nat) (tm : TaggedMsg) : Prop := tm.1 < 2 ^ tagBits n

/-- A message as a tag port of a Package of `n` Cores carries it: the low `TAG_BITS` bits of the tag (R69). -/
def TaggedMsg.onPort (n : Nat) (tm : TaggedMsg) : TaggedMsg := (tm.1 % 2 ^ tagBits n, tm.2)

/-- The active Core, now `c`, appends `msg` to `up` and waits in phase `ph`; if its channel is gone at that moment it
halts instead and nothing is sent (R145, R149, R204). -/
def State.send (s : State) (c : CoreState) (msg : CoreMsg) (ph : Phase) : State :=
  s.setCore s.active
    (if s.linkDown c then c.halt .busDisconnected .nothing else { c with up := c.up ++ [msg], phase := ph })

/-- Router event *Up(i)*; nothing where it is not enabled (R222). The message is tagged with the Core's identity. -/
def State.routerUp (s : State) (i : Nat) : State :=
  match s.cores[i]? with
  | none => s
  | some c =>
    match c.up with
    | [] => s
    | m :: rest =>
      if s.routerFault then s
      else { s.setCore i { c with up := rest } with memUp := s.memUp ++ [(c.id, m)] }

/-- Router event *Down*; nothing where it is not enabled. The tag is stripped; a tag of no Core sets `router_fault`
(R223, R225). -/
def State.routerDown (s : State) : State :=
  match s.memDown with
  | [] => s
  | (t, m) :: rest =>
    if s.routerFault then s
    else
      match s.cores[t]? with
      | some c => { s.setCore t { c with down := c.down ++ [m] } with memDown := rest }
      | none => { s with memDown := rest, routerFault := true }

/-- The memory takes the head of `mem_up` and answers it with the request's tag (R70); nothing where there is none, or
where its channel is gone (log entry 11). -/
def State.memServe (s : State) : State :=
  match s.memUp with
  | [] => s
  | (t, m) :: rest =>
    if s.memDisconnected then s
    else
      { s with
        mem := (s.mem.serve (Config.freeErrInfo s.tick) m).1
        memUp := rest
        memDown := s.memDown ++ [(t, (s.mem.serve (Config.freeErrInfo s.tick) m).2)]
        tick := s.tick + 1 }

/-- A memory that breaks its contract (R74): the head of `mem_up` is taken or left, any words in range are written, any
messages are sent, each with a tag that the port can carry (R69). Log entries 13 and 16. -/
def State.memRogue (s : State) (take : Bool) (writes : List Entry) (answers : List TaggedMsg) : State :=
  if s.memDisconnected then s
  else
    { s with
      mem := s.mem.writeAll (writes.filter fun e => decide (u64 e.1 < Config.memWords))
      memUp := if take then s.memUp.tail else s.memUp
      memDown := s.memDown ++ answers.map (TaggedMsg.onPort s.cores.length) }

/-- `n` times *memServe*. -/
def State.memServeTimes : Nat → State → State
  | 0, s => s
  | n + 1, s => State.memServeTimes n s.memServe

/-- `n` times *Down*. -/
def State.routerDownTimes : Nat → State → State
  | 0, s => s
  | n + 1, s => State.routerDownTimes n s.routerDown

/-- The events that carry the active Core's request to the memory and its answer back, one legal order of them (R226):
*Up* of that Core, the memory serves all of `mem_up`, *Down* empties `mem_down`. -/
def State.transport (s : State) : State :=
  let s1 := s.routerUp s.active
  let s2 := State.memServeTimes s1.memUp.length s1
  State.routerDownTimes s2.memDown.length s2

/-- The active Core takes the message at the head of `down` and does `k` with it; with none there it halts if its
channel is gone, and goes on waiting if not (R66, R148, R149). -/
def State.receive (s : State) (k : CoreMsg → CoreState → CoreState) : State :=
  match s.cores[s.active]? with
  | none => s
  | some c =>
    match c.down with
    | m :: rest => s.setCore s.active (k m (c.setDown rest))
    | [] => if s.linkDown c then s.setCore s.active (c.halt .busDisconnected .nothing) else s

/-- One bus transaction of the active Core, now `c`: `MemRead` (R66) or `MemWrite` (R67) with what follows its answer. -/
def State.transact (s : State) (c : CoreState) (msg : CoreMsg) (ph : Phase)
    (k : CoreMsg → CoreState → CoreState) : State :=
  if s.linkDown c then s.send c msg ph else (s.send c msg ph).transport.receive k

end Sys2Proof.Machine
end

