-- ==== Sys2Proof/Machine/LoadStore.lean ====
section
/-! DEFINITION. `Load` and `Store`: issue, completion, and the two with the bus transaction between them (42_load_store
R170 to R172). -/

namespace Sys2Proof.Machine

/-- Completion of `Load(r1, a)` on the answer `m` (R171). -/
def completeLoad (r1 : Reg) (a : Word) (m : CoreMsg) (c : CoreState) : CoreState :=
  c.takeAnswer (checkAnswer a 1 m) fun ws =>
    ((c.setReg r1 (ws.headD 0)).setFlags (applyResult (ws.headD 0) false)).finish

/-- Completion of `Store` of `v` at `a` on the acknowledgement `m` (R172): the flags come after it (D22). -/
def completeStore (a v : Word) (m : CoreMsg) (c : CoreState) : CoreState :=
  c.takeAnswer (checkAnswer a 1 m) fun _ => (c.setFlags (applyResult v false)).finish

/-- Issue of `Load(r1, addr)` (R171). -/
def issueLoad (r1 : Reg) (addr : Nat) (s : State) : Result :=
  s.onReady fun c => s.send c (.requestBlock (absoluteAddr addr) Config.oneCount) (.awaitLoad r1 (absoluteAddr addr))

/-- Issue of `Store(addr, r1)` (R172). -/
def issueStore (addr : Nat) (r1 : Reg) (s : State) : Result :=
  s.onReady fun c =>
    s.send c (.giveBlock [(absoluteAddr addr, c.reg r1)]) (.awaitStore (absoluteAddr addr) (c.reg r1))

/-- `Load(r1, addr)`: issue, transaction, completion (R171). -/
def execLoad (r1 : Reg) (addr : Nat) (s : State) : Result :=
  s.onReady fun c =>
    s.transact c (.requestBlock (absoluteAddr addr) Config.oneCount) (.awaitLoad r1 (absoluteAddr addr))
      (completeLoad r1 (absoluteAddr addr))

/-- `Store(addr, r1)`: issue, transaction, completion (R172). -/
def execStore (addr : Nat) (r1 : Reg) (s : State) : Result :=
  s.onReady fun c =>
    s.transact c (.giveBlock [(absoluteAddr addr, c.reg r1)]) (.awaitStore (absoluteAddr addr) (c.reg r1))
      (completeStore (absoluteAddr addr) (c.reg r1))

end Sys2Proof.Machine
end

