-- ==== Sys2Proof/Machine/Stack.lean ====
section
/-! DEFINITION. `Push` and `Pop`: issue, completion, and the two with the bus transaction between them (43_stack R180 to
R183). -/

namespace Sys2Proof.Machine

/-- The Core after the decrement that begins a `Push` (R181). -/
def CoreState.pushed (c : CoreState) : CoreState := c.setReg .sp (pushAddr c)

/-- Completion of `Push` of `v` at `a` on the acknowledgement `m` (R181). -/
def completePush (a v : Word) (m : CoreMsg) (c : CoreState) : CoreState :=
  c.takeAnswer (checkAnswer a 1 m) fun _ => (c.setFlags (applyResult v false)).finish

/-- The test and the writes of `Pop` once the word `w` is read: SP raised and tested, SP written, `r1` written last
(R182, R183, D10). -/
def CoreState.popWord (c : CoreState) (r1 : Reg) (w : Word) : CoreState :=
  let s' := c.reg .sp + 1
  if s64 s' < 0 then c.halt .stackUnderflow (.newSp s')
  else (((c.setReg .sp s').setReg r1 w).setFlags (popFlags Config.popSetsFlags w c.flags)).finish

/-- Completion of `Pop(r1)` from `a` on the answer `m` (R182). -/
def completePop (r1 : Reg) (a : Word) (m : CoreMsg) (c : CoreState) : CoreState :=
  c.takeAnswer (checkAnswer a 1 m) fun ws => c.popWord r1 (ws.headD 0)

/-- Issue of `Push(r1)`: SP is lowered first, `x[r1]` read after (R181, D9). -/
def issuePush (r1 : Reg) (s : State) : Result :=
  s.onReady fun c =>
    s.send c.pushed (.giveBlock [(pushAddr c, c.pushed.reg r1)]) (.awaitPush (pushAddr c) (c.pushed.reg r1))

/-- Issue of `Pop(r1)` (R182). -/
def issuePop (r1 : Reg) (s : State) : Result :=
  s.onReady fun c => s.send c (.requestBlock (popAddr c) Config.oneCount) (.awaitPop r1 (popAddr c))

/-- `Push(r1)`: issue, transaction, completion (R181). -/
def execPush (r1 : Reg) (s : State) : Result :=
  s.onReady fun c =>
    s.transact c.pushed (.giveBlock [(pushAddr c, c.pushed.reg r1)]) (.awaitPush (pushAddr c) (c.pushed.reg r1))
      (completePush (pushAddr c) (c.pushed.reg r1))

/-- `Pop(r1)`: issue, transaction, completion (R182). -/
def execPop (r1 : Reg) (s : State) : Result :=
  s.onReady fun c =>
    s.transact c (.requestBlock (popAddr c) Config.oneCount) (.awaitPop r1 (popAddr c)) (completePop r1 (popAddr c))

end Sys2Proof.Machine
end

