-- ==== Sys2Proof/Machine/Dispatch.lean ====
section
/-! DEFINITION. Steps 4 and 5 of the step of R141 on the active Core, one arm per instruction (40_engine_step R143). -/

namespace Sys2Proof.Machine

/-- Execute a decoded instruction on the active Core and advance (R141 steps 4 and 5, R143). -/
def exec (i : Instr) (s : State) : Host.Outcome State Fault Refusal :=
  match i with
  | .nop => Sys2Proof.Machine.execNop s
  | .add r1 r2 => Sys2Proof.Machine.execAdd r1 r2 s
  | .mul r1 r2 => Sys2Proof.Machine.execMul r1 r2 s
  | .load r1 addr => Sys2Proof.Machine.execLoad r1 addr s
  | .store addr r1 => Sys2Proof.Machine.execStore addr r1 s
  | .push r1 => Sys2Proof.Machine.execPush r1 s
  | .pop r1 => Sys2Proof.Machine.execPop r1 s
  | .jumpIfZero addr => Sys2Proof.Machine.execJumpIfZero addr s
  | .jumpIfPositive addr => Sys2Proof.Machine.execJumpIfPositive addr s
  | .jumpIfNegative addr => Sys2Proof.Machine.execJumpIfNegative addr s

end Sys2Proof.Machine
end

