-- ==== Sys2Proof/Machine/Engine.lean ====
section
/-! DEFINITION. The execution engine: fetch through the window, decode, the step as one sequence (40_engine_step R141) and
as events (R145 to R149), and every other event of the Package. -/

namespace Sys2Proof.Machine

/-- A Core's event that is not enabled: the turn passes and nothing changes; once every Core is halted no Core event
can ever be enabled, which is the fault that is kept (R151, R208). Log entry 9. -/
def State.idle (s : State) : Result := if s.allHalted then .fault .packageHalted else .next s

/-- The host's condition on starting a step, under either `STEP_MODE` (R152). -/
def stepAllowed (mode : Config.StepMode) (run : Bool) : Bool :=
  match mode with
  | .free => true
  | .gated => run

/-- The cause a decode error halts with (R141 step 3, R201). -/
def decodeCause : DecodeError → Cause
  | .unknownOpcode => .unknownOpcode
  | .unknownRegister => .unknownRegister

/-- Decode the fetched word and go on with `k`; a decode error halts the active Core (R141 step 3, R147, R202). -/
def State.decodeThen (s : State) (k : Instr → State → Result) (w a : Word) : Result :=
  match decode w with
  | .ok i => k i s
  | .err e =>
    match s.cores[s.active]? with
    | some c => .next (s.setCore s.active (c.halt (decodeCause e) (.fetched w a)))
    | none => .refused .noSuchCore

/-- `run` of R147: instructions that need no bus are executed whole, the others are issued. -/
def beginInstr (i : Instr) (s : State) : Result :=
  match i with
  | .nop => execNop s
  | .add r1 r2 => execAdd r1 r2 s
  | .mul r1 r2 => execMul r1 r2 s
  | .load r1 addr => issueLoad r1 addr s
  | .store addr r1 => issueStore addr r1 s
  | .push r1 => issuePush r1 s
  | .pop r1 => issuePop r1 s
  | .jumpIfZero addr => execJumpIfZero addr s
  | .jumpIfPositive addr => execJumpIfPositive addr s
  | .jumpIfNegative addr => execJumpIfNegative addr s

/-- The Core `c` takes `m` as the answer to its fetch at `a`: the window refilled and the Core ready to run, or a halt
with the window as it was (R142, R146). -/
def CoreState.fetched (c : CoreState) (a : Word) (m : CoreMsg) : CoreState :=
  c.takeAnswer (checkAnswer a 8 m) fun ws => { c with win := Window.refill a ws, phase := .ready }

/-- After `m` answered the fetch at `a`: "then retry the lookup (must now hit)" and run (R142, R146). `c` is the
active Core with `m` removed from `down`. -/
def State.afterFetch (s : State) (k : Instr → State → Result) (c : CoreState) (a : Word) (m : CoreMsg) : Result :=
  let c' := c.fetched a m
  let s' := s.setCore s.active c'
  if c'.phase = .ready then
    match c'.win.lookup a with
    | some w => s'.decodeThen k w a
    | none => .next s'
  else .next s'

/-- The fetch request of a Core (R142, R145). -/
def State.sendFetch (s : State) (c : CoreState) : State :=
  s.send c (.requestBlock (fetchAddr c) Config.windowCount) (.awaitFetch (fetchAddr c))

/-- *Begin* (R145). -/
def State.evBegin (s : State) (i : Nat) : Result :=
  match s.cores[i]? with
  | none => s.idle
  | some c =>
    if c.phase = .ready ∧ stepAllowed Config.stepMode s.runInput = true then
      match c.win.lookup (fetchAddr c) with
      | some w => (s.withActive i).decodeThen beginInstr w (fetchAddr c)
      | none => .next ((s.withActive i).sendFetch c)
    else s.idle

/-- *FetchResponse* (R146). -/
def State.evFetchResponse (s : State) (i : Nat) : Result :=
  match s.cores[i]? with
  | none => s.idle
  | some c =>
    match c.phase, c.down with
    | .awaitFetch a, m :: rest => (s.withActive i).afterFetch beginInstr (c.setDown rest) a m
    | _, _ => s.idle

/-- The completion part for the phase a Core waits in (R148). -/
def completeData (m : CoreMsg) (c : CoreState) : CoreState :=
  match c.phase with
  | .awaitLoad r a => completeLoad r a m c
  | .awaitStore a v => completeStore a v m c
  | .awaitPush a v => completePush a v m c
  | .awaitPop r a => completePop r a m c
  | .ready => c
  | .awaitFetch _ => c
  | .halted _ _ => c

/-- The phase is one of the four that wait for data (R148). -/
def Phase.awaitingData : Phase → Bool
  | .awaitLoad _ _ => true
  | .awaitStore _ _ => true
  | .awaitPush _ _ => true
  | .awaitPop _ _ => true
  | .ready => false
  | .awaitFetch _ => false
  | .halted _ _ => false

/-- *DataResponse* (R148). -/
def State.evDataResponse (s : State) (i : Nat) : Result :=
  match s.cores[i]? with
  | none => s.idle
  | some c =>
    match c.down with
    | [] => s.idle
    | m :: rest =>
      if c.phase.awaitingData then .next ((s.withActive i).setCore i (completeData m (c.setDown rest)))
      else s.idle

/-- *Disconnect* while waiting (R149). -/
def State.evDisconnect (s : State) (i : Nat) : Result :=
  match s.cores[i]? with
  | none => s.idle
  | some c =>
    if c.phase.awaiting = true ∧ s.linkDown c = true then
      .next ((s.withActive i).setCore i (c.halt .busDisconnected .nothing))
    else s.idle

/-- The fetch of a step that missed, carried through, and the rest of the step (R141, R142). `c` is the active Core. -/
def State.missStep (s : State) (c : CoreState) : Result :=
  if s.linkDown c then .next (s.sendFetch c)
  else
    let s2 := (s.sendFetch c).transport
    match s2.cores[s2.active]? with
    | none => .next s2
    | some c2 =>
      match c2.down with
      | m :: rest => s2.afterFetch exec (c2.setDown rest) (fetchAddr c) m
      | [] => if s2.linkDown c2 then .next (s2.setCore s2.active (c2.halt .busDisconnected .nothing)) else .next s2

/-- The step of R141 as one sequence: fetch, decode, execute, advance. -/
def State.evFullStep (s : State) (i : Nat) : Result :=
  match s.cores[i]? with
  | none => s.idle
  | some c =>
    if c.phase = .ready ∧ stepAllowed Config.stepMode s.runInput = true then
      match c.win.lookup (fetchAddr c) with
      | some w => (s.withActive i).decodeThen exec w (fetchAddr c)
      | none => (s.withActive i).missStep c
    else s.idle

/-- The `disconnected` input of Core `i` becomes 1 and stays 1 (R204). -/
def State.linkLost (s : State) (i : Nat) : State :=
  match s.cores[i]? with
  | none => s
  | some c => s.setCore i { c with disconnected := true }

/-- `mem_disconnected` becomes 1, which sets `router_fault` (R225). -/
def State.memLinkLost (s : State) : State := { s with memDisconnected := true, routerFault := true }

/-- Perform one event of the Package. -/
def State.perform (s : State) (e : Event) : Result :=
  match e with
  | .fullStep i => s.evFullStep i
  | .begin i => s.evBegin i
  | .fetchResponse i => s.evFetchResponse i
  | .dataResponse i => s.evDataResponse i
  | .disconnect i => s.evDisconnect i
  | .routerUp i => .next (s.routerUp i)
  | .routerDown => .next s.routerDown
  | .memServe => .next s.memServe
  | .memRogue take writes answers => .next (s.memRogue take writes answers)
  | .linkLost i => .next (s.linkLost i)
  | .memLinkLost => .next s.memLinkLost
  | .hostRun run => .next { s with runInput := run }
  | .hostReset => .next s.applyReset

/-- The event that comes next, and the state with it taken: the head of `sched`, or a free value when that list is
empty (R12, R79, R226). -/
def State.nextEvent (s : State) : Event × State :=
  match s.sched with
  | e :: rest => (e, { s with sched := rest })
  | [] => (Config.freeEvent s.tick, { s with tick := s.tick + 1 })

/-- Put the word `w` where Core `c` fetches its next instruction: over the window's word if its IP hits the window,
else in memory. -/
def State.placeWord (s : State) (i : Nat) (c : CoreState) (w : Word) : State :=
  match c.win.lookup (fetchAddr c) with
  | some _ =>
    s.setCore i
      { c with win := { c.win with w := c.win.w.setIfInBounds (u64 (fetchAddr c) - u64 c.win.base) w } }
  | none => { s with mem := s.mem.write (u64 (fetchAddr c)) w }

end Sys2Proof.Machine
end

