-- ==== Sys2Proof/Machine/Step.lean ====
section
/-! DEFINITION. One step of the Package, and the placing of an instruction where the next step fetches it. -/

namespace Sys2Proof.Machine

/-- One step: one event of one agent (R12). -/
def step (s : State) : Host.Outcome State Fault Refusal := s.nextEvent.2.perform s.nextEvent.1

/-- `s` with the instruction whose bits are `w` where the active Core fetches next, and that Core's step chosen as the
next event, so that the very next step runs it. It stands for the host's placing of a program (R253); log entry 14. -/
def State.withFetchWord (s : State) (nbits w : Nat) : State :=
  match s.cores[s.active]? with
  | none => s
  | some c =>
    { s.placeWord s.active c (BitVec.ofNat 64 (w % 2 ^ nbits)) with sched := .fullStep s.active :: s.sched }

end Sys2Proof.Machine
end

