-- ==== Sys2Proof/Safety.lean ====
section
/-! DEFINITION. The invariants and premises that claims about the machine are stated in. -/

namespace Sys2Proof.Machine

/-- R30: ZERO and SIGN never both set, OVERFLOW equal to CARRY. -/
def Flags.ok (f : Flags) : Bool := !(f.z && f.s) && (f.o == f.c)

/-- R30 for every Core. -/
def State.FlagsOk (s : State) : Prop := ∀ (i : Nat) (c : CoreState), s.cores[i]? = some c → c.flags.ok = true

/-- Every Core's identity is its index (R42, D19). -/
def State.IdsOk (s : State) : Prop := ∀ (i : Nat) (c : CoreState), s.cores[i]? = some c → c.id = i

/-- The contents are in canonical form, inside the address space (R60). -/
def State.MemOk (s : State) : Prop := s.mem.wf = true

/-- R225: `mem_disconnected` sets `router_fault`, and it stays set. Through the host's reset this holds because the model's
reset clears both, for `mem_disconnected` its own choice (log entry 11). -/
def State.LinkOk (s : State) : Prop := s.memDisconnected = true → s.routerFault = true

/-- Every tag at the Router's memory side fits its `TAG_BITS`-bit field (R69). -/
def State.TagsOk (s : State) : Prop :=
  (∀ tm ∈ s.memUp, tm.fits s.cores.length) ∧ ∀ tm ∈ s.memDown, tm.fits s.cores.length

/-- No message of the bus is in flight for the Core `c` that is the active one, its channel and the memory's stand, and
no other Core's message is in flight: a transaction of it meets nothing but itself. -/
structure State.Quiet (s : State) (c : CoreState) : Prop where
  atActive : s.cores[s.active]? = some c
  idOk : c.id = s.active
  up : c.up = []
  down : c.down = []
  memUp : s.memUp = []
  memDown : s.memDown = []
  linked : c.disconnected = false
  noFault : s.routerFault = false
  memLinked : s.memDisconnected = false

/-- The messages of `q` tagged `i`, without their tag. -/
def taggedFor (i : Nat) (q : List TaggedMsg) : List CoreMsg :=
  (q.filter fun t => t.1 == i).map Prod.snd

/-- What Core `i`, now `c`, has asked and not yet been served. -/
def State.requestsOf (s : State) (i : Nat) (c : CoreState) : List CoreMsg := c.up ++ taggedFor i s.memUp

/-- What is on its way to Core `i`, now `c`, as an answer. -/
def State.answersOf (s : State) (i : Nat) (c : CoreState) : List CoreMsg := taggedFor i s.memDown ++ c.down

/-- The request a waiting Core has outstanding (R68). -/
def Phase.request? : Phase → Option CoreMsg
  | .ready => none
  | .awaitFetch a => some (.requestBlock a Config.windowCount)
  | .awaitLoad _ a => some (.requestBlock a Config.oneCount)
  | .awaitStore a v => some (.giveBlock [(a, v)])
  | .awaitPush a v => some (.giveBlock [(a, v)])
  | .awaitPop _ a => some (.requestBlock a Config.oneCount)
  | .halted _ _ => none

/-- The message `m` is what a well-behaved memory can answer to the request `req` (R71 to R73). -/
def answers (req m : CoreMsg) : Prop := ∃ (mem : Memory) (info : ErrInfo), m = (mem.serve info req).2

/-- A phase with the requests and answers in flight for it: at most one request outstanding, outstanding exactly while the
Core waits, and its answer one that a well-behaved memory gives to it (R41, R70); and no halt that only a broken
contract can cause (R74, R183). -/
def busShape (ph : Phase) (reqs anss : List CoreMsg) : Prop :=
  match ph.request? with
  | some req => (reqs = [req] ∧ anss = []) ∨ (reqs = [] ∧ ∃ m, anss = [m] ∧ answers req m)
  | none =>
    match ph with
    | .halted cause _ =>
      reqs.length + anss.length ≤ 1 ∧ cause ≠ .malformedResponse ∧ cause ≠ .stackUnderflow
    | _ => reqs = [] ∧ anss = []

/-- Core `i`, now `c`, and its messages have that shape. -/
def State.busOkAt (s : State) (i : Nat) (c : CoreState) : Prop :=
  busShape c.phase (s.requestsOf i c) (s.answersOf i c)

/-- A Core that waits for a `Pop` waits for the word at its SP, which the issue part did not change (R182). -/
def CoreState.PopOk (c : CoreState) : Prop := ∀ (r : Reg) (a : Word), c.phase = .awaitPop r a → a = popAddr c

/-- The bus invariant of a Package whose memory keeps its contract. -/
def State.BusOk (s : State) : Prop :=
  ∀ (i : Nat) (c : CoreState), s.cores[i]? = some c → s.busOkAt i c ∧ c.PopOk

/-- The event is not one in which the memory breaks its contract (the premise of D24). -/
def Event.wellBehaved : Event → Bool
  | .memRogue _ _ _ => false
  | _ => true

/-- The event is Core `i`'s own (R12a), or a whole step of it. -/
def Event.isOf (i : Nat) : Event → Bool
  | .fullStep j => j == i
  | .begin j => j == i
  | .fetchResponse j => j == i
  | .dataResponse j => j == i
  | .disconnect j => j == i
  | .routerUp _ => false
  | .routerDown => false
  | .memServe => false
  | .memRogue _ _ _ => false
  | .linkLost _ => false
  | .memLinkLost => false
  | .hostRun _ => false
  | .hostReset => false

/-- The flags that R31 gives a result `v` with overflow `ovf`: Z for zero, S for negative, O and C for overflow. -/
def Flags.ofResult (v : Word) (ovf : Bool) : Flags :=
  { z := decide (v = 0), s := decide (s64 v < 0), o := ovf, c := ovf }

/-- The Core `c` has completed an instruction that is no taken jump and become `c'`: registers as `upd` says, IP one past
that (R141 step 5, R144), flags `f`, and nothing else changed. -/
structure CoreState.CompletesTo (c c' : CoreState) (upd : Reg → Word) (f : Flags) : Prop where
  regs : ∀ q, q ≠ Reg.ip → c'.reg q = upd q
  ip : c'.reg .ip = upd .ip + 1
  flags : c'.flags = f
  win : c'.win = c.win
  phase : c'.phase = .ready
  up : c'.up = c.up
  down : c'.down = c.down
  id : c'.id = c.id
  disconnected : c'.disconnected = c.disconnected

/-- The Core `c` has taken a jump to `target` and become `c'`: IP is the target and nothing else changed (R190). -/
structure CoreState.JumpsTo (c c' : CoreState) (target : Word) : Prop where
  regs : ∀ q, q ≠ Reg.ip → c'.reg q = c.reg q
  ip : c'.reg .ip = target
  flags : c'.flags = c.flags
  win : c'.win = c.win
  phase : c'.phase = .ready
  up : c'.up = c.up
  down : c'.down = c.down
  id : c'.id = c.id
  disconnected : c'.disconnected = c.disconnected

/-- The phase a Core halts in when the message `m` is not the answer it waits for (R66, R67): `Error` is `MemoryError`
with its info, anything else `MalformedResponse` with the message. -/
def badAnswerPhase (m : CoreMsg) : Phase :=
  match m with
  | .error info => .halted .memoryError (.err info)
  | .requestBlock _ _ => .halted .malformedResponse (.message m)
  | .giveBlock _ => .halted .malformedResponse (.message m)

/-- What of a Core its own execution loop alone may change (R20): all but its two queues and its input. -/
def CoreState.ownPart (c : CoreState) : Regs × Flags × Window × Phase × Nat :=
  (c.regs, c.flags, c.win, c.phase, c.id)

/-- Perform a list of events in order. -/
def State.performAll : List Event → State → Result
  | [], s => .next s
  | e :: es, s =>
    match s.perform e with
    | .next t => State.performAll es t
    | .fault f => .fault f
    | .refused r => .refused r

/-- A run of the Package: `σ n` is the event of one agent that takes the state `r n` to `r (n + 1)` (R12). -/
def Run (σ : Nat → Event) (r : Nat → State) : Prop := ∀ n, (r n).perform (σ n) = .next (r (n + 1))

/-- The single events of the agents: of a Core, the Router and the memory (R12). -/
def Event.ofAgent : Event → Bool
  | .begin _ => true
  | .fetchResponse _ => true
  | .dataResponse _ => true
  | .disconnect _ => true
  | .routerUp _ => true
  | .routerDown => true
  | .memServe => true
  | .fullStep _ => false
  | .memRogue _ _ _ => false
  | .linkLost _ => false
  | .memLinkLost => false
  | .hostRun _ => false
  | .hostReset => false

/-- The single event of an agent is enabled (R145 to R149, R70, R222, R223). What no agent is ever bound to do is never
enabled: a whole step, a breach of the memory's contract, a loss of a channel, the host's acts. -/
def State.enabled (s : State) : Event → Prop
  | .begin i => ∃ c, s.cores[i]? = some c ∧ c.phase = .ready ∧ stepAllowed Config.stepMode s.runInput = true
  | .fetchResponse i => ∃ c a, s.cores[i]? = some c ∧ c.phase = .awaitFetch a ∧ c.down ≠ []
  | .dataResponse i => ∃ c, s.cores[i]? = some c ∧ c.phase.awaitingData = true ∧ c.down ≠ []
  | .disconnect i => ∃ c, s.cores[i]? = some c ∧ c.phase.awaiting = true ∧ s.linkDown c = true
  | .routerUp i => s.routerFault = false ∧ ∃ c, s.cores[i]? = some c ∧ c.up ≠ []
  | .routerDown => s.routerFault = false ∧ s.memDown ≠ []
  | .memServe => s.memDisconnected = false ∧ s.memUp ≠ []
  | .fullStep _ => False
  | .memRogue _ _ _ => False
  | .linkLost _ => False
  | .memLinkLost => False
  | .hostRun _ => False
  | .hostReset => False

/-- The run is weakly fair to the event `e`: from any point on, it is at some time not enabled or taken. No bound is set
(R79). -/
def WeaklyFair (σ : Nat → Event) (r : Nat → State) (e : Event) : Prop :=
  ∀ n, ∃ m, n ≤ m ∧ ((r m).enabled e → σ m = e)

/-- Weak fairness of the Router's steps: "no request is starved" (R79), "an enabled *Up(i)* or *Down* is eventually taken"
(R226). Log entry 2. -/
structure RouterFair (σ : Nat → Event) (r : Nat → State) : Prop where
  up : ∀ i, WeaklyFair σ r (.routerUp i)
  down : WeaklyFair σ r .routerDown

/-- Weak fairness of every agent, the premise of a claim of termination (R265). -/
def AgentsFair (σ : Nat → Event) (r : Nat → State) : Prop := ∀ e, WeaklyFair σ r e

/-- The event is a single one of an agent: not a whole step of a Core, which takes Router and memory events with it, and
not the host's reset. -/
def Event.single : Event → Bool
  | .fullStep _ => false
  | .hostReset => false
  | .begin _ => true
  | .fetchResponse _ => true
  | .dataResponse _ => true
  | .disconnect _ => true
  | .routerUp _ => true
  | .routerDown => true
  | .memServe => true
  | .memRogue _ _ _ => true
  | .linkLost _ => true
  | .memLinkLost => true
  | .hostRun _ => true

/-- The same Package, Core `i` wearing the identity `k`. -/
def State.renameCore (s : State) (i k : Nat) : State :=
  match s.cores[i]? with
  | some c => s.setCore i { c with id := k }
  | none => s

/-- The message, if it is served, writes the word at `a` (R73). -/
def CoreMsg.writesTo (m : CoreMsg) (a : Nat) : Prop := ∃ es, m = .giveBlock es ∧ ∃ e ∈ es, u64 e.1 = a

/-- No message that Core `c` has sent, and none that waits at the memory, writes the word at `a`. -/
def State.NoWriteInFlight (s : State) (c : CoreState) (a : Nat) : Prop :=
  (∀ m ∈ c.up, ¬ m.writesTo a) ∧ ∀ tm ∈ s.memUp, ¬ tm.2.writesTo a

/-- The events of one bus transaction of Core `i` that nothing else interrupts: *Up(i)*, *memServe*, *Down*. -/
def transportEvents (i : Nat) : List Event := [.routerUp i, .memServe, .routerDown]

end Sys2Proof.Machine
end

