-- ==== Sys2Proof/Certificates/Slice0/Obligations.lean ====
section
/-! DEFINITION. The statements for the provers: the rules of the spec that say what an instruction, the bus or the machine
does. Each names the rule it formalises. -/

open Sys2Proof Sys2Proof.Machine

/-! ## Encoding (30_encoding) -/

/-- R116: `decode(encode(i)) = i` for every instruction that has an encoding; and `encode(decode(w)) = w` exactly for
the canonical words, the part of R116 that the spec marks as derived, an inference of its own. -/
def Obligations.EncodeDecodeRoundTrip : Prop :=
  (∀ i : Instr, i.WellFormed → ∃ w, encode i = some w ∧ decode w = .ok i) ∧
    ∀ (w : Word) (i : Instr), decode w = .ok i →
      i.WellFormed ∧ (encode i = some w ↔ unusedBitsZero i w = true)

/-- Words written out from the encodings of R104 decode to their instructions, one per family. Which nibble names which
register is the table `REG_CODE` at its default (R21, the spec's decision D2, log entry 7). -/
def Obligations.SampleWordsDecode : Prop :=
  decode 0x0000000000000000#64 = .ok .nop ∧
    decode 0x1060000000000000#64 = .ok (.add .ip .a) ∧
    decode 0x2054000000000000#64 = .ok (.mul .bp .sp) ∧
    decode 0x306FFFFFFFFFFFFF#64 = .ok (.load .ip 0xFFFFFFFFFFFFF) ∧
    decode 0x4020000000000013#64 = .ok (.store 19 .c) ∧
    decode 0x5040000000000000#64 = .ok (.push .sp) ∧
    decode 0x6010000000000000#64 = .ok (.pop .b) ∧
    decode 0x7100000000000020#64 = .ok (.jumpIfZero 32) ∧
    decode 0x720000000000000C#64 = .ok (.jumpIfPositive 12) ∧
    decode 0x730FFFFFFFFFFFFF#64 = .ok (.jumpIfNegative 0xFFFFFFFFFFFFF) ∧
    decode 0x8070000000000000#64 = .err .unknownOpcode ∧
    decode 0x1007000000000000#64 = .err .unknownRegister

/-- R109: exactly which words are `UnknownOpcode`. -/
def Obligations.UnknownOpcodeWords : Prop :=
  ∀ w : Word, decode w = .err .unknownOpcode ↔
    8 ≤ bits w 63 60 ∨ (bits w 63 60 = 7 ∧ (bits w 59 56 = 0 ∨ 4 ≤ bits w 59 56))

/-- R110: exactly which words are `UnknownRegister`. -/
def Obligations.UnknownRegisterWords : Prop :=
  ∀ w : Word, decode w = .err .unknownRegister ↔
    (1 ≤ bits w 63 60 ∧ bits w 63 60 ≤ 6 ∧ 7 ≤ bits w 55 52) ∨
      (1 ≤ bits w 63 60 ∧ bits w 63 60 ≤ 2 ∧ 7 ≤ bits w 51 48)

/-- R119 on spec/opcode_table.json: a word that selects a row decodes to that row's instruction or has a bad register;
a word that selects no row is `UnknownOpcode`; no word selects two rows. -/
def Obligations.OpcodeTableSelects : Prop :=
  (∀ (w : Word) (row : OpcodeRow), row ∈ opcodeTable → row.selects w = true →
      decode w = .err .unknownRegister ∨ ∃ i, decode w = .ok i ∧ i.op = row.op) ∧
    (∀ w : Word, (∀ row ∈ opcodeTable, row.selects w = false) → decode w = .err .unknownOpcode) ∧
    ∀ (w : Word) (row row' : OpcodeRow), row ∈ opcodeTable → row' ∈ opcodeTable →
      row.selects w = true → row'.selects w = true → row = row'

/-- R112: the decoder block's outputs are the decoded instruction's opcode number, register codes and address; on a
decode error `err` says which, and nothing else is given. -/
def Obligations.DecoderBlockOutputs : Prop :=
  ∀ w : Word, decoderBlock w = match decode w with
    | .ok i => { err := 0, op := some i.op, r1 := i.r1?.map Reg.code, r2 := i.r2?.map Reg.code, addr := i.addr? }
    | .err .unknownOpcode => { err := 1, op := none, r1 := none, r2 := none, addr := none }
    | .err .unknownRegister => { err := 2, op := none, r1 := none, r2 := none, addr := none }

/-! ## Arithmetic (41_arithmetic) and flags (10_state) -/

/-- R31: `apply_result` sets Z from zero, S from the sign, O and C from the overflow, whatever stood there before. -/
def Obligations.ApplyResultFlags : Prop := ∀ (v : Word) (ovf : Bool), applyResult v ovf = Flags.ofResult v ovf

/-- R161: `Add(r1, r2)` on any Core that is `Ready`: decoding, result, flags, IP, and nothing else changed. The rule's
hardware test, an inference of the spec's own, is the statement `AddOverflowBySigns`. -/
def Obligations.AddRule : Prop :=
  (∀ (w : Word) (r1 r2 : Reg), bits w 63 60 = 1 → bits w 55 52 = r1.code → bits w 51 48 = r2.code →
      decode w = .ok (.add r1 r2)) ∧
    ∀ (s : State) (c : CoreState) (r1 r2 : Reg), s.cores[s.active]? = some c → c.phase = .ready →
      ∃ c', exec (.add r1 r2) s = .next { s with cores := s.cores.set s.active c' } ∧
        c.CompletesTo c'
          (fun q => if q = r1 then wrap64 (s64 (c.reg r1) + s64 (c.reg r2)) else c.reg q)
          (Flags.ofResult (wrap64 (s64 (c.reg r1) + s64 (c.reg r2)))
            (decide (s64 (c.reg r1) + s64 (c.reg r2) < -2 ^ 63 ∨ s64 (c.reg r1) + s64 (c.reg r2) > 2 ^ 63 - 1)))

/-- R162: `Mul(r1, r2)`, likewise; its hardware test is the statement `MulOverflowByHighBits`. -/
def Obligations.MulRule : Prop :=
  (∀ (w : Word) (r1 r2 : Reg), bits w 63 60 = 2 → bits w 55 52 = r1.code → bits w 51 48 = r2.code →
      decode w = .ok (.mul r1 r2)) ∧
    ∀ (s : State) (c : CoreState) (r1 r2 : Reg), s.cores[s.active]? = some c → c.phase = .ready →
      ∃ c', exec (.mul r1 r2) s = .next { s with cores := s.cores.set s.active c' } ∧
        c.CompletesTo c'
          (fun q => if q = r1 then wrap64 (s64 (c.reg r1) * s64 (c.reg r2)) else c.reg q)
          (Flags.ofResult (wrap64 (s64 (c.reg r1) * s64 (c.reg r2)))
            (decide (s64 (c.reg r1) * s64 (c.reg r2) < -2 ^ 63 ∨ s64 (c.reg r1) * s64 (c.reg r2) > 2 ^ 63 - 1)))

/-- R161, the test for hardware: an addition overflows iff both operands have one sign and the wrapped sum the other. -/
def Obligations.AddOverflowBySigns : Prop :=
  ∀ x y : Word, signedOverflow (sumOf x y) = (x.msb == y.msb && (wrap64 (sumOf x y)).msb != x.msb)

/-- R162, the test for hardware: a multiplication overflows iff bits 127:63 of the 128-bit signed product are neither
all zeros nor all ones. -/
def Obligations.MulOverflowByHighBits : Prop :=
  ∀ x y : Word, signedOverflow (productOf x y) = true ↔
    ((BitVec.ofInt 128 (productOf x y)).extractLsb' 63 65 ≠ 0#65 ∧
      (BitVec.ofInt 128 (productOf x y)).extractLsb' 63 65 ≠ BitVec.allOnes 65)

/-! ## Control transfer and `Nop` (44_jump_nop) -/

/-- R191: `JumpIfZero(addr)`, with the flags kept (`FLAGS_ON_NO_RESULT` at its default, D5, log entry 7). -/
def Obligations.JumpIfZeroRule : Prop :=
  (∀ w : Word, bits w 63 60 = 7 → bits w 59 56 = 1 → decode w = .ok (.jumpIfZero (bits w 51 0))) ∧
    ∀ (s : State) (c : CoreState) (addr : Nat), s.cores[s.active]? = some c → c.phase = .ready →
      ∃ c', exec (.jumpIfZero addr) s = .next { s with cores := s.cores.set s.active c' } ∧
        if c.flags.z = true then c.JumpsTo c' (zext64 addr) else c.CompletesTo c' c.reg c.flags

/-- R192: `JumpIfPositive(addr)`: SIGN clear; ZERO is not consulted (`POSITIVE_EXCLUDES_ZERO` and `FLAGS_ON_NO_RESULT`
at their defaults, D5, D6, log entry 7). -/
def Obligations.JumpIfPositiveRule : Prop :=
  (∀ w : Word, bits w 63 60 = 7 → bits w 59 56 = 2 → decode w = .ok (.jumpIfPositive (bits w 51 0))) ∧
    ∀ (s : State) (c : CoreState) (addr : Nat), s.cores[s.active]? = some c → c.phase = .ready →
      ∃ c', exec (.jumpIfPositive addr) s = .next { s with cores := s.cores.set s.active c' } ∧
        if c.flags.s = false then c.JumpsTo c' (zext64 addr) else c.CompletesTo c' c.reg c.flags

/-- R193: `JumpIfNegative(addr)`, with the flags kept (D5, log entry 7). -/
def Obligations.JumpIfNegativeRule : Prop :=
  (∀ w : Word, bits w 63 60 = 7 → bits w 59 56 = 3 → decode w = .ok (.jumpIfNegative (bits w 51 0))) ∧
    ∀ (s : State) (c : CoreState) (addr : Nat), s.cores[s.active]? = some c → c.phase = .ready →
      ∃ c', exec (.jumpIfNegative addr) s = .next { s with cores := s.cores.set s.active c' } ∧
        if c.flags.s = true then c.JumpsTo c' (zext64 addr) else c.CompletesTo c' c.reg c.flags

/-- R194: `Nop` advances IP and does nothing else (flags kept: D5, log entry 7); every word whose top nibble is zero is
one (unused bits ignored: D3, log entry 7). -/
def Obligations.NopRule : Prop :=
  (∀ w : Word, bits w 63 60 = 0 → decode w = .ok .nop) ∧
    ∀ (s : State) (c : CoreState), s.cores[s.active]? = some c → c.phase = .ready →
      ∃ c', exec .nop s = .next { s with cores := s.cores.set s.active c' } ∧ c.CompletesTo c' c.reg c.flags

/-- R195: the pair `JumpIfNegative(t)`, `JumpIfPositive(t)` is an unconditional jump: either the first is taken, or it
falls through and the second is. -/
def Obligations.JumpPairIsUnconditional : Prop :=
  ∀ (s : State) (c : CoreState) (t : Nat), s.cores[s.active]? = some c → c.phase = .ready →
    ∃ s1 c1, exec (.jumpIfNegative t) s = .next s1 ∧ s1.cores[s1.active]? = some c1 ∧
      (c1.reg .ip = zext64 t ∨
        (c1.reg .ip = c.reg .ip + 1 ∧
          ∃ s2 c2, exec (.jumpIfPositive t) s1 = .next s2 ∧ s2.cores[s2.active]? = some c2 ∧
            c2.reg .ip = zext64 t ∧ c2.flags = c.flags))

/-! ## Memory instructions (42_load_store) -/

/-- R171: `Load(r1, addr)`: decoding; the issue part; the whole instruction on a quiet bus; the completion when the
answer comes to a waiting Core; the three ways it halts, with registers, flags and IP unchanged. -/
def Obligations.LoadRule : Prop :=
  (∀ (w : Word) (r1 : Reg), bits w 63 60 = 3 → bits w 55 52 = r1.code → decode w = .ok (.load r1 (bits w 51 0))) ∧
    (∀ (s : State) (c : CoreState) (r1 : Reg) (addr : Nat), s.cores[s.active]? = some c → c.phase = .ready →
      c.disconnected = false → s.routerFault = false →
      issueLoad r1 addr s = .next { s with cores := s.cores.set s.active { c with
        up := c.up ++ [.requestBlock (zext64 addr) Config.oneCount], phase := .awaitLoad r1 (zext64 addr) } }) ∧
    (∀ (s : State) (c : CoreState) (r1 : Reg) (addr : Nat), s.Quiet c → c.phase = .ready → addr < 2 ^ 52 →
      ∃ c', exec (.load r1 addr) s = .next { s with cores := s.cores.set s.active c', tick := s.tick + 1 } ∧
        c.CompletesTo c' (fun q => if q = r1 then s.mem.read addr else c.reg q)
          (Flags.ofResult (s.mem.read addr) false)) ∧
    (∀ (s : State) (i : Nat) (c : CoreState) (r1 : Reg) (a w : Word) (rest : List CoreMsg),
      s.cores[i]? = some c → c.phase = .awaitLoad r1 a → c.down = .giveBlock [(a, w)] :: rest →
      ∃ c', s.perform (.dataResponse i) = .next { s with active := i, cores := s.cores.set i c' } ∧
        { c with down := rest }.CompletesTo c' (fun q => if q = r1 then w else c.reg q) (Flags.ofResult w false)) ∧
    (∀ (s : State) (i : Nat) (c : CoreState) (r1 : Reg) (a : Word) (m : CoreMsg) (rest : List CoreMsg),
      s.cores[i]? = some c → c.phase = .awaitLoad r1 a → c.down = m :: rest → (∀ w, m ≠ .giveBlock [(a, w)]) →
      s.perform (.dataResponse i) = .next { s with
        active := i
        cores := s.cores.set i { c with down := rest, phase := badAnswerPhase m } }) ∧
    (∀ (s : State) (i : Nat) (c : CoreState) (r1 : Reg) (a : Word),
      s.cores[i]? = some c → c.phase = .awaitLoad r1 a → (c.disconnected = true ∨ s.routerFault = true) →
      s.perform (.disconnect i) = .next { s with
        active := i, cores := s.cores.set i { c with phase := .halted .busDisconnected .nothing } }) ∧
    ∀ (s : State) (c : CoreState) (r1 : Reg) (addr : Nat), s.cores[s.active]? = some c → c.phase = .ready →
      (c.disconnected = true ∨ s.routerFault = true) →
      exec (.load r1 addr) s =
        .next { s with cores := s.cores.set s.active { c with phase := .halted .busDisconnected .nothing } }

/-- R172: `Store(addr, r1)`: decoding; the issue part; the whole instruction on a quiet bus, after which the memory
reads the stored word at `addr` and every other word as before; the completion, flags after the acknowledgement (the
spec's decision D22); the halts, with flags and IP unchanged. -/
def Obligations.StoreRule : Prop :=
  (∀ (w : Word) (r1 : Reg), bits w 63 60 = 4 → bits w 55 52 = r1.code → decode w = .ok (.store (bits w 51 0) r1)) ∧
    (∀ (s : State) (c : CoreState) (r1 : Reg) (addr : Nat), s.cores[s.active]? = some c → c.phase = .ready →
      c.disconnected = false → s.routerFault = false →
      issueStore addr r1 s = .next { s with cores := s.cores.set s.active { c with
        up := c.up ++ [.giveBlock [(zext64 addr, c.reg r1)]], phase := .awaitStore (zext64 addr) (c.reg r1) } }) ∧
    (∀ (s : State) (c : CoreState) (r1 : Reg) (addr : Nat), s.Quiet c → c.phase = .ready → addr < 2 ^ 52 →
      ∃ c' t, exec (.store addr r1) s = .next t ∧
        t = { s with cores := s.cores.set s.active c', mem := s.mem.write addr (c.reg r1), tick := s.tick + 1 } ∧
        c.CompletesTo c' c.reg (Flags.ofResult (c.reg r1) false) ∧
        (s.MemOk → ∀ b, t.mem.read b = if b = addr then c.reg r1 else s.mem.read b)) ∧
    (∀ (s : State) (i : Nat) (c : CoreState) (a v w : Word) (rest : List CoreMsg),
      s.cores[i]? = some c → c.phase = .awaitStore a v → c.down = .giveBlock [(a, w)] :: rest →
      ∃ c', s.perform (.dataResponse i) = .next { s with active := i, cores := s.cores.set i c' } ∧
        { c with down := rest }.CompletesTo c' c.reg (Flags.ofResult v false)) ∧
    (∀ (s : State) (i : Nat) (c : CoreState) (a v : Word) (m : CoreMsg) (rest : List CoreMsg),
      s.cores[i]? = some c → c.phase = .awaitStore a v → c.down = m :: rest → (∀ w, m ≠ .giveBlock [(a, w)]) →
      s.perform (.dataResponse i) = .next { s with
        active := i
        cores := s.cores.set i { c with down := rest, phase := badAnswerPhase m } }) ∧
    (∀ (s : State) (i : Nat) (c : CoreState) (a v : Word),
      s.cores[i]? = some c → c.phase = .awaitStore a v → (c.disconnected = true ∨ s.routerFault = true) →
      s.perform (.disconnect i) = .next { s with
        active := i, cores := s.cores.set i { c with phase := .halted .busDisconnected .nothing } }) ∧
    ∀ (s : State) (c : CoreState) (r1 : Reg) (addr : Nat), s.cores[s.active]? = some c → c.phase = .ready →
      (c.disconnected = true ∨ s.routerFault = true) →
      exec (.store addr r1) s =
        .next { s with cores := s.cores.set s.active { c with phase := .halted .busDisconnected .nothing } }

/-! ## Stack instructions (43_stack) -/

/-- R181: `Push(r1)`: SP is lowered first and `r1` read after, so `Push(SP)` pushes the new SP (the spec's decisions
D7, D9, D22); the issue part; on a quiet bus the word is written at the new SP and read there, every other word as
before; when the memory refuses, SP stays lowered and flags and IP are unchanged. -/
def Obligations.PushRule : Prop :=
  (∀ (w : Word) (r1 : Reg), bits w 63 60 = 5 → bits w 55 52 = r1.code → decode w = .ok (.push r1)) ∧
    (∀ (s : State) (c : CoreState) (r1 : Reg) (v : Word), s.cores[s.active]? = some c → c.phase = .ready →
      c.disconnected = false → s.routerFault = false → v = (if r1 = .sp then c.reg .sp - 1 else c.reg r1) →
      issuePush r1 s = .next { s with cores := s.cores.set s.active { c with
        regs := { c.regs with sp := c.regs.sp - 1 }
        up := c.up ++ [.giveBlock [(c.reg .sp - 1, v)]]
        phase := .awaitPush (c.reg .sp - 1) v } }) ∧
    (∀ (s : State) (c : CoreState) (r1 : Reg) (v : Word), s.Quiet c → c.phase = .ready →
      u64 (c.reg .sp - 1) < 2 ^ 52 → v = (if r1 = .sp then c.reg .sp - 1 else c.reg r1) →
      ∃ c' t, exec (.push r1) s = .next t ∧
        t = { s with
          cores := s.cores.set s.active c', mem := s.mem.write (u64 (c.reg .sp - 1)) v, tick := s.tick + 1 } ∧
        c.CompletesTo c' (fun q => if q = Reg.sp then c.reg .sp - 1 else c.reg q) (Flags.ofResult v false) ∧
        (s.MemOk → ∀ b, t.mem.read b = if b = u64 (c.reg .sp - 1) then v else s.mem.read b)) ∧
    (∀ (s : State) (c : CoreState) (r1 : Reg), s.Quiet c → c.phase = .ready → 2 ^ 52 ≤ u64 (c.reg .sp - 1) →
      ∃ info, exec (.push r1) s = .next { s with
          cores := s.cores.set s.active { c with
            regs := { c.regs with sp := c.regs.sp - 1 }, phase := .halted .memoryError (.err info) }
          tick := s.tick + 1 }) ∧
    (∀ (s : State) (i : Nat) (c : CoreState) (a v w : Word) (rest : List CoreMsg),
      s.cores[i]? = some c → c.phase = .awaitPush a v → c.down = .giveBlock [(a, w)] :: rest →
      ∃ c', s.perform (.dataResponse i) = .next { s with active := i, cores := s.cores.set i c' } ∧
        { c with down := rest }.CompletesTo c' c.reg (Flags.ofResult v false)) ∧
    (∀ (s : State) (i : Nat) (c : CoreState) (a v : Word) (m : CoreMsg) (rest : List CoreMsg),
      s.cores[i]? = some c → c.phase = .awaitPush a v → c.down = m :: rest → (∀ w, m ≠ .giveBlock [(a, w)]) →
      s.perform (.dataResponse i) = .next { s with
        active := i
        cores := s.cores.set i { c with down := rest, phase := badAnswerPhase m } }) ∧
    (∀ (s : State) (i : Nat) (c : CoreState) (a v : Word),
      s.cores[i]? = some c → c.phase = .awaitPush a v → (c.disconnected = true ∨ s.routerFault = true) →
      s.perform (.disconnect i) = .next { s with
        active := i, cores := s.cores.set i { c with phase := .halted .busDisconnected .nothing } }) ∧
    ∀ (s : State) (c : CoreState) (r1 : Reg), s.cores[s.active]? = some c → c.phase = .ready →
      (c.disconnected = true ∨ s.routerFault = true) →
      exec (.push r1) s = .next { s with cores := s.cores.set s.active { c with
        regs := { c.regs with sp := c.regs.sp - 1 }, phase := .halted .busDisconnected .nothing } }

/-- R182 (`POP_SETS_FLAGS` at its default, D8, log entry 7): `Pop(r1)`: the word at SP, SP raised and tested, `r1`
written last; the halts leave SP, `r1`, flags and IP unchanged. -/
def Obligations.PopRule : Prop :=
  (∀ (w : Word) (r1 : Reg), bits w 63 60 = 6 → bits w 55 52 = r1.code → decode w = .ok (.pop r1)) ∧
    (∀ (s : State) (c : CoreState) (r1 : Reg), s.cores[s.active]? = some c → c.phase = .ready →
      c.disconnected = false → s.routerFault = false →
      issuePop r1 s = .next { s with cores := s.cores.set s.active { c with
        up := c.up ++ [.requestBlock (c.reg .sp) Config.oneCount], phase := .awaitPop r1 (c.reg .sp) } }) ∧
    (∀ (s : State) (c : CoreState) (r1 : Reg) (w : Word), s.Quiet c → c.phase = .ready → u64 (c.reg .sp) < 2 ^ 52 →
      w = s.mem.read (u64 (c.reg .sp)) →
      ∃ c', exec (.pop r1) s = .next { s with cores := s.cores.set s.active c', tick := s.tick + 1 } ∧
        c.CompletesTo c' (fun q => if q = r1 then w else if q = Reg.sp then c.reg .sp + 1 else c.reg q)
          (Flags.ofResult w false)) ∧
    (∀ (s : State) (c : CoreState) (r1 : Reg), s.Quiet c → c.phase = .ready → 2 ^ 52 ≤ u64 (c.reg .sp) →
      ∃ info, exec (.pop r1) s = .next { s with
        cores := s.cores.set s.active { c with phase := .halted .memoryError (.err info) }, tick := s.tick + 1 }) ∧
    (∀ (s : State) (i : Nat) (c : CoreState) (r1 : Reg) (a w : Word) (rest : List CoreMsg),
      s.cores[i]? = some c → c.phase = .awaitPop r1 a → c.down = .giveBlock [(a, w)] :: rest →
      if s64 (c.reg .sp + 1) < 0 then
        s.perform (.dataResponse i) = .next { s with
          active := i
          cores := s.cores.set i { c with
            down := rest, phase := .halted .stackUnderflow (.newSp (c.reg .sp + 1)) } }
      else
        ∃ c', s.perform (.dataResponse i) = .next { s with active := i, cores := s.cores.set i c' } ∧
          { c with down := rest }.CompletesTo c'
            (fun q => if q = r1 then w else if q = Reg.sp then c.reg .sp + 1 else c.reg q) (Flags.ofResult w false)) ∧
    (∀ (s : State) (i : Nat) (c : CoreState) (r1 : Reg) (a : Word) (m : CoreMsg) (rest : List CoreMsg),
      s.cores[i]? = some c → c.phase = .awaitPop r1 a → c.down = m :: rest → (∀ w, m ≠ .giveBlock [(a, w)]) →
      s.perform (.dataResponse i) = .next { s with
        active := i
        cores := s.cores.set i { c with down := rest, phase := badAnswerPhase m } }) ∧
    (∀ (s : State) (i : Nat) (c : CoreState) (r1 : Reg) (a : Word),
      s.cores[i]? = some c → c.phase = .awaitPop r1 a → (c.disconnected = true ∨ s.routerFault = true) →
      s.perform (.disconnect i) = .next { s with
        active := i, cores := s.cores.set i { c with phase := .halted .busDisconnected .nothing } }) ∧
    ∀ (s : State) (c : CoreState) (r1 : Reg), s.cores[s.active]? = some c → c.phase = .ready →
      (c.disconnected = true ∨ s.routerFault = true) →
      exec (.pop r1) s =
        .next { s with cores := s.cores.set s.active { c with phase := .halted .busDisconnected .nothing } }

/-- R183: a `Pop` that takes its word fails the test of the raised SP in exactly two cases: SP was -2 or less, or it was
`I64_MAX`. Then the Core halts with `StackUnderflow` and the raised value; in every other case it is `Ready` again. -/
def Obligations.PopTestFailsExactly : Prop :=
  ∀ (s : State) (i : Nat) (c : CoreState) (r1 : Reg) (a w : Word) (rest : List CoreMsg),
    s.cores[i]? = some c → c.phase = .awaitPop r1 a → c.down = .giveBlock [(a, w)] :: rest →
    ∃ t c', s.perform (.dataResponse i) = .next t ∧ t.cores[i]? = some c' ∧
      (c'.phase = .halted .stackUnderflow (.newSp (c.reg .sp + 1)) ↔ s64 (c.reg .sp) ≤ -2 ∨ c.reg .sp = i64Max) ∧
      (c'.phase = .ready ↔ -1 ≤ s64 (c.reg .sp) ∧ c.reg .sp ≠ i64Max)

/-- R184: `Push(r)` then `Pop(q)`, `r` and `q` other than SP, `1 <= SP <= 2^52`: `q` is the old `r`, SP as before, the
word below SP is the old `r`, and the flags follow it. For `q` = IP the old `r` plus one is the model's reading (R27, R144,
R182: the advance follows; log entry 18), where R184's letter has the old `r`. -/
def Obligations.PushPopRoundTrip : Prop :=
  ∀ (s : State) (c : CoreState) (r q : Reg), s.Quiet c → c.phase = .ready → s.MemOk → r ≠ .sp → q ≠ Reg.sp →
    1 ≤ u64 (c.reg .sp) → u64 (c.reg .sp) ≤ 2 ^ 52 →
    ∃ s1 s2 c2, exec (.push r) s = .next s1 ∧ exec (.pop q) s1 = .next s2 ∧ s2.cores[s2.active]? = some c2 ∧
      c2.reg q = (if q = Reg.ip then c.reg r + 1 else c.reg r) ∧ c2.reg .sp = c.reg .sp ∧
      s2.mem.read (u64 (c.reg .sp) - 1) = c.reg r ∧ c2.flags = Flags.ofResult (c.reg r) false ∧ c2.phase = .ready

/-! ## Frames -/

/-- `Nop`, `Add`, `Mul` and the jumps, from any state: only the active Core's registers and flags change; of the
registers only IP and `r1` of `Add` and `Mul`; the flags only by `Add` and `Mul` (the jumps and `Nop` keep them with
`FLAGS_ON_NO_RESULT` at its default, D5, log entry 7); no word of memory. -/
def Obligations.RegisterInstrFrame : Prop :=
  ∀ (i : Instr) (s t : State), i.op = 0 ∨ i.op = 1 ∨ i.op = 2 ∨ 7 ≤ i.op → exec i s = .next t →
    ∃ c c', s.cores[s.active]? = some c ∧ t = { s with cores := s.cores.set s.active c' } ∧
      c' = { c with regs := c'.regs, flags := c'.flags } ∧
      (∀ q, q ≠ Reg.ip → ¬((i.op = 1 ∨ i.op = 2) ∧ i.r1? = some q) → c'.reg q = c.reg q) ∧
      (i.op ≠ 1 → i.op ≠ 2 → c'.flags = c.flags) ∧ ∀ a, t.mem.read a = s.mem.read a

/-- `Load` and `Pop`, from any state: no word of memory changes but by a write that was in flight before; of the active
Core's registers only IP, `r1`, and SP for `Pop`; no window changes; other Cores keep all but their queues. -/
def Obligations.ReadInstrFrame : Prop :=
  ∀ (i : Instr) (s t : State), i.op = 3 ∨ i.op = 6 → s.MemOk → exec i s = .next t →
    ∃ c c', s.cores[s.active]? = some c ∧ t.cores[s.active]? = some c' ∧ c'.win = c.win ∧ c'.id = c.id ∧
      (∀ q, q ≠ Reg.ip → i.r1? ≠ some q → ¬(i.op = 6 ∧ q = Reg.sp) → c'.reg q = c.reg q) ∧
      (∀ a, s.NoWriteInFlight c a → t.mem.read a = s.mem.read a) ∧
      ∀ (j : Nat) (d : CoreState), j ≠ s.active → s.cores[j]? = some d →
        ∃ d', t.cores[j]? = some d' ∧ d'.ownPart = d.ownPart

/-- `Store(addr, r1)`, from any state: no word of memory but that at `addr` changes, but by a write that was in flight
before; of the active Core's registers only IP; no window changes; other Cores keep all but their queues. -/
def Obligations.StoreFrame : Prop :=
  ∀ (addr : Nat) (r1 : Reg) (s t : State), s.MemOk → exec (.store addr r1) s = .next t →
    ∃ c c', s.cores[s.active]? = some c ∧ t.cores[s.active]? = some c' ∧ c'.win = c.win ∧ c'.id = c.id ∧
      (∀ q, q ≠ Reg.ip → c'.reg q = c.reg q) ∧
      (∀ a, a ≠ u64 (absoluteAddr addr) → s.NoWriteInFlight c a → t.mem.read a = s.mem.read a) ∧
      ∀ (j : Nat) (d : CoreState), j ≠ s.active → s.cores[j]? = some d →
        ∃ d', t.cores[j]? = some d' ∧ d'.ownPart = d.ownPart

/-- `Push(r1)`, from any state: no word of memory but that at the lowered SP changes, but by a write that was in flight
before; of the active Core's registers only IP and SP; no window changes; other Cores keep all but their queues. -/
def Obligations.PushFrame : Prop :=
  ∀ (r1 : Reg) (s t : State), s.MemOk → exec (.push r1) s = .next t →
    ∃ c c', s.cores[s.active]? = some c ∧ t.cores[s.active]? = some c' ∧ c'.win = c.win ∧ c'.id = c.id ∧
      (∀ q, q ≠ Reg.ip → q ≠ Reg.sp → c'.reg q = c.reg q) ∧
      (∀ a, a ≠ u64 (pushAddr c) → s.NoWriteInFlight c a → t.mem.read a = s.mem.read a) ∧
      ∀ (j : Nat) (d : CoreState), j ≠ s.active → s.cores[j]? = some d →
        ∃ d', t.cores[j]? = some d' ∧ d'.ownPart = d.ownPart

/-! ## The step (40_engine_step) -/

/-- R141, R145: when the word at IP is in the window and decodes, a step of the Core is `exec` of that instruction on
it: nothing stands around it but the event taken and the Core made the active one. -/
def Obligations.StepRunsDecodedOnHit : Prop :=
  ∀ (s s' : State) (i : Nat) (c : CoreState) (w : Word) (ins : Instr),
    s.nextEvent = (.fullStep i, s') → s'.cores[i]? = some c → c.phase = .ready →
    c.win.lookup (c.reg .ip) = some w → decode w = .ok ins → step s = exec ins { s' with active := i }

/-- R142: when the word at IP is not in the window, the bus is quiet and the eight words from IP are in the memory, a
step of the Core refills the window with them and is `exec` of the instruction the first of them decodes to. -/
def Obligations.StepRunsDecodedOnMiss : Prop :=
  ∀ (s s' : State) (i : Nat) (c : CoreState) (ins : Instr),
    s.nextEvent = (.fullStep i, s') → { s' with active := i }.Quiet c → c.phase = .ready →
    c.win.lookup (c.reg .ip) = none → u64 (c.reg .ip) + 8 ≤ 2 ^ 52 →
    decode (s'.mem.read (u64 (c.reg .ip))) = .ok ins →
    ∃ win, step s = exec ins { s' with
        active := i, cores := s'.cores.set i { c with win := win }, tick := s'.tick + 1 } ∧
      win.valid = true ∧ win.base = c.reg .ip ∧
      ∀ k, k < 8 → win.w[k]? = some (s'.mem.read (u64 (c.reg .ip) + k))

/-- R202, R212: a fetched word that does not decode halts the Core with the word and its address, and changes nothing
else; in a whole step that misses, the window has been refilled by then and stays so. -/
def Obligations.DecodeErrorHalts : Prop :=
  (∀ (s s' : State) (i : Nat) (c : CoreState) (w : Word) (e : DecodeError) (ev : Event),
    (ev = .fullStep i ∨ ev = .begin i) → s.nextEvent = (ev, s') → s'.cores[i]? = some c → c.phase = .ready →
    c.win.lookup (c.reg .ip) = some w → decode w = .err e →
    step s = .next { s' with
      active := i
      cores := s'.cores.set i { c with
        phase := .halted (match e with | .unknownOpcode => .unknownOpcode | .unknownRegister => .unknownRegister)
          (.fetched w (c.reg .ip)) } }) ∧
    ∀ (s s' : State) (i : Nat) (c : CoreState) (e : DecodeError),
      s.nextEvent = (.fullStep i, s') → { s' with active := i }.Quiet c → c.phase = .ready →
      c.win.lookup (c.reg .ip) = none → u64 (c.reg .ip) + 8 ≤ 2 ^ 52 →
      decode (s'.mem.read (u64 (c.reg .ip))) = .err e →
      ∃ win, win.valid = true ∧ win.base = c.reg .ip ∧
        (∀ k, k < 8 → win.w[k]? = some (s'.mem.read (u64 (c.reg .ip) + k))) ∧
        step s = .next { s' with
          active := i
          tick := s'.tick + 1
          cores := s'.cores.set i { c with
            win := win
            phase := .halted (match e with | .unknownOpcode => .unknownOpcode | .unknownRegister => .unknownRegister)
              (.fetched (s'.mem.read (u64 (c.reg .ip))) (c.reg .ip)) } }

/-- R203, R212: a fetch that misses at an IP outside `[0, 2^52 - 8]` is refused by the memory and halts the Core with
`MemoryError`, window, registers and flags unchanged. -/
def Obligations.FetchRefusedHalts : Prop :=
  ∀ (s s' : State) (i : Nat) (c : CoreState),
    s.nextEvent = (.fullStep i, s') → { s' with active := i }.Quiet c → c.phase = .ready →
    c.win.lookup (c.reg .ip) = none → 2 ^ 52 < u64 (c.reg .ip) + 8 →
    ∃ info, step s = .next { s' with
      active := i, cores := s'.cores.set i { c with phase := .halted .memoryError (.err info) }, tick := s'.tick + 1 }

/-- R145: *Begin* on a miss sends `RequestBlock(a, 8)` and waits, or halts if the channel is gone. -/
def Obligations.BeginMissSends : Prop :=
  ∀ (s : State) (i : Nat) (c : CoreState), s.cores[i]? = some c → c.phase = .ready →
    c.win.lookup (c.reg .ip) = none →
    s.perform (.begin i) = .next { s with
      active := i
      cores := s.cores.set i
        (if c.disconnected || s.routerFault then { c with phase := .halted .busDisconnected .nothing }
         else { c with up := c.up ++ [.requestBlock (c.reg .ip) Config.windowCount], phase := .awaitFetch (c.reg .ip) }) }

/-- R145, R147: *Begin* on a hit executes an instruction that needs no bus, whatever its channel, and issues the request
of one that does; with the channel gone such a one halts at the send (R149, R204), `Push` with SP lowered. -/
def Obligations.BeginHitRuns : Prop :=
  ∀ (s : State) (i : Nat) (c : CoreState) (w : Word) (ins : Instr), s.cores[i]? = some c → c.phase = .ready →
    c.win.lookup (c.reg .ip) = some w → decode w = .ok ins →
    s.perform (.begin i) = match ins with
      | .load r1 addr => .next { s with active := i, cores := s.cores.set i (if c.disconnected || s.routerFault then
            { c with phase := .halted .busDisconnected .nothing }
          else { c with
            up := c.up ++ [.requestBlock (zext64 addr) Config.oneCount], phase := .awaitLoad r1 (zext64 addr) }) }
      | .store addr r1 => .next { s with active := i, cores := s.cores.set i (if c.disconnected || s.routerFault then
            { c with phase := .halted .busDisconnected .nothing }
          else { c with
            up := c.up ++ [.giveBlock [(zext64 addr, c.reg r1)]], phase := .awaitStore (zext64 addr) (c.reg r1) }) }
      | .push r1 => .next { s with active := i, cores := s.cores.set i (if c.disconnected || s.routerFault then
            { c with regs := { c.regs with sp := c.regs.sp - 1 }, phase := .halted .busDisconnected .nothing }
          else { c with
            regs := { c.regs with sp := c.regs.sp - 1 }
            up := c.up ++ [.giveBlock [(c.reg .sp - 1, if r1 = .sp then c.reg .sp - 1 else c.reg r1)]]
            phase := .awaitPush (c.reg .sp - 1) (if r1 = .sp then c.reg .sp - 1 else c.reg r1) }) }
      | .pop r1 => .next { s with active := i, cores := s.cores.set i (if c.disconnected || s.routerFault then
            { c with phase := .halted .busDisconnected .nothing }
          else { c with
            up := c.up ++ [.requestBlock (c.reg .sp) Config.oneCount], phase := .awaitPop r1 (c.reg .sp) }) }
      | other => exec other { s with active := i }

/-- R146: *FetchResponse*. Eight entries at `a .. a+7` refill the window, and the word of the first is run in the same
event; `Error` and anything else halt the Core, with the window as it was. -/
def Obligations.FetchResponseRule : Prop :=
  (∀ (s : State) (i : Nat) (c : CoreState) (a : Word) (es : List Entry) (rest : List CoreMsg) (e0 : Entry),
      s.cores[i]? = some c → c.phase = .awaitFetch a → c.down = .giveBlock es :: rest → es.length = 8 →
      (∀ (k : Nat) (e : Entry), es[k]? = some e → u64 e.1 = u64 a + k) → es[0]? = some e0 →
      ∃ win, win.valid = true ∧ win.base = a ∧
        (∀ (k : Nat) (e : Entry), es[k]? = some e → win.w[k]? = some e.2) ∧
        s.perform (.fetchResponse i) =
          { s with active := i, cores := s.cores.set i { c with win := win, phase := .ready, down := rest } }.decodeThen
            beginInstr e0.2 a) ∧
    ∀ (s : State) (i : Nat) (c : CoreState) (a : Word) (m : CoreMsg) (rest : List CoreMsg),
      s.cores[i]? = some c → c.phase = .awaitFetch a → c.down = m :: rest →
      (∀ es, m = .giveBlock es → ¬(es.length = 8 ∧ ∀ (k : Nat) (e : Entry), es[k]? = some e → u64 e.1 = u64 a + k)) →
      s.perform (.fetchResponse i) = .next { s with
        active := i
        cores := s.cores.set i { c with down := rest, phase := badAnswerPhase m } }

/-- R149, R204: a waiting Core whose channel is gone halts with `BusDisconnected`; nothing else changes. -/
def Obligations.DisconnectHalts : Prop :=
  ∀ (s : State) (i : Nat) (c : CoreState), s.cores[i]? = some c → c.phase.awaiting = true →
    (c.disconnected = true ∨ s.routerFault = true) →
    s.perform (.disconnect i) = .next { s with
      active := i, cores := s.cores.set i { c with phase := .halted .busDisconnected .nothing } }

/-- R150: on a quiet bus the step of R141 is a run of the events of R145 to R148 with the Router's and the memory's
between them. -/
def Obligations.FullStepIsEvents : Prop :=
  ∀ (s : State) (i : Nat) (c : CoreState), { s with active := i }.Quiet c → c.phase = .ready →
    ∃ es, es ∈ [[Event.begin i],
        Event.begin i :: transportEvents i ++ [Event.dataResponse i],
        Event.begin i :: transportEvents i ++ [Event.fetchResponse i],
        Event.begin i :: transportEvents i ++ Event.fetchResponse i :: transportEvents i ++ [Event.dataResponse i]] ∧
      State.performAll es s = s.perform (.fullStep i)

/-! ## The fetch window (10_state) -/

/-- R37: `lookup(a)` hits iff the window is valid and `base <= a < base + 8` as mathematical integers, with the word at
`a - base`. -/
def Obligations.LookupHitsExactly : Prop :=
  ∀ (win : Window) (a w : Word), win.lookup a = some w ↔
    win.valid = true ∧ u64 win.base ≤ u64 a ∧ ∃ h : u64 a - u64 win.base < 8, win.w[u64 a - u64 win.base] = w

/-- R38: after `refill(b, ws)` with eight words, the window is valid, its base is `b`, and its word `k` is `ws[k]`. -/
def Obligations.RefillReplacesWhole : Prop :=
  ∀ (b : Word) (ws : List Word), ws.length = 8 →
    (Window.refill b ws).valid = true ∧ (Window.refill b ws).base = b ∧ (Window.refill b ws).w.toList = ws

/-- R38, R83: no instruction's execution changes any window: stores are not seen by fetches that hit. -/
def Obligations.ExecKeepsWindows : Prop :=
  ∀ (i : Instr) (s t : State) (j : Nat) (c : CoreState), exec i s = .next t → s.cores[j]? = some c →
    ∃ c', t.cores[j]? = some c' ∧ c'.win = c.win

/-! ## Halting and the privacy of a Core (60_exceptions, 10_state) -/

/-- R208: `Halted` is absorbing: whatever event comes next, but the host's reset, a halted Core keeps its phase and its
registers, flags and window. -/
def Obligations.HaltedIsAbsorbing : Prop :=
  ∀ (s t : State) (i : Nat) (c : CoreState), step s = .next t → s.nextEvent.1 ≠ .hostReset →
    s.cores[i]? = some c → c.isHalted = true → ∃ c', t.cores[i]? = some c' ∧ c'.ownPart = c.ownPart

/-- R20, R43: a Core's registers, flags, window and phase are changed by its own events only, but for the host's
reset. -/
def Obligations.OnlyOwnEventsChangeACore : Prop :=
  ∀ (s t : State) (i : Nat) (c : CoreState), step s = .next t → s.nextEvent.1 ≠ .hostReset →
    s.nextEvent.1.isOf i = false → s.cores[i]? = some c → ∃ c', t.cores[i]? = some c' ∧ c'.ownPart = c.ownPart

/-- R42: the identity takes no part in a Core's own events: a Package in which Core `i` wears another identity does the
same, but for that identity. -/
def Obligations.IdentityIsUnseen : Prop :=
  ∀ (s : State) (i k : Nat) (e : Event), e = .begin i ∨ e = .fetchResponse i ∨ e = .dataResponse i ∨ e = .disconnect i →
    (s.renameCore i k).perform e = match s.perform e with
      | .next t => .next (t.renameCore i k)
      | .fault f => .fault f
      | .refused r => .refused r

/-- The model's reading of R208 (log entry 9): an event of a halted Core, whichever of the five it is, is the fault that
is kept if every Core is halted, and changes nothing if not. -/
def Obligations.AllHaltedIsTheFault : Prop :=
  ∀ (s : State) (i : Nat) (c : CoreState) (e : Event), s.cores[i]? = some c → c.isHalted = true → e.isOf i = true →
    s.perform e = if s.cores.all CoreState.isHalted then .fault .packageHalted else .next s

/-! ## The Router and the memory (60_exceptions, 20_memory) -/

/-- R222: *Up(i)* moves the oldest message of `up[i]`, unchanged and tagged, to the end of `mem_up`. -/
def Obligations.RouterUpTags : Prop :=
  ∀ (s : State) (i : Nat) (c : CoreState) (m : CoreMsg) (rest : List CoreMsg), s.IdsOk → s.routerFault = false →
    s.cores[i]? = some c → c.up = m :: rest →
    s.perform (.routerUp i) =
      .next { s with cores := s.cores.set i { c with up := rest }, memUp := s.memUp ++ [(i, m)] }

/-- R223, R227: *Down* delivers a response to the Core whose tag it carries, stripped of the tag, and to no other; a
tag of no Core sets `router_fault`. -/
def Obligations.RouterDownRoutes : Prop :=
  (∀ (s : State) (t : Nat) (m : CoreMsg) (rest : List TaggedMsg) (c : CoreState), s.routerFault = false →
      s.memDown = (t, m) :: rest → s.cores[t]? = some c →
      ∃ cores', s.perform .routerDown = .next { s with memDown := rest, cores := cores' } ∧
        cores'[t]? = some { c with down := c.down ++ [m] } ∧ ∀ j, j ≠ t → cores'[j]? = s.cores[j]?) ∧
    ∀ (s : State) (t : Nat) (m : CoreMsg) (rest : List TaggedMsg), s.routerFault = false →
      s.memDown = (t, m) :: rest → s.cores.length ≤ t →
      s.perform .routerDown = .next { s with memDown := rest, routerFault := true }

/-- R225: losing the memory's channel sets `router_fault`; while it is set no Router event changes anything, and a
waiting Core halts with `BusDisconnected`. -/
def Obligations.RouterFaultStops : Prop :=
  (∀ s : State, s.perform .memLinkLost = .next { s with memDisconnected := true, routerFault := true }) ∧
    ∀ (s : State) (i : Nat), s.routerFault = true →
      s.perform (.routerUp i) = .next s ∧ s.perform .routerDown = .next s ∧
        ∀ c : CoreState, s.cores[i]? = some c → c.phase.awaiting = true →
          s.perform (.disconnect i) = .next { s with
            active := i, cores := s.cores.set i { c with phase := .halted .busDisconnected .nothing } }

/-- R225: `router_fault` stays set, but for the host's reset, whatever comes next. -/
def Obligations.RouterFaultIsSticky : Prop :=
  ∀ s t : State, step s = .next t → s.nextEvent.1 ≠ .hostReset → s.routerFault = true → t.routerFault = true

/-- R71: a read of `n >= 1` words wholly inside the memory is answered with the tag of its request by the `n` entries
from `a` on, read at one instant; the contents are unchanged. -/
def Obligations.MemoryServesRead : Prop :=
  ∀ (s : State) (t : Nat) (a : Word) (n : Count) (rest : List TaggedMsg), s.memDisconnected = false →
    s.memUp = (t, .requestBlock a n) :: rest → 1 ≤ n.toNat → u64 a + n.toNat ≤ 2 ^ 52 →
    ∃ es, s.perform .memServe = .next { s with
        memUp := rest, memDown := s.memDown ++ [(t, .giveBlock es)], tick := s.tick + 1 } ∧
      es.length = n.toNat ∧
      ∀ k, k < n.toNat → ∃ x, es[k]? = some (x, s.mem.read (u64 a + k)) ∧ u64 x = u64 a + k

/-- R72: a read of no word or past the end, and a write of nothing or with an address outside, are answered `Error` and
change no word. -/
def Obligations.MemoryRefuses : Prop :=
  ∀ (s : State) (t : Nat) (m : CoreMsg) (rest : List TaggedMsg), s.memDisconnected = false → s.memUp = (t, m) :: rest →
    (match m with
      | .requestBlock a n => n.toNat = 0 ∨ 2 ^ 52 < u64 a + n.toNat
      | .giveBlock es => es = [] ∨ ∃ e ∈ es, 2 ^ 52 ≤ u64 e.1
      | .error _ => False) →
    ∃ info, s.perform .memServe = .next { s with
      memUp := rest, memDown := s.memDown ++ [(t, .error info)], tick := s.tick + 1 }

/-- R73: a write wholly inside the memory is echoed; each address then holds the word of its last entry, every other
address what it held. An upward `Error` is answered by an `Error` (its info is a free value, log entry 6). -/
def Obligations.MemoryServesWrite : Prop :=
  (∀ (s : State) (t : Nat) (es : List Entry) (rest : List TaggedMsg), s.memDisconnected = false → s.MemOk →
    s.memUp = (t, .giveBlock es) :: rest → es ≠ [] → (∀ e ∈ es, u64 e.1 < 2 ^ 52) →
    ∃ mem, s.perform .memServe = .next { s with
        mem := mem, memUp := rest, memDown := s.memDown ++ [(t, .giveBlock es)], tick := s.tick + 1 } ∧
      (∀ a, (∀ e ∈ es, u64 e.1 ≠ a) → mem.read a = s.mem.read a) ∧
      ∀ (pre post : List Entry) (x v : Word), es = pre ++ (x, v) :: post → (∀ e ∈ post, e.1 ≠ x) →
        mem.read (u64 x) = v) ∧
    ∀ (s : State) (t : Nat) (x : ErrInfo) (rest : List TaggedMsg), s.memDisconnected = false →
      s.memUp = (t, .error x) :: rest →
      ∃ info, s.perform .memServe = .next { s with
        memUp := rest, memDown := s.memDown ++ [(t, .error info)], tick := s.tick + 1 }

/-! ## Reset (10_state, 70_reset_and_hazards) and invariants -/

/-- R45: a Package of any number of Cores after reset (values the spec itself chose, D18, but for IP). -/
def Obligations.ResetStateOfEachCore : Prop :=
  ∀ (n : Nat) (mem : Memory) (i : Nat), i < n →
    ∃ c, (State.resetOf n mem).cores[i]? = some c ∧ (∀ r, c.reg r = 0) ∧
      c.flags = { z := false, s := false, o := false, c := false } ∧ c.win.valid = false ∧ c.phase = .ready ∧
      c.up = [] ∧ c.down = [] ∧ c.id = i ∧ c.disconnected = false ∧ (State.resetOf n mem).memUp = [] ∧ (State.resetOf n mem).memDown = [] ∧
      (State.resetOf n mem).routerFault = false ∧ (State.resetOf n mem).mem = mem

/-- R250, R251: the host's reset puts every Core and every queue in that state (the values are the spec's decision D18)
and does not touch the memory. That it clears the `disconnected` input too is the model's choice (log entry 11), and so
are the zeros in the invalid window (log entry 10). -/
def Obligations.HostResetResetsPackage : Prop :=
  ∀ s : State, ∃ t, s.perform .hostReset = .next t ∧ t.mem = s.mem ∧ t.cores.length = s.cores.length ∧
    t.memUp = [] ∧ t.memDown = [] ∧ t.routerFault = false ∧
    ∀ i, i < s.cores.length → t.cores[i]? = some (CoreState.reset i)

/-- The invariants hold right after reset, for any number of Cores and any contents in canonical form: what they rest
on are the reset values of R45 (the spec's decision D18) and the model's choice that no channel is gone (log entry 11). -/
def Obligations.ResetMeetsInvariants : Prop :=
  ∀ (n : Nat) (mem : Memory), mem.wf = true →
    (State.resetOf n mem).FlagsOk ∧ (State.resetOf n mem).IdsOk ∧ (State.resetOf n mem).MemOk ∧
      (State.resetOf n mem).LinkOk ∧ (State.resetOf n mem).BusOk ∧ (State.resetOf n mem).TagsOk

/-- R30: in every Core, ZERO and SIGN are never both set and OVERFLOW equals CARRY; every step keeps that. -/
def Obligations.FlagsInvariantKept : Prop := ∀ s t : State, s.FlagsOk → step s = .next t → t.FlagsOk

/-- The memory's canonical form, every listed address inside `[0, 2^52)` (R60), is kept by every step, a memory that
breaks its contract included. -/
def Obligations.MemoryCanonicalKept : Prop := ∀ s t : State, s.MemOk → step s = .next t → t.MemOk

/-- Identities stay the Cores' indexes (R42) and `mem_disconnected` goes with `router_fault` (R225): kept by every
step. Through the host's reset, which clears `router_fault` (R45), the second is kept only because that reset clears
`mem_disconnected` too, which is the model's choice (log entry 11): the spec is silent there. -/
def Obligations.IdsAndLinksKept : Prop :=
  ∀ s t : State, s.IdsOk → s.LinkOk → step s = .next t → t.IdsOk ∧ t.LinkOk

/-- R41 with the memory's contract as premise: each Core has one request outstanding exactly while it waits and none
when it is `Ready`, and no Core is ever halted by `MalformedResponse` or `StackUnderflow` (R183): every step whose event
is not a breach of the contract keeps that. -/
def Obligations.OneOutstandingRequestKept : Prop :=
  ∀ s t : State, s.IdsOk → s.BusOk → s.nextEvent.1.wellBehaved = true → step s = .next t → t.BusOk

/-! ## Inputs, outputs, tags and fairness -/

/-- R204: *linkLost* sets a Core's `disconnected` input and nothing else; once 1 it stays 1 through every step, but for
the host's reset (that the reset clears it is log entry 11). -/
def Obligations.DisconnectedSticks : Prop :=
  (∀ (s : State) (i : Nat) (c : CoreState), s.cores[i]? = some c →
      s.perform (.linkLost i) = .next { s with cores := s.cores.set i { c with disconnected := true } }) ∧
    ∀ (s t : State) (i : Nat) (c : CoreState), step s = .next t → s.nextEvent.1 ≠ .hostReset →
      s.cores[i]? = some c → c.disconnected = true → ∃ c', t.cores[i]? = some c' ∧ c'.disconnected = true

/-- R153, R201, R207: the outputs to the host. A halted Core shows its cause's code and its info; a Core that is not
halted shows code 0 and no info. -/
def Obligations.HaltOutputs : Prop :=
  (∀ (c : CoreState) (k : Cause) (x : HaltInfo), c.phase = .halted k x →
      c.isHalted = true ∧ c.infoOut = some x ∧
        c.causeOut = match k with
          | .unknownOpcode => 1
          | .unknownRegister => 2
          | .busDisconnected => 3
          | .malformedResponse => 4
          | .stackUnderflow => 5
          | .memoryError => 6) ∧
    ∀ c : CoreState, (∀ k x, c.phase ≠ .halted k x) → c.isHalted = false ∧ c.causeOut = 0 ∧ c.infoOut = none

/-- R69, R225: every tag at the Router's memory side fits `TAG_BITS` bits, through every step, a memory that breaks its
contract included. Where the number of Cores is a power of two, 2 or more, such tags all name a Core, so *Down* never sets
`router_fault`. Both clauses rest on the model's choice of log entry 16: the first because a broken memory's tags are cut to
the port's width, the second because `TAG_BITS` is R7's formula and not the wider field that vector 2.11 supposes. -/
def Obligations.TagsFitKept : Prop :=
  (∀ s t : State, s.IdsOk → s.TagsOk → step s = .next t → t.TagsOk) ∧
    ∀ (s : State) (k : Nat), s.TagsOk → 1 ≤ k → s.cores.length = 2 ^ k →
      ∃ t, s.perform .routerDown = .next t ∧ t.routerFault = s.routerFault

/-- R79, R226: in a run of single events that is weakly fair to the Router's steps, with no router fault, no request and
no answer is starved: the oldest request of a Core is forwarded, tagged, and the oldest response at the Router is
delivered to the Core its tag names. -/
def Obligations.NoRequestIsStarved : Prop :=
  ∀ (σ : Nat → Event) (r : Nat → State), Run σ r → RouterFair σ r → (∀ n, (σ n).single = true) →
    (∀ n, (r n).routerFault = false) →
    (∀ (n i : Nat) (c : CoreState) (m : CoreMsg) (rest : List CoreMsg), (r n).cores[i]? = some c → c.up = m :: rest →
      ∃ k c' rest', n ≤ k ∧ (r k).cores[i]? = some c' ∧ c'.up = m :: rest' ∧
        r (k + 1) = { r k with
          cores := (r k).cores.set i { c' with up := rest' }, memUp := (r k).memUp ++ [(c'.id, m)] }) ∧
    ∀ (n t : Nat) (m : CoreMsg) (rest : List TaggedMsg), (r n).memDown = (t, m) :: rest →
      ∃ k c' rest', n ≤ k ∧ (r k).memDown = (t, m) :: rest' ∧ (r k).cores[t]? = some c' ∧
        r (k + 1) = { r k with
          cores := (r k).cores.set t { c' with down := c'.down ++ [m] }, memDown := rest' }
end

