-- ==== Sys2Proof/Laws/State.lean ====
section
/-! SUPPORT. One lemma per field per update of the state and of a Core, so that no proof unfolds a record update. -/

namespace Sys2Proof.Machine

/-! ### Registers -/

@[simp] theorem Regs.read_write (x : Regs) (r q : Reg) (v : Word) :
    (x.write r v).read q = if q = r then v else x.read q := by
  cases r <;> cases q <;> rfl

/-- Register files that read the same are the same. -/
theorem Regs.ext_read {x y : Regs} (h : ∀ q, x.read q = y.read q) : x = y := by
  have ha := h .a
  have hb := h .b
  have hc := h .c
  have hd := h .d
  have hsp := h .sp
  have hbp := h .bp
  have hip := h .ip
  cases x
  cases y
  simp_all [Regs.read]

/-! ### One Core -/

@[simp] theorem CoreState.setReg_regs (c : CoreState) (r : Reg) (v : Word) : (c.setReg r v).regs = c.regs.write r v := rfl
@[simp] theorem CoreState.setReg_flags (c : CoreState) (r : Reg) (v : Word) : (c.setReg r v).flags = c.flags := rfl
@[simp] theorem CoreState.setReg_win (c : CoreState) (r : Reg) (v : Word) : (c.setReg r v).win = c.win := rfl
@[simp] theorem CoreState.setReg_phase (c : CoreState) (r : Reg) (v : Word) : (c.setReg r v).phase = c.phase := rfl
@[simp] theorem CoreState.setReg_up (c : CoreState) (r : Reg) (v : Word) : (c.setReg r v).up = c.up := rfl
@[simp] theorem CoreState.setReg_down (c : CoreState) (r : Reg) (v : Word) : (c.setReg r v).down = c.down := rfl
@[simp] theorem CoreState.setReg_id (c : CoreState) (r : Reg) (v : Word) : (c.setReg r v).id = c.id := rfl
@[simp] theorem CoreState.setReg_disconnected (c : CoreState) (r : Reg) (v : Word) : (c.setReg r v).disconnected = c.disconnected := rfl

@[simp] theorem CoreState.setFlags_regs (c : CoreState) (f : Flags) : (c.setFlags f).regs = c.regs := rfl
@[simp] theorem CoreState.setFlags_flags (c : CoreState) (f : Flags) : (c.setFlags f).flags = f := rfl
@[simp] theorem CoreState.setFlags_win (c : CoreState) (f : Flags) : (c.setFlags f).win = c.win := rfl
@[simp] theorem CoreState.setFlags_phase (c : CoreState) (f : Flags) : (c.setFlags f).phase = c.phase := rfl
@[simp] theorem CoreState.setFlags_up (c : CoreState) (f : Flags) : (c.setFlags f).up = c.up := rfl
@[simp] theorem CoreState.setFlags_down (c : CoreState) (f : Flags) : (c.setFlags f).down = c.down := rfl
@[simp] theorem CoreState.setFlags_id (c : CoreState) (f : Flags) : (c.setFlags f).id = c.id := rfl
@[simp] theorem CoreState.setFlags_disconnected (c : CoreState) (f : Flags) : (c.setFlags f).disconnected = c.disconnected := rfl

@[simp] theorem CoreState.setPhase_regs (c : CoreState) (p : Phase) : (c.setPhase p).regs = c.regs := rfl
@[simp] theorem CoreState.setPhase_flags (c : CoreState) (p : Phase) : (c.setPhase p).flags = c.flags := rfl
@[simp] theorem CoreState.setPhase_win (c : CoreState) (p : Phase) : (c.setPhase p).win = c.win := rfl
@[simp] theorem CoreState.setPhase_phase (c : CoreState) (p : Phase) : (c.setPhase p).phase = p := rfl
@[simp] theorem CoreState.setPhase_up (c : CoreState) (p : Phase) : (c.setPhase p).up = c.up := rfl
@[simp] theorem CoreState.setPhase_down (c : CoreState) (p : Phase) : (c.setPhase p).down = c.down := rfl
@[simp] theorem CoreState.setPhase_id (c : CoreState) (p : Phase) : (c.setPhase p).id = c.id := rfl
@[simp] theorem CoreState.setPhase_disconnected (c : CoreState) (p : Phase) : (c.setPhase p).disconnected = c.disconnected := rfl

@[simp] theorem CoreState.setDown_regs (c : CoreState) (d : List CoreMsg) : (c.setDown d).regs = c.regs := rfl
@[simp] theorem CoreState.setDown_flags (c : CoreState) (d : List CoreMsg) : (c.setDown d).flags = c.flags := rfl
@[simp] theorem CoreState.setDown_win (c : CoreState) (d : List CoreMsg) : (c.setDown d).win = c.win := rfl
@[simp] theorem CoreState.setDown_phase (c : CoreState) (d : List CoreMsg) : (c.setDown d).phase = c.phase := rfl
@[simp] theorem CoreState.setDown_up (c : CoreState) (d : List CoreMsg) : (c.setDown d).up = c.up := rfl
@[simp] theorem CoreState.setDown_down (c : CoreState) (d : List CoreMsg) : (c.setDown d).down = d := rfl
@[simp] theorem CoreState.setDown_id (c : CoreState) (d : List CoreMsg) : (c.setDown d).id = c.id := rfl
@[simp] theorem CoreState.setDown_disconnected (c : CoreState) (d : List CoreMsg) : (c.setDown d).disconnected = c.disconnected := rfl

@[simp] theorem CoreState.halt_regs (c : CoreState) (k : Cause) (x : HaltInfo) : (c.halt k x).regs = c.regs := rfl
@[simp] theorem CoreState.halt_flags (c : CoreState) (k : Cause) (x : HaltInfo) : (c.halt k x).flags = c.flags := rfl
@[simp] theorem CoreState.halt_win (c : CoreState) (k : Cause) (x : HaltInfo) : (c.halt k x).win = c.win := rfl
@[simp] theorem CoreState.halt_phase (c : CoreState) (k : Cause) (x : HaltInfo) : (c.halt k x).phase = .halted k x := rfl
@[simp] theorem CoreState.halt_up (c : CoreState) (k : Cause) (x : HaltInfo) : (c.halt k x).up = c.up := rfl
@[simp] theorem CoreState.halt_down (c : CoreState) (k : Cause) (x : HaltInfo) : (c.halt k x).down = c.down := rfl
@[simp] theorem CoreState.halt_id (c : CoreState) (k : Cause) (x : HaltInfo) : (c.halt k x).id = c.id := rfl
@[simp] theorem CoreState.halt_disconnected (c : CoreState) (k : Cause) (x : HaltInfo) : (c.halt k x).disconnected = c.disconnected := rfl

@[simp] theorem CoreState.advance_regs (c : CoreState) : c.advance.regs = c.regs.write .ip (c.regs.read .ip + 1) := rfl
@[simp] theorem CoreState.advance_flags (c : CoreState) : c.advance.flags = c.flags := rfl
@[simp] theorem CoreState.advance_win (c : CoreState) : c.advance.win = c.win := rfl
@[simp] theorem CoreState.advance_phase (c : CoreState) : c.advance.phase = c.phase := rfl
@[simp] theorem CoreState.advance_up (c : CoreState) : c.advance.up = c.up := rfl
@[simp] theorem CoreState.advance_down (c : CoreState) : c.advance.down = c.down := rfl
@[simp] theorem CoreState.advance_id (c : CoreState) : c.advance.id = c.id := rfl
@[simp] theorem CoreState.advance_disconnected (c : CoreState) : c.advance.disconnected = c.disconnected := rfl

@[simp] theorem CoreState.finish_regs (c : CoreState) : c.finish.regs = c.regs.write .ip (c.regs.read .ip + 1) := rfl
@[simp] theorem CoreState.finish_flags (c : CoreState) : c.finish.flags = c.flags := rfl
@[simp] theorem CoreState.finish_win (c : CoreState) : c.finish.win = c.win := rfl
@[simp] theorem CoreState.finish_phase (c : CoreState) : c.finish.phase = .ready := rfl
@[simp] theorem CoreState.finish_up (c : CoreState) : c.finish.up = c.up := rfl
@[simp] theorem CoreState.finish_down (c : CoreState) : c.finish.down = c.down := rfl
@[simp] theorem CoreState.finish_id (c : CoreState) : c.finish.id = c.id := rfl
@[simp] theorem CoreState.finish_disconnected (c : CoreState) : c.finish.disconnected = c.disconnected := rfl

@[simp] theorem CoreState.pushed_regs (c : CoreState) : c.pushed.regs = c.regs.write .sp (c.regs.read .sp - 1) := rfl
@[simp] theorem CoreState.pushed_flags (c : CoreState) : c.pushed.flags = c.flags := rfl
@[simp] theorem CoreState.pushed_win (c : CoreState) : c.pushed.win = c.win := rfl
@[simp] theorem CoreState.pushed_phase (c : CoreState) : c.pushed.phase = c.phase := rfl
@[simp] theorem CoreState.pushed_up (c : CoreState) : c.pushed.up = c.up := rfl
@[simp] theorem CoreState.pushed_down (c : CoreState) : c.pushed.down = c.down := rfl
@[simp] theorem CoreState.pushed_id (c : CoreState) : c.pushed.id = c.id := rfl
@[simp] theorem CoreState.pushed_disconnected (c : CoreState) : c.pushed.disconnected = c.disconnected := rfl

@[simp] theorem CoreState.reg_setReg (c : CoreState) (r q : Reg) (v : Word) :
    (c.setReg r v).reg q = if q = r then v else c.reg q := Regs.read_write c.regs r q v
@[simp] theorem CoreState.reg_setFlags (c : CoreState) (f : Flags) (q : Reg) : (c.setFlags f).reg q = c.reg q := rfl
@[simp] theorem CoreState.reg_setPhase (c : CoreState) (p : Phase) (q : Reg) : (c.setPhase p).reg q = c.reg q := rfl
@[simp] theorem CoreState.reg_setDown (c : CoreState) (d : List CoreMsg) (q : Reg) : (c.setDown d).reg q = c.reg q := rfl
@[simp] theorem CoreState.reg_halt (c : CoreState) (k : Cause) (x : HaltInfo) (q : Reg) :
    (c.halt k x).reg q = c.reg q := rfl
@[simp] theorem CoreState.reg_finish (c : CoreState) (q : Reg) :
    c.finish.reg q = if q = .ip then c.reg .ip + 1 else c.reg q := Regs.read_write c.regs .ip q _
@[simp] theorem CoreState.reg_pushed (c : CoreState) (q : Reg) :
    c.pushed.reg q = if q = .sp then pushAddr c else c.reg q := Regs.read_write c.regs .sp q _

/-- A Core is its eight fields. -/
theorem CoreState.ext_fields {c d : CoreState} (h1 : c.regs = d.regs) (h2 : c.flags = d.flags) (h3 : c.win = d.win)
    (h4 : c.phase = d.phase) (h5 : c.up = d.up) (h6 : c.down = d.down) (h7 : c.id = d.id)
    (h8 : c.disconnected = d.disconnected) : c = d := by
  cases c
  cases d
  simp_all

/-- An instruction that writes registers and flags and then finishes completes (R141 step 5). -/
theorem CoreState.finish_completes (c : CoreState) (x : Regs) (f : Flags) :
    c.CompletesTo ({ c with regs := x, flags := f } : CoreState).finish x.read f where
  regs q hq := by simp [CoreState.reg, hq]
  ip := by simp [CoreState.reg]
  flags := rfl
  win := rfl
  phase := rfl
  up := rfl
  down := rfl
  id := rfl
  disconnected := rfl

/-! ### The Package -/

@[simp] theorem State.setCore_cores (s : State) (i : Nat) (c : CoreState) : (s.setCore i c).cores = s.cores.set i c := rfl
@[simp] theorem State.setCore_memUp (s : State) (i : Nat) (c : CoreState) : (s.setCore i c).memUp = s.memUp := rfl
@[simp] theorem State.setCore_memDown (s : State) (i : Nat) (c : CoreState) : (s.setCore i c).memDown = s.memDown := rfl
@[simp] theorem State.setCore_routerFault (s : State) (i : Nat) (c : CoreState) : (s.setCore i c).routerFault = s.routerFault := rfl
@[simp] theorem State.setCore_memDisconnected (s : State) (i : Nat) (c : CoreState) : (s.setCore i c).memDisconnected = s.memDisconnected := rfl
@[simp] theorem State.setCore_mem (s : State) (i : Nat) (c : CoreState) : (s.setCore i c).mem = s.mem := rfl
@[simp] theorem State.setCore_runInput (s : State) (i : Nat) (c : CoreState) : (s.setCore i c).runInput = s.runInput := rfl
@[simp] theorem State.setCore_active (s : State) (i : Nat) (c : CoreState) : (s.setCore i c).active = s.active := rfl
@[simp] theorem State.setCore_sched (s : State) (i : Nat) (c : CoreState) : (s.setCore i c).sched = s.sched := rfl
@[simp] theorem State.setCore_tick (s : State) (i : Nat) (c : CoreState) : (s.setCore i c).tick = s.tick := rfl

@[simp] theorem State.withActive_cores (s : State) (i : Nat) : (s.withActive i).cores = s.cores := rfl
@[simp] theorem State.withActive_memUp (s : State) (i : Nat) : (s.withActive i).memUp = s.memUp := rfl
@[simp] theorem State.withActive_memDown (s : State) (i : Nat) : (s.withActive i).memDown = s.memDown := rfl
@[simp] theorem State.withActive_routerFault (s : State) (i : Nat) : (s.withActive i).routerFault = s.routerFault := rfl
@[simp] theorem State.withActive_memDisconnected (s : State) (i : Nat) : (s.withActive i).memDisconnected = s.memDisconnected := rfl
@[simp] theorem State.withActive_mem (s : State) (i : Nat) : (s.withActive i).mem = s.mem := rfl
@[simp] theorem State.withActive_runInput (s : State) (i : Nat) : (s.withActive i).runInput = s.runInput := rfl
@[simp] theorem State.withActive_active (s : State) (i : Nat) : (s.withActive i).active = i := rfl
@[simp] theorem State.withActive_sched (s : State) (i : Nat) : (s.withActive i).sched = s.sched := rfl
@[simp] theorem State.withActive_tick (s : State) (i : Nat) : (s.withActive i).tick = s.tick := rfl

@[simp] theorem State.send_memUp (s : State) (c : CoreState) (m : CoreMsg) (p : Phase) :
    (s.send c m p).memUp = s.memUp := rfl
@[simp] theorem State.send_memDown (s : State) (c : CoreState) (m : CoreMsg) (p : Phase) :
    (s.send c m p).memDown = s.memDown := rfl
@[simp] theorem State.send_routerFault (s : State) (c : CoreState) (m : CoreMsg) (p : Phase) :
    (s.send c m p).routerFault = s.routerFault := rfl
@[simp] theorem State.send_memDisconnected (s : State) (c : CoreState) (m : CoreMsg) (p : Phase) :
    (s.send c m p).memDisconnected = s.memDisconnected := rfl
@[simp] theorem State.send_mem (s : State) (c : CoreState) (m : CoreMsg) (p : Phase) :
    (s.send c m p).mem = s.mem := rfl
@[simp] theorem State.send_runInput (s : State) (c : CoreState) (m : CoreMsg) (p : Phase) :
    (s.send c m p).runInput = s.runInput := rfl
@[simp] theorem State.send_active (s : State) (c : CoreState) (m : CoreMsg) (p : Phase) :
    (s.send c m p).active = s.active := rfl
@[simp] theorem State.send_sched (s : State) (c : CoreState) (m : CoreMsg) (p : Phase) :
    (s.send c m p).sched = s.sched := rfl
@[simp] theorem State.send_tick (s : State) (c : CoreState) (m : CoreMsg) (p : Phase) :
    (s.send c m p).tick = s.tick := rfl

/-- Reading Core `i` after it is replaced. -/
theorem State.setCore_get_self {s : State} {i : Nat} {c d : CoreState} (h : s.cores[i]? = some c) :
    (s.setCore i d).cores[i]? = some d := by
  have hi : i < s.cores.length := (List.getElem?_eq_some_iff.mp h).1
  simp [hi]

/-- Reading another Core after Core `i` is replaced. -/
theorem State.setCore_get_other {s : State} {i j : Nat} {d : CoreState} (h : i ≠ j) :
    (s.setCore i d).cores[j]? = s.cores[j]? := by
  simp [h]

/-- Replacing twice is replacing once. -/
@[simp] theorem State.setCore_setCore (s : State) (i : Nat) (c d : CoreState) :
    (s.setCore i c).setCore i d = s.setCore i d := by
  simp [State.setCore]

/-- Replacing a Core by itself changes nothing. -/
theorem State.setCore_same {s : State} {i : Nat} {c : CoreState} (h : s.cores[i]? = some c) : s.setCore i c = s := by
  obtain ⟨hi, rfl⟩ := List.getElem?_eq_some_iff.mp h
  simp [State.setCore]

/-- The Cores of a Package after reset (R45). -/
theorem State.resetOf_get {n i : Nat} {mem : Memory} {c : CoreState} :
    (State.resetOf n mem).cores[i]? = some c ↔ i < n ∧ c = CoreState.reset i := by
  by_cases h : i < n
  · simp [State.resetOf, h, eq_comm]
  · simp [State.resetOf, h]

/-- What an instruction answers on a Core that is `Ready` (R145). -/
theorem State.onReady_next {s : State} {c : CoreState} (f : CoreState → State) (h : s.cores[s.active]? = some c)
    (hp : c.phase = .ready) : s.onReady f = .next (f c) := by
  simp [State.onReady, h, hp]

/-- Everything an instruction can answer a next state from. -/
theorem State.onReady_cases {s t : State} {f : CoreState → State} (h : s.onReady f = .next t) :
    ∃ c, s.cores[s.active]? = some c ∧ c.phase = .ready ∧ t = f c := by
  simp only [State.onReady] at h
  split at h
  · rename_i c hc
    split at h
    · rename_i hp
      exact ⟨c, hc, hp, by simpa using h.symm⟩
    · cases h
  · cases h

end Sys2Proof.Machine
end

