-- ==== Sys2Proof/Laws/Memory.lean ====
section
/-! SUPPORT. The memory's laws: read after write, the canonical form is kept, canonical contents that read the same are
the same, and what serving a message answers. -/

namespace Sys2Proof.Machine

/-- Below the first cell every address reads as unlisted. -/
theorem Memory.read_below {lo : Nat} {m : Memory} (h : m.wfFrom lo = true) {a : Nat} (ha : a < lo) :
    m.read a = Memory.unlisted := by
  induction m generalizing lo with
  | nil => rfl
  | cons e rest ih =>
    obtain ⟨k, x⟩ := e
    simp only [Memory.wfFrom, Bool.and_eq_true, decide_eq_true_eq] at h
    have hk : k ≠ a := by omega
    simp only [Memory.read, hk, if_false]
    exact ih h.2 (by omega)

/-- Weakening the lower bound of a canonical list. -/
theorem Memory.wfFrom_mono {lo lo' : Nat} {m : Memory} (h : m.wfFrom lo = true) (hl : lo' ≤ lo) :
    m.wfFrom lo' = true := by
  cases m with
  | nil => rfl
  | cons e rest =>
    obtain ⟨k, x⟩ := e
    simp only [Memory.wfFrom, Bool.and_eq_true, decide_eq_true_eq] at h ⊢
    exact ⟨⟨⟨by omega, h.1.1.2⟩, h.1.2⟩, h.2⟩

/-- Read after write to the same and to another address, on canonical contents. -/
theorem Memory.read_write_from {lo : Nat} {m : Memory} (h : m.wfFrom lo = true) (a b : Nat) (v : Word) :
    (m.write a v).read b = if b = a then v else m.read b := by
  induction m generalizing lo with
  | nil =>
    by_cases hv : v = Memory.unlisted
    · simp [Memory.write, hv, Memory.read]
    · by_cases hb : b = a
      · simp [Memory.write, hv, Memory.read, hb]
      · simp [Memory.write, hv, Memory.read, hb, Ne.symm hb]
  | cons e rest ih =>
    obtain ⟨k, x⟩ := e
    simp only [Memory.wfFrom, Bool.and_eq_true, decide_eq_true_eq] at h
    have hrest := ih h.2
    by_cases hak : a < k
    · by_cases hv : v = Memory.unlisted
      · by_cases hb : b = a
        · have : k ≠ b := by omega
          simp [Memory.write, hak, hv, Memory.read, hb]
          have hka : k ≠ a := by omega
          simp [hka, Memory.read_below h.2 (show a < k + 1 by omega)]
        · simp [Memory.write, hak, hv, hb]
      · by_cases hb : b = a
        · simp [Memory.write, hak, hv, Memory.read, hb]
        · simp [Memory.write, hak, hv, Memory.read, hb, Ne.symm hb]
    · by_cases hk : a = k
      · subst hk
        by_cases hv : v = Memory.unlisted
        · by_cases hb : b = a
          · simp [Memory.write, hv, hb, Memory.read_below h.2 (Nat.lt_succ_self a)]
          · simp [Memory.write, hv, hb, Memory.read, Ne.symm hb]
        · by_cases hb : b = a
          · simp [Memory.write, hv, hb, Memory.read]
          · simp [Memory.write, hv, hb, Memory.read, Ne.symm hb]
      · by_cases hb : k = b
        · subst hb
          simp [Memory.write, hak, hk, Memory.read, Ne.symm hk]
        · simp [Memory.write, hak, hk, Memory.read, hb, hrest]

/-- Writing inside the address space keeps the canonical form. -/
theorem Memory.wfFrom_write {lo : Nat} {m : Memory} (h : m.wfFrom lo = true) {a : Nat} (ha : a < Config.memWords)
    (v : Word) (hlo : lo ≤ a) : (m.write a v).wfFrom lo = true := by
  induction m generalizing lo with
  | nil =>
    by_cases hv : v = Memory.unlisted
    · simp [Memory.write, hv, Memory.wfFrom]
    · simp [Memory.write, hv, Memory.wfFrom, hlo, ha]
  | cons e rest ih =>
    obtain ⟨k, x⟩ := e
    simp only [Memory.wfFrom, Bool.and_eq_true, decide_eq_true_eq] at h
    by_cases hak : a < k
    · by_cases hv : v = Memory.unlisted
      · simp only [Memory.write, hak, hv, if_true, Memory.wfFrom, Bool.and_eq_true, decide_eq_true_eq]
        exact h
      · simp only [Memory.write, hak, hv, if_true, if_false, Memory.wfFrom, Bool.and_eq_true, decide_eq_true_eq]
        exact ⟨⟨⟨hlo, ha⟩, by simpa using hv⟩, ⟨⟨by omega, h.1.1.2⟩, h.1.2⟩, h.2⟩
    · by_cases hk : a = k
      · subst hk
        by_cases hv : v = Memory.unlisted
        · simp only [Memory.write, hv, lt_irrefl, if_true, if_false]
          exact Memory.wfFrom_mono h.2 (by omega)
        · simp only [Memory.write, hv, lt_irrefl, if_true, if_false, Memory.wfFrom, Bool.and_eq_true,
            decide_eq_true_eq]
          exact ⟨⟨⟨hlo, ha⟩, by simpa using hv⟩, h.2⟩
      · simp only [Memory.write, hak, hk, if_false, Memory.wfFrom, Bool.and_eq_true, decide_eq_true_eq]
        exact ⟨h.1, ih h.2 (by omega)⟩

/-- Read after write, to the same and to another address. -/
theorem Memory.read_write {m : Memory} (h : m.wf = true) (a b : Nat) (v : Word) :
    (m.write a v).read b = if b = a then v else m.read b :=
  Memory.read_write_from h a b v

/-- A write keeps the canonical form. -/
theorem Memory.wf_write {m : Memory} (h : m.wf = true) {a : Nat} (ha : a < Config.memWords) (v : Word) :
    (m.write a v).wf = true :=
  Memory.wfFrom_write h ha v (Nat.zero_le a)

/-- Writing entries inside the address space keeps the canonical form. -/
theorem Memory.wf_writeAll {m : Memory} (h : m.wf = true) {es : List Entry} (he : entriesInRange es = true) :
    (m.writeAll es).wf = true := by
  induction es generalizing m with
  | nil => exact h
  | cons e es ih =>
    simp only [entriesInRange, List.all_cons, Bool.and_eq_true, decide_eq_true_eq] at he
    exact ih (Memory.wf_write h he.1 e.2) he.2

/-- Serving any message keeps the canonical form. -/
theorem Memory.wf_serve {m : Memory} (h : m.wf = true) (info : ErrInfo) (msg : CoreMsg) :
    (m.serve info msg).1.wf = true := by
  cases msg with
  | requestBlock a n =>
    simp only [Memory.serve]
    split <;> exact h
  | giveBlock es =>
    simp only [Memory.serve]
    split
    · rename_i hc
      exact Memory.wf_writeAll h (by simp only [Bool.and_eq_true] at hc; exact hc.2)
    · exact h
  | error _ => exact h

/-- Canonical contents that read the same everywhere are the same list. -/
theorem Memory.ext_read_from {lo : Nat} {m n : Memory} (hm : m.wfFrom lo = true) (hn : n.wfFrom lo = true)
    (h : ∀ a, m.read a = n.read a) : m = n := by
  induction m generalizing lo n with
  | nil =>
    cases n with
    | nil => rfl
    | cons e rest =>
      obtain ⟨k, x⟩ := e
      simp only [Memory.wfFrom, Bool.and_eq_true, decide_eq_true_eq, Bool.not_eq_true'] at hn
      have hk := h k
      simp [Memory.read] at hk
      simp [hk] at hn
  | cons e rest ih =>
    obtain ⟨k, x⟩ := e
    simp only [Memory.wfFrom, Bool.and_eq_true, decide_eq_true_eq, Bool.not_eq_true', beq_eq_false_iff_ne] at hm
    cases n with
    | nil =>
      have hk := h k
      simp [Memory.read] at hk
      exact absurd hk hm.1.2
    | cons f rest' =>
      obtain ⟨l, y⟩ := f
      simp only [Memory.wfFrom, Bool.and_eq_true, decide_eq_true_eq, Bool.not_eq_true', beq_eq_false_iff_ne] at hn
      have hkl : k = l := by
        rcases Nat.lt_trichotomy k l with hlt | heq | hgt
        · have hk := h k
          have hne : l ≠ k := by omega
          simp [Memory.read, hne, Memory.read_below hn.2 (show k < l + 1 by omega)] at hk
          exact absurd hk hm.1.2
        · exact heq
        · have hk := h l
          have hne : k ≠ l := by omega
          simp [Memory.read, hne, Memory.read_below hm.2 (show l < k + 1 by omega)] at hk
          exact absurd hk.symm hn.1.2
      subst hkl
      have hxy : x = y := by simpa [Memory.read] using h k
      subst hxy
      have hr : rest = rest' := by
        refine ih hm.2 hn.2 fun a => ?_
        by_cases ha : k = a
        · subst ha
          rw [Memory.read_below hm.2 (Nat.lt_succ_self k), Memory.read_below hn.2 (Nat.lt_succ_self k)]
        · simpa [Memory.read, ha] using h a
      rw [hr]

/-- Equal memories are equal data. -/
theorem Memory.ext_read {m n : Memory} (hm : m.wf = true) (hn : n.wf = true) (h : ∀ a, m.read a = n.read a) : m = n :=
  Memory.ext_read_from hm hn h

/-- A block has the length asked for (R71). -/
@[simp] theorem Memory.block_length (m : Memory) (a n : Nat) : (m.block a n).length = n := by
  induction n generalizing a with
  | zero => rfl
  | succ n ih => simp [Memory.block, ih]

/-- A block's entry `k` is the address `a + k` and its word (R71). -/
theorem Memory.block_get (m : Memory) (a n k : Nat) (hk : k < n) :
    (m.block a n)[k]? = some (zext64 (a + k), m.read (a + k)) := by
  induction n generalizing a k with
  | zero => omega
  | succ n ih =>
    cases k with
    | zero => simp [Memory.block]
    | succ k =>
      have := ih (a + 1) k (by omega)
      simp only [Memory.block, List.getElem?_cons_succ, this]
      rw [show a + 1 + k = a + (k + 1) by omega]

/-- The entries of a block inside the bus's address range are contiguous: the answer of R71 passes the test of R66. -/
theorem Memory.block_contiguous (m : Memory) (a n : Nat) (h : a + n ≤ 2 ^ 64) :
    contiguousFrom a (m.block a n) = true := by
  induction n generalizing a with
  | zero => rfl
  | succ n ih =>
    have h1 := ih (a + 1) (by omega)
    simp [Memory.block, contiguousFrom, h1]
    omega

/-- The words of a block (R71). -/
theorem Memory.block_words_get (m : Memory) (a n k : Nat) (hk : k < n) :
    ((m.block a n).map Prod.snd)[k]? = some (m.read (a + k)) := by
  simp [Memory.block_get m a n k hk]

/-- A read wholly in range is answered with its block and changes nothing (R71). -/
theorem Memory.serve_read (m : Memory) (info : ErrInfo) {a : Word} {n : Count}
    (h : blockInRange (u64 a) n.toNat = true) :
    m.serve info (.requestBlock a n) = (m, .giveBlock (m.block (u64 a) n.toNat)) := by
  simp only [Memory.serve, h, if_true]

/-- A read not wholly in range is refused and changes nothing (R72). -/
theorem Memory.serve_read_refused (m : Memory) (info : ErrInfo) {a : Word} {n : Count}
    (h : blockInRange (u64 a) n.toNat = false) : m.serve info (.requestBlock a n) = (m, .error info) := by
  simp [Memory.serve, h]

/-- A one-word write in range is done and echoed (R73). -/
theorem Memory.serve_write (m : Memory) (info : ErrInfo) {a v : Word} (h : u64 a < Config.memWords) :
    m.serve info (.giveBlock [(a, v)]) = (m.write (u64 a) v, .giveBlock [(a, v)]) := by
  have hr : entriesInRange [(a, v)] = true := by
    simp only [entriesInRange, List.all_cons, List.all_nil, Bool.and_true, decide_eq_true_eq]
    exact h
  simp only [Memory.serve, hr, List.isEmpty_cons, Bool.not_false, Bool.and_true, if_true]
  rfl

/-- A one-word write out of range is refused and changes nothing (R72). -/
theorem Memory.serve_write_refused (m : Memory) (info : ErrInfo) {a v : Word} (h : ¬ u64 a < Config.memWords) :
    m.serve info (.giveBlock [(a, v)]) = (m, .error info) := by
  have hr : entriesInRange [(a, v)] = false := by
    simp only [entriesInRange, List.all_cons, List.all_nil, Bool.and_true, decide_eq_false_iff_not]
    exact h
  simp [Memory.serve, hr]

end Sys2Proof.Machine
end

