-- ==== Sys2Proof/Laws/Bus.lean ====
section
/-! SUPPORT. What the bus operations can do: what each leaves alone, and one whole transaction on a quiet bus. -/

namespace Sys2Proof.Machine

/-! ### The widths of the fields of a message -/

@[simp] theorem Config.oneCount_toNat : Config.oneCount.toNat = 1 := rfl
@[simp] theorem Config.windowCount_toNat : Config.windowCount.toNat = 8 := rfl

/-- `TAG_BITS` bits hold the index of every Core (R7). -/
theorem le_two_pow_tagBits (n : Nat) : n ≤ 2 ^ tagBits n := by
  unfold tagBits
  split
  · omega
  · have := Nat.lt_log2_self (n := n - 1)
    omega

/-- `TAG_BITS` is no wider than any width, 1 or more, that holds every index (R7). -/
theorem tagBits_le {n k : Nat} (hk : 1 ≤ k) (h : n ≤ 2 ^ k) : tagBits n ≤ k := by
  unfold tagBits
  split
  · exact hk
  · have := (Nat.log2_lt (by omega)).mpr (show n - 1 < 2 ^ k by omega)
    omega

/-- With a power of two of Cores, 2 or more, `TAG_BITS` bits hold the indexes and no more. -/
theorem tagBits_two_pow {k : Nat} (hk : 1 ≤ k) : tagBits (2 ^ k) = k :=
  Nat.le_antisymm (tagBits_le hk (Nat.le_refl _))
    ((Nat.pow_le_pow_iff_right (by decide)).mp (le_two_pow_tagBits (2 ^ k)))

/-- What a tag port carries fits it (R69). -/
theorem TaggedMsg.fits_onPort (n : Nat) (tm : TaggedMsg) : (tm.onPort n).fits n :=
  Nat.mod_lt _ (Nat.two_pow_pos _)

/-- The index of a Core fits the tag (R69). -/
theorem TaggedMsg.fits_of_lt {n i : Nat} (h : i < n) (m : CoreMsg) : TaggedMsg.fits n (i, m) :=
  Nat.lt_of_lt_of_le h (le_two_pow_tagBits n)

/-- A tag that fits comes through the port as it is. -/
theorem TaggedMsg.onPort_of_fits {n : Nat} {tm : TaggedMsg} (h : tm.fits n) : tm.onPort n = tm :=
  Prod.ext (Nat.mod_eq_of_lt h) rfl

/-! ### What the Router and the memory leave of a Core -/

/-- Every Core of `s` is in `t` with its own part (R20) and its input as they were. -/
def State.KeepsOwn (s t : State) : Prop :=
  ∀ (j : Nat) (c : CoreState), s.cores[j]? = some c →
    ∃ c', t.cores[j]? = some c' ∧ c'.ownPart = c.ownPart ∧ c'.disconnected = c.disconnected

theorem State.KeepsOwn.rfl (s : State) : s.KeepsOwn s := fun _ c h => ⟨c, h, by trivial, by trivial⟩

theorem State.KeepsOwn.trans {s t u : State} (h1 : s.KeepsOwn t) (h2 : t.KeepsOwn u) : s.KeepsOwn u := by
  intro j c hc
  obtain ⟨c1, hc1, ho1, hd1⟩ := h1 j c hc
  obtain ⟨c2, hc2, ho2, hd2⟩ := h2 j c1 hc1
  exact ⟨c2, hc2, ho2.trans ho1, hd2.trans hd1⟩

/-- Replacing one Core by one with the same own part and input. -/
theorem State.KeepsOwn.setCore {s : State} {i : Nat} {c d : CoreState} (h : s.cores[i]? = some c)
    (ho : d.ownPart = c.ownPart) (hd : d.disconnected = c.disconnected) : s.KeepsOwn (s.setCore i d) := by
  intro j e he
  by_cases hij : i = j
  · subst hij
    rw [h] at he
    cases he
    exact ⟨d, State.setCore_get_self h, ho, hd⟩
  · exact ⟨e, by rw [State.setCore_get_other hij]; exact he, by trivial, by trivial⟩

/-- Changing fields other than the Cores. -/
theorem State.KeepsOwn.of_cores {s t u : State} (h : s.KeepsOwn t) (hc : u.cores = t.cores) : s.KeepsOwn u := by
  intro j c hj
  rw [hc]
  exact h j c hj

/-- Everything *Up(i)* can do (R222). -/
theorem State.routerUp_cases (s : State) (i : Nat) :
    s.routerUp i = s ∨ ∃ c m rest, s.cores[i]? = some c ∧ c.up = m :: rest ∧ s.routerFault = false ∧
      s.routerUp i = { s.setCore i { c with up := rest } with memUp := s.memUp ++ [(c.id, m)] } := by
  unfold State.routerUp
  split
  · exact .inl rfl
  · rename_i c hc
    split
    · exact .inl rfl
    · rename_i m rest hu
      cases hf : s.routerFault
      · exact .inr ⟨c, m, rest, hc, hu, rfl, by simp⟩
      · exact .inl (by simp)

/-- Everything *Down* can do (R223, R225). -/
theorem State.routerDown_cases (s : State) :
    s.routerDown = s ∨
      (∃ t m rest c, s.memDown = (t, m) :: rest ∧ s.routerFault = false ∧ s.cores[t]? = some c ∧
        s.routerDown = { s.setCore t { c with down := c.down ++ [m] } with memDown := rest }) ∨
      ∃ t m rest, s.memDown = (t, m) :: rest ∧ s.routerFault = false ∧ s.cores[t]? = none ∧
        s.routerDown = { s with memDown := rest, routerFault := true } := by
  unfold State.routerDown
  split
  · exact .inl rfl
  · rename_i t m rest hd
    cases hf : s.routerFault
    · right
      cases hc : s.cores[t]? with
      | some c => exact .inl ⟨t, m, rest, c, hd, rfl, hc, by simp⟩
      | none => exact .inr ⟨t, m, rest, hd, rfl, hc, by simp⟩
    · exact .inl (by simp)

/-- Everything *memServe* can do (R70). -/
theorem State.memServe_cases (s : State) :
    s.memServe = s ∨ ∃ t m rest, s.memUp = (t, m) :: rest ∧ s.memDisconnected = false ∧
      s.memServe = { s with
        mem := (s.mem.serve (Config.freeErrInfo s.tick) m).1
        memUp := rest
        memDown := s.memDown ++ [(t, (s.mem.serve (Config.freeErrInfo s.tick) m).2)]
        tick := s.tick + 1 } := by
  unfold State.memServe
  split
  · exact .inl rfl
  · rename_i t m rest hu
    cases hf : s.memDisconnected
    · exact .inr ⟨t, m, rest, hu, rfl, by simp⟩
    · exact .inl (by simp)

theorem State.routerUp_keepsOwn (s : State) (i : Nat) : s.KeepsOwn (s.routerUp i) := by
  rcases s.routerUp_cases i with h | ⟨c, m, rest, hc, _, _, h⟩
  · rw [h]
    exact .rfl s
  · rw [h]
    exact .of_cores (.setCore hc (d := { c with up := rest }) (by rfl) (by rfl)) (by rfl)

theorem State.routerDown_keepsOwn (s : State) : s.KeepsOwn s.routerDown := by
  rcases s.routerDown_cases with h | ⟨t, m, rest, c, _, _, hc, h⟩ | ⟨t, m, rest, _, _, _, h⟩
  · rw [h]
    exact .rfl s
  · rw [h]
    exact .of_cores (.setCore hc (d := { c with down := c.down ++ [m] }) (by rfl) (by rfl)) (by rfl)
  · rw [h]
    exact .of_cores (.rfl s) (by rfl)

theorem State.memServe_cores (s : State) : s.memServe.cores = s.cores := by
  rcases s.memServe_cases with h | ⟨t, m, rest, _, _, h⟩ <;> rw [h]

theorem State.memServe_keepsOwn (s : State) : s.KeepsOwn s.memServe := .of_cores (.rfl s) s.memServe_cores

theorem State.memServeTimes_keepsOwn (n : Nat) (s : State) : s.KeepsOwn (State.memServeTimes n s) := by
  induction n generalizing s with
  | zero => exact .rfl s
  | succ n ih => exact s.memServe_keepsOwn.trans (ih s.memServe)

theorem State.routerDownTimes_keepsOwn (n : Nat) (s : State) : s.KeepsOwn (State.routerDownTimes n s) := by
  induction n generalizing s with
  | zero => exact .rfl s
  | succ n ih => exact s.routerDown_keepsOwn.trans (ih s.routerDown)

/-- A transport changes no Core but for its queues (R20, R224). -/
theorem State.transport_keepsOwn (s : State) : s.KeepsOwn s.transport :=
  ((s.routerUp_keepsOwn s.active).trans (State.memServeTimes_keepsOwn _ _)).trans
    (State.routerDownTimes_keepsOwn _ _)

/-! ### A property that every primitive event of a transport keeps is kept by the transport -/

/-- A transport is a run of *Up*, *memServe* and *Down* (R226): what these three keep, it keeps. -/
theorem State.transport_induction {P : State → Prop} (hup : ∀ s i, P s → P (s.routerUp i))
    (hserve : ∀ s, P s → P s.memServe) (hdown : ∀ s, P s → P s.routerDown) {s : State} (h : P s) : P s.transport := by
  have hs : ∀ n s, P s → P (State.memServeTimes n s) := by
    intro n
    induction n with
    | zero => intro s h; exact h
    | succ n ih => intro s h; exact ih _ (hserve s h)
  have hd : ∀ n s, P s → P (State.routerDownTimes n s) := by
    intro n
    induction n with
    | zero => intro s h; exact h
    | succ n ih => intro s h; exact ih _ (hdown s h)
  exact hd _ _ (hs _ _ (hup _ _ h))

@[simp] theorem State.transport_active (s : State) : s.transport.active = s.active := by
  refine State.transport_induction (P := fun t => t.active = s.active) ?_ ?_ ?_ rfl
  · intro t i h
    rcases t.routerUp_cases i with e | ⟨_, _, _, _, _, _, e⟩ <;> rw [e] <;> exact h
  · intro t h
    rcases t.memServe_cases with e | ⟨_, _, _, _, _, e⟩ <;> rw [e] <;> exact h
  · intro t h
    rcases t.routerDown_cases with e | ⟨_, _, _, _, _, _, _, e⟩ | ⟨_, _, _, _, _, _, e⟩ <;> rw [e] <;> exact h

@[simp] theorem State.transport_length (s : State) : s.transport.cores.length = s.cores.length := by
  refine State.transport_induction (P := fun t => t.cores.length = s.cores.length) ?_ ?_ ?_ rfl
  · intro t i h
    rcases t.routerUp_cases i with e | ⟨_, _, _, _, _, _, e⟩ <;> rw [e]
    · exact h
    · simpa using h
  · intro t h
    rw [t.memServe_cores]
    exact h
  · intro t h
    rcases t.routerDown_cases with e | ⟨_, _, _, _, _, _, _, e⟩ | ⟨_, _, _, _, _, _, e⟩ <;> rw [e]
    · exact h
    · simpa using h
    · exact h

/-- The canonical form of the contents is kept by a transport (R70 to R73). -/
theorem State.transport_memOk {s : State} (h : s.MemOk) : s.transport.MemOk := by
  refine State.transport_induction (P := State.MemOk) ?_ ?_ ?_ h
  · intro t i h
    rcases t.routerUp_cases i with e | ⟨_, _, _, _, _, _, e⟩ <;> rw [e] <;> exact h
  · intro t h
    rcases t.memServe_cases with e | ⟨_, _, _, _, _, e⟩ <;> rw [e]
    · exact h
    · exact Memory.wf_serve h _ _
  · intro t h
    rcases t.routerDown_cases with e | ⟨_, _, _, _, _, _, _, e⟩ | ⟨_, _, _, _, _, _, e⟩ <;> rw [e] <;> exact h

/-! ### One transaction on a quiet bus -/

/-- The transport of a lone request of the active Core: it comes back served (R70, R222, R223). -/
theorem State.transport_lone {s : State} {c : CoreState} {msg : CoreMsg} (hc : s.cores[s.active]? = some c)
    (hid : c.id = s.active) (hup : c.up = [msg]) (hdown : c.down = []) (hmu : s.memUp = []) (hmd : s.memDown = [])
    (hf : s.routerFault = false) (hm : s.memDisconnected = false) :
    s.transport = { s.setCore s.active
        { c with up := [], down := [(s.mem.serve (Config.freeErrInfo s.tick) msg).2] } with
      mem := (s.mem.serve (Config.freeErrInfo s.tick) msg).1
      tick := s.tick + 1 } := by
  obtain ⟨hi, rfl⟩ := List.getElem?_eq_some_iff.mp hc
  simp [State.transport, State.routerUp, hup, hf, hmu, hid, State.memServeTimes, State.memServe, hm, hmd,
    State.routerDownTimes, State.routerDown, hi, State.setCore, hdown]

/-- `MemRead` and `MemWrite` on a quiet bus (R66, R67): the memory serves the message and the Core takes the answer.
`c` is the active Core as the issue part left it, its queues and input as on the quiet bus. -/
theorem State.transact_quiet {s : State} {c0 c : CoreState} (q : s.Quiet c0) (hid : c.id = c0.id)
    (hup : c.up = c0.up) (hdown : c.down = c0.down) (hl : c.disconnected = c0.disconnected) (msg : CoreMsg)
    (ph : Phase) (k : CoreMsg → CoreState → CoreState) :
    s.transact c msg ph k =
      { s.setCore s.active (k (s.mem.serve (Config.freeErrInfo s.tick) msg).2 (c.setPhase ph)) with
        mem := (s.mem.serve (Config.freeErrInfo s.tick) msg).1
        tick := s.tick + 1 } := by
  have hi : s.active < s.cores.length := (List.getElem?_eq_some_iff.mp q.atActive).1
  have hlink : s.linkDown c = false := by simp [State.linkDown, hl, q.linked, q.noFault]
  have hsend : s.send c msg ph = s.setCore s.active { c with up := [msg], phase := ph } := by
    simp [State.send, hlink, hup, q.up]
  have hlone := State.transport_lone (s := s.send c msg ph) (c := { c with up := [msg], phase := ph }) (msg := msg)
    (by rw [hsend]; simp [hi]) (by simpa using hid.trans q.idOk) rfl (by simpa using hdown.trans q.down)
    (by simpa using q.memUp) (by simpa using q.memDown) (by simpa using q.noFault) (by simpa using q.memLinked)
  have hcore : ({ c with up := [], down := [], phase := ph } : CoreState) = c.setPhase ph := by
    cases c
    simp_all [CoreState.setPhase, q.up, q.down]
  have harr : (s.send c msg ph).transport = { s.setCore s.active
        { c with up := [], down := [(s.mem.serve (Config.freeErrInfo s.tick) msg).2], phase := ph } with
      mem := (s.mem.serve (Config.freeErrInfo s.tick) msg).1
      tick := s.tick + 1 } := by
    rw [hlone]
    simp [hsend, State.setCore]
  simp only [State.transact, hlink, Bool.false_eq_true, if_false, harr]
  simp [State.receive, State.setCore, hi, CoreState.setDown, ← hcore]

end Sys2Proof.Machine
end

