-- ==== Sys2Proof/Laws/Decode.lean ====
section
/-! SUPPORT. The decoder and the encoder on fields: register codes, what a laid-out word's fields are, and everything a word
that decodes can be. -/

namespace Sys2Proof

@[simp] theorem Reg.ofCode_code (r : Reg) : Reg.ofCode r.code = some r := by
  cases r <;> rfl

theorem Reg.code_lt (r : Reg) : r.code < 7 := by
  cases r <;> decide

/-- A code names a register iff it is that register's code (R21). -/
theorem Reg.ofCode_eq_some {n : Nat} {r : Reg} : Reg.ofCode n = some r ↔ n = r.code := by
  constructor
  · intro h
    unfold Reg.ofCode at h
    split at h <;> cases h <;> rfl
  · rintro rfl
    exact Reg.ofCode_code r

/-- The codes that name nothing are 7 and above (R108). -/
theorem Reg.ofCode_eq_none {n : Nat} : Reg.ofCode n = none ↔ 7 ≤ n := by
  constructor
  · intro h
    by_contra hn
    have : n < 7 := by omega
    interval_cases n <;> simp [Reg.ofCode] at h
  · intro h
    cases hr : Reg.ofCode n with
    | none => rfl
    | some r =>
      have := Reg.ofCode_eq_some.mp hr
      have := r.code_lt
      omega

theorem bits_fam_lt (w : Word) : bits w 63 60 < 16 := Nat.mod_lt _ (by decide)

theorem bits_nibble_lt (w : Word) (lo : Nat) : bits w (lo + 3) lo < 16 := by
  have : lo + 3 - lo + 1 = 4 := by omega
  simp only [bits, this]
  omega

theorem bits_addr_lt (w : Word) : bits w 51 0 < 2 ^ 52 := Nat.mod_lt _ (by norm_num)

/-- The default reading looks at no unused bit (R113). -/
theorem decode_eq (w : Word) : decode w =
    decodeFields (bits w 63 60) (bits w 59 56) (bits w 55 52) (bits w 51 48) (bits w 51 0) := by
  unfold decode decodeWith checkUnused Config.strictUnusedBits
  split <;> simp_all

/-- The fields of a laid-out word are what was laid out (R103, R104). -/
theorem bits_layoutWord {fam kind c1 low : Nat} (h1 : fam < 16) (h2 : kind < 16) (h3 : c1 < 16)
    (h4 : low < 2 ^ 52) :
    bits (layoutWord fam kind c1 low) 63 60 = fam ∧ bits (layoutWord fam kind c1 low) 59 56 = kind ∧
      bits (layoutWord fam kind c1 low) 55 52 = c1 ∧ bits (layoutWord fam kind c1 low) 51 48 = low / 2 ^ 48 ∧
      bits (layoutWord fam kind c1 low) 51 0 = low := by
  have : (fam * 2 ^ 60 + kind * 2 ^ 56 + c1 * 2 ^ 52 + low) % 2 ^ 64
      = fam * 2 ^ 60 + kind * 2 ^ 56 + c1 * 2 ^ 52 + low := Nat.mod_eq_of_lt (by omega)
  simp only [bits, layoutWord, BitVec.toNat_ofNat, this]
  refine ⟨?_, ?_, ?_, ?_, ?_⟩ <;> omega

/-- A word is the layout of its own fields. -/
theorem layoutWord_bits (w : Word) :
    layoutWord (bits w 63 60) (bits w 59 56) (bits w 55 52) (bits w 51 0) = w := by
  apply BitVec.eq_of_toNat_eq
  have := w.isLt
  simp only [bits, layoutWord, BitVec.toNat_ofNat]
  omega

/-- A laid-out word is `w` iff the fields agree. -/
theorem layoutWord_eq_iff {fam kind c1 low : Nat} {w : Word} (h1 : fam < 16) (h2 : kind < 16) (h3 : c1 < 16)
    (h4 : low < 2 ^ 52) : layoutWord fam kind c1 low = w ↔
      bits w 63 60 = fam ∧ bits w 59 56 = kind ∧ bits w 55 52 = c1 ∧ bits w 51 0 = low := by
  constructor
  · rintro rfl
    obtain ⟨a, b, c, _, e⟩ := bits_layoutWord h1 h2 h3 h4
    exact ⟨a, b, c, e⟩
  · rintro ⟨rfl, rfl, rfl, rfl⟩
    exact layoutWord_bits w

/-- Wider fields from narrower ones. -/
theorem bits_51_0 (w : Word) : bits w 51 0 = bits w 51 48 * 2 ^ 48 + bits w 47 0 := by
  simp only [bits]
  omega

theorem bits_59_0 (w : Word) : bits w 59 0 = bits w 59 56 * 2 ^ 56 + bits w 55 52 * 2 ^ 52 + bits w 51 0 := by
  simp only [bits]
  omega

/-- Everything a word that decodes can be: its family, kind and register codes, and the instruction they make (R105). -/
theorem decode_ok_cases {w : Word} {i : Instr} (h : decode w = .ok i) :
    (bits w 63 60 = 0 ∧ i = .nop) ∨
      (∃ r q, bits w 63 60 = 1 ∧ bits w 55 52 = r.code ∧ bits w 51 48 = q.code ∧ i = .add r q) ∨
      (∃ r q, bits w 63 60 = 2 ∧ bits w 55 52 = r.code ∧ bits w 51 48 = q.code ∧ i = .mul r q) ∨
      (∃ r, bits w 63 60 = 3 ∧ bits w 55 52 = r.code ∧ i = .load r (bits w 51 0)) ∨
      (∃ r, bits w 63 60 = 4 ∧ bits w 55 52 = r.code ∧ i = .store (bits w 51 0) r) ∨
      (∃ r, bits w 63 60 = 5 ∧ bits w 55 52 = r.code ∧ i = .push r) ∨
      (∃ r, bits w 63 60 = 6 ∧ bits w 55 52 = r.code ∧ i = .pop r) ∨
      (bits w 63 60 = 7 ∧ bits w 59 56 = 1 ∧ i = .jumpIfZero (bits w 51 0)) ∨
      (bits w 63 60 = 7 ∧ bits w 59 56 = 2 ∧ i = .jumpIfPositive (bits w 51 0)) ∨
      (bits w 63 60 = 7 ∧ bits w 59 56 = 3 ∧ i = .jumpIfNegative (bits w 51 0)) := by
  rw [decode_eq] at h
  have two : ∀ mk, decodeTwoRegs (bits w 55 52) (bits w 51 48) mk = .ok i →
      ∃ r q, bits w 55 52 = r.code ∧ bits w 51 48 = q.code ∧ i = mk r q := by
    intro mk h
    unfold decodeTwoRegs at h
    split at h
    · rename_i r q hr hq
      exact ⟨r, q, Reg.ofCode_eq_some.mp hr, Reg.ofCode_eq_some.mp hq, by cases h; rfl⟩
    · cases h
  have one : ∀ mk, decodeOneReg (bits w 55 52) mk = .ok i → ∃ r, bits w 55 52 = r.code ∧ i = mk r := by
    intro mk h
    unfold decodeOneReg at h
    split at h
    · rename_i r hr
      exact ⟨r, Reg.ofCode_eq_some.mp hr, by cases h; rfl⟩
    · cases h
  unfold decodeFields at h
  split at h
  · cases h; simp [*]
  · obtain ⟨r, q, h1, h2, h3⟩ := two _ h; simp [*]
  · obtain ⟨r, q, h1, h2, h3⟩ := two _ h; simp [*]
  · obtain ⟨r, h1, h3⟩ := one _ h; simp [*]
  · obtain ⟨r, h1, h3⟩ := one _ h; simp [*]
  · obtain ⟨r, h1, h3⟩ := one _ h; simp [*]
  · obtain ⟨r, h1, h3⟩ := one _ h; simp [*]
  · unfold decodeJump at h
    split at h <;> cases h <;> simp [*]
  · cases h

end Sys2Proof
end

