-- ==== Sys2Proof/Laws/Instr.lean ====
section
/-! SUPPORT. What each shared operation of the instructions does to a Core: completing, jumping, taking an answer. -/

namespace Sys2Proof.Machine

/-- `CompletesTo` from equal registers and flags. -/
theorem CoreState.CompletesTo.congr {c c' : CoreState} {u v : Reg → Word} {f g : Flags} (h : c.CompletesTo c' u f)
    (h1 : u = v) (h2 : f = g) : c.CompletesTo c' v g := by
  subst h1 h2
  exact h

/-- The phase the instruction started from does not matter to what it completes to. -/
theorem CoreState.CompletesTo.of_setPhase {c c' : CoreState} {u : Reg → Word} {f : Flags} {p : Phase}
    (h : (c.setPhase p).CompletesTo c' u f) : c.CompletesTo c' u f :=
  ⟨h.regs, h.ip, h.flags, h.win, h.phase, h.up, h.down, h.id, h.disconnected⟩

/-- Writing one register and the flags, then finishing. -/
theorem CoreState.setReg_completes (c : CoreState) (r : Reg) (w : Word) (f : Flags) :
    c.CompletesTo ((c.setReg r w).setFlags f).finish (fun q => if q = r then w else c.reg q) f :=
  (c.finish_completes (c.regs.write r w) f).congr (by funext q; simp [CoreState.reg]) rfl

/-- Writing the flags alone, then finishing. -/
theorem CoreState.setFlags_completes (c : CoreState) (f : Flags) : c.CompletesTo (c.setFlags f).finish c.reg f :=
  c.finish_completes c.regs f

/-- The common arm of `Add` and `Mul` (R160). -/
theorem CoreState.arith_completes (c : CoreState) (r1 : Reg) (m : Int) :
    c.CompletesTo (c.arith r1 m) (fun q => if q = r1 then wrap64 m else c.reg q)
      (applyResult (wrap64 m) (signedOverflow m)) :=
  c.setReg_completes r1 (wrap64 m) _

/-- A mathematical result does not fit (R161, R162). -/
theorem signedOverflow_iff (m : Int) : signedOverflow m = true ↔ m < -2 ^ 63 ∨ m > 2 ^ 63 - 1 := by
  unfold signedOverflow
  exact decide_eq_true_iff

/-- A jump that is taken (R190). -/
theorem CoreState.jump_taken (c : CoreState) (addr : Nat) : c.JumpsTo (c.jump true addr) (zext64 addr) where
  regs q hq := by simp [CoreState.jump, CoreState.branch, hq]
  ip := by simp [CoreState.jump, CoreState.branch, absoluteAddr]
  flags := rfl
  win := rfl
  phase := rfl
  up := rfl
  down := rfl
  id := rfl
  disconnected := rfl

/-- A jump that is not taken advances like any other instruction (R144). -/
theorem CoreState.jump_not_taken (c : CoreState) (addr : Nat) : c.CompletesTo (c.jump false addr) c.reg c.flags :=
  c.finish_completes c.regs c.flags

/-- The writes of `Pop` when its test passes (R182). -/
theorem CoreState.popWord_completes (c : CoreState) (r1 : Reg) (w : Word) (h : ¬ s64 (c.reg .sp + 1) < 0) :
    c.CompletesTo (c.popWord r1 w)
      (fun q => if q = r1 then w else if q = Reg.sp then c.reg .sp + 1 else c.reg q) (applyResult w false) := by
  simp only [CoreState.popWord, h, if_false]
  exact (c.finish_completes ((c.regs.write .sp (c.reg .sp + 1)).write r1 w) _).congr
    (by funext q; simp [CoreState.reg]) rfl

/-- `Pop` halts when its test fails (R182, R183). -/
theorem CoreState.popWord_underflow (c : CoreState) (r1 : Reg) (w : Word) (h : s64 (c.reg .sp + 1) < 0) :
    c.popWord r1 w = c.halt .stackUnderflow (.newSp (c.reg .sp + 1)) := by
  simp only [CoreState.popWord, h, if_true]

/-- The one-word answer that fits (R66, R67). -/
@[simp] theorem checkAnswer_one (a w : Word) : checkAnswer a 1 (.giveBlock [(a, w)]) = .words [w] := by
  simp [checkAnswer, contiguousFrom]

/-- Taking an answer that passes the test. -/
@[simp] theorem CoreState.takeAnswer_words (c : CoreState) (ws : List Word) (k : List Word → CoreState) :
    c.takeAnswer (.words ws) k = k ws := rfl

/-- Taking a one-word answer that does not fit halts the Core (R66, R67). -/
theorem CoreState.takeAnswer_bad_one (c : CoreState) (a : Word) (m : CoreMsg) (k : List Word → CoreState)
    (h : ∀ w, m ≠ .giveBlock [(a, w)]) : c.takeAnswer (checkAnswer a 1 m) k = c.setPhase (badAnswerPhase m) := by
  cases m with
  | error i => rfl
  | requestBlock x n => rfl
  | giveBlock es =>
    have hn : ¬ (es.length = 1 ∧ contiguousFrom (u64 a) es = true) := by
      rintro ⟨h1, h2⟩
      match es, h1 with
      | [(x, w)], _ =>
        simp only [contiguousFrom, Bool.and_true, decide_eq_true_eq] at h2
        exact h w (by rw [BitVec.eq_of_toNat_eq h2])
    simp only [checkAnswer, hn, if_false]
    rfl

/-- Entry `k` of a contiguous list is at `a + k` (R66). -/
theorem contiguousFrom_iff (a : Nat) (es : List Entry) :
    contiguousFrom a es = true ↔ ∀ (k : Nat) (e : Entry), es[k]? = some e → u64 e.1 = a + k := by
  induction es generalizing a with
  | nil => simp [contiguousFrom]
  | cons e es ih =>
    simp only [contiguousFrom, Bool.and_eq_true, decide_eq_true_eq, ih]
    constructor
    · rintro ⟨h1, h2⟩ k x hk
      cases k with
      | zero =>
        simp only [List.getElem?_cons_zero, Option.some.injEq] at hk
        rw [← hk, h1]
        omega
      | succ k =>
        rw [h2 k x (by simpa using hk)]
        omega
    · intro h
      refine ⟨by simpa using h 0 e rfl, fun k x hk => ?_⟩
      rw [h (k + 1) x (by simpa using hk)]
      omega

/-- A channel that is gone, from either side (R204, R225). -/
theorem State.linkDown_of {s : State} {c : CoreState} (h : c.disconnected = true ∨ s.routerFault = true) :
    s.linkDown c = true := by
  simpa [State.linkDown] using h

/-- An absolute address of the range reads back as itself (R170). -/
theorem u64_absoluteAddr {addr : Nat} (h : addr < 2 ^ 52) : u64 (absoluteAddr addr) = addr := by
  simp only [absoluteAddr, u64, zext64, BitVec.toNat_ofNat]
  omega

end Sys2Proof.Machine
end

