-- ==== Sys2Proof/Laws/Frame.lean ====
section
/-! SUPPORT. What a bus transaction can do to the memory and to every Core, from any state: the frames of the four
instructions that use the bus rest on these. -/

namespace Sys2Proof.Machine

/-! ### The memory -/

/-- Writing entries none of which is at `a` leaves the word at `a` (R73). -/
theorem Memory.read_writeAll_other {m : Memory} (h : m.wf = true) {es : List Entry}
    (hr : entriesInRange es = true) {a : Nat} (hn : ∀ e ∈ es, u64 e.1 ≠ a) : (m.writeAll es).read a = m.read a := by
  induction es generalizing m with
  | nil => rfl
  | cons e es ih =>
    simp only [entriesInRange, List.all_cons, Bool.and_eq_true, decide_eq_true_eq] at hr
    rw [Memory.writeAll, ih (Memory.wf_write h hr.1 e.2) hr.2 fun x hx => hn x (List.mem_cons_of_mem _ hx),
      Memory.read_write h, if_neg (hn e List.mem_cons_self).symm]

/-- Serving a message that does not write `a` leaves the word at `a` (R71 to R73). -/
theorem Memory.read_serve_other {m : Memory} (h : m.wf = true) (info : ErrInfo) {msg : CoreMsg} {a : Nat}
    (hn : ¬ msg.writesTo a) : (m.serve info msg).1.read a = m.read a := by
  cases msg with
  | error x => rfl
  | requestBlock b n =>
    simp only [Memory.serve]
    split <;> rfl
  | giveBlock es =>
    simp only [Memory.serve]
    split
    · rename_i hg
      simp only [Bool.and_eq_true] at hg
      exact Memory.read_writeAll_other h hg.2 fun e he hea => hn ⟨es, rfl, e, he, hea⟩
    · rfl

/-- A transport leaves the word at `a` unless a message in flight writes it. -/
theorem State.transport_read {s : State} {c : CoreState} {a : Nat} (hok : s.MemOk)
    (hc : s.cores[s.active]? = some c) (hn : s.NoWriteInFlight c a) : s.transport.mem.read a = s.mem.read a := by
  have hserve : ∀ n (t : State), t.MemOk → (∀ tm ∈ t.memUp, ¬ tm.2.writesTo a) →
      (State.memServeTimes n t).mem.read a = t.mem.read a := by
    intro n
    induction n with
    | zero => intro t _ _; rfl
    | succ n ih =>
      intro t ht hw
      rcases t.memServe_cases with e | ⟨k, m, rest, hu, _, e⟩
      · rw [State.memServeTimes, e]
        exact ih t ht hw
      · rw [State.memServeTimes, e, ih]
        · exact Memory.read_serve_other ht _ (hw (k, m) (by rw [hu]; exact List.mem_cons_self))
        · exact Memory.wf_serve ht _ _
        · exact fun tm htm => hw tm (by rw [hu]; exact List.mem_cons_of_mem _ htm)
  have hdown : ∀ n (t : State), (State.routerDownTimes n t).mem = t.mem := by
    intro n
    induction n with
    | zero => intro t; rfl
    | succ n ih =>
      intro t
      rw [State.routerDownTimes, ih]
      rcases t.routerDown_cases with e | ⟨_, _, _, _, _, _, _, e⟩ | ⟨_, _, _, _, _, _, e⟩ <;> rw [e]
      rfl
  rw [State.transport, hdown]
  rcases s.routerUp_cases s.active with e | ⟨d, m, rest, hd, hu, _, e⟩ <;> rw [e]
  · exact hserve _ s hok hn.2
  · rw [hc] at hd
    cases hd
    refine (hserve _ { s.setCore s.active { c with up := rest } with memUp := s.memUp ++ [(c.id, m)] } hok ?_).trans rfl
    intro tm htm
    rcases List.mem_append.mp htm with h | h
    · exact hn.2 tm h
    · rw [List.mem_singleton.mp h]
      exact hn.1 m (by rw [hu]; exact List.mem_cons_self)

/-! ### A transaction from any state -/

/-- Everything the reception of an answer can do (R66, R148, R149). -/
theorem State.receive_cases (s : State) (k : CoreMsg → CoreState → CoreState) :
    s.receive k = s ∨ ∃ c, s.cores[s.active]? = some c ∧
      ((∃ m rest, c.down = m :: rest ∧ s.receive k = s.setCore s.active (k m (c.setDown rest))) ∨
        (c.down = [] ∧ s.linkDown c = true ∧ s.receive k = s.setCore s.active (c.halt .busDisconnected .nothing))) := by
  unfold State.receive
  cases hc : s.cores[s.active]? with
  | none => exact .inl rfl
  | some c =>
    cases hd : c.down with
    | cons m rest => exact .inr ⟨c, rfl, .inl ⟨m, rest, hd, by simp [hd]⟩⟩
    | nil =>
      cases hl : s.linkDown c
      · exact .inl (by simp [hd, hl])
      · exact .inr ⟨c, rfl, .inr ⟨hd, hl, by simp [hd, hl]⟩⟩

/-- Everything a transaction can do to the active Core, which was `c0` and is `c` after the issue part: its channel was
gone; or it waits; or it took an answer; or its channel went. -/
theorem State.transact_cases {s : State} {c0 : CoreState} (h0 : s.cores[s.active]? = some c0) (c : CoreState)
    (msg : CoreMsg) (ph : Phase) (k : CoreMsg → CoreState → CoreState) :
    (s.linkDown c = true ∧ s.transact c msg ph k = s.setCore s.active (c.halt .busDisconnected .nothing)) ∨
      (s.linkDown c = false ∧ ∃ u d, u = (s.setCore s.active { c with up := c.up ++ [msg], phase := ph }).transport ∧
        u.active = s.active ∧ u.cores[s.active]? = some d ∧ d.ownPart = (c.setPhase ph).ownPart ∧
        (s.transact c msg ph k = u ∨
          (∃ m rest, d.down = m :: rest ∧ s.transact c msg ph k = u.setCore s.active (k m (d.setDown rest))) ∨
          s.transact c msg ph k = u.setCore s.active (d.halt .busDisconnected .nothing))) := by
  cases hl : s.linkDown c
  · right
    have hact : (s.setCore s.active { c with up := c.up ++ [msg], phase := ph }).transport.active = s.active := by simp
    obtain ⟨d, hd, ho, _⟩ := (s.setCore s.active { c with up := c.up ++ [msg], phase := ph }).transport_keepsOwn
      s.active _ (State.setCore_get_self h0)
    refine ⟨rfl, _, d, rfl, hact, hd, ho, ?_⟩
    have e : s.transact c msg ph k =
        (s.setCore s.active { c with up := c.up ++ [msg], phase := ph }).transport.receive k := by
      simp [State.transact, State.send, hl]
    rw [e]
    rcases State.receive_cases (s.setCore s.active { c with up := c.up ++ [msg], phase := ph }).transport k with
      h | ⟨d', hd', ⟨m, rest, hm, h⟩ | ⟨_, _, h⟩⟩
    · exact .inl h
    · rw [hact, hd] at hd'
      cases hd'
      rw [hact] at h
      exact .inr (.inl ⟨m, rest, hm, h⟩)
    · rw [hact, hd] at hd'
      cases hd'
      rw [hact] at h
      exact .inr (.inr h)
  · exact .inl ⟨rfl, by simp [State.transact, State.send, hl]⟩

/-- The frame of a transaction: the active Core's window and identity and whatever registers `Q` the issue part and the
completion leave alone; the memory but for the message's own words and writes in flight; the other Cores. -/
theorem State.transact_frame {s : State} {c0 c : CoreState} (hok : s.MemOk) (h0 : s.cores[s.active]? = some c0)
    {msg : CoreMsg} {ph : Phase} {k : CoreMsg → CoreState → CoreState} (Q : Reg → Prop)
    (hup : c.up = c0.up) (hwin : c.win = c0.win) (hid : c.id = c0.id) (hreg : ∀ q, Q q → c.reg q = c0.reg q)
    (hk : ∀ m d, (k m d).win = d.win ∧ (k m d).id = d.id ∧ ∀ q, Q q → (k m d).reg q = d.reg q) :
    ∃ c', (s.transact c msg ph k).cores[s.active]? = some c' ∧ c'.win = c0.win ∧ c'.id = c0.id ∧
      (∀ q, Q q → c'.reg q = c0.reg q) ∧
      (∀ a, ¬ msg.writesTo a → s.NoWriteInFlight c0 a → (s.transact c msg ph k).mem.read a = s.mem.read a) ∧
      ∀ (j : Nat) (d : CoreState), j ≠ s.active → s.cores[j]? = some d →
        ∃ d', (s.transact c msg ph k).cores[j]? = some d' ∧ d'.ownPart = d.ownPart := by
  rcases State.transact_cases h0 c msg ph k with ⟨_, e⟩ | ⟨_, u, d, hu, hua, hd, ho, e⟩
  · rw [e]
    exact ⟨_, State.setCore_get_self h0, hwin, hid, hreg, fun a _ _ => rfl,
      fun j d hj hd => ⟨d, by rw [State.setCore_get_other hj.symm]; exact hd, rfl⟩⟩
  · have ho1 : d.regs = c.regs := congrArg (·.1) ho
    have ho2 : d.win = c.win := congrArg (·.2.2.1) ho
    have ho3 : d.id = c.id := congrArg (·.2.2.2.2) ho
    have hmem : ∀ a, ¬ msg.writesTo a → s.NoWriteInFlight c0 a → u.mem.read a = s.mem.read a := by
      intro a hm hn
      rw [hu]
      refine State.transport_read (s := s.setCore s.active { c with up := c.up ++ [msg], phase := ph }) hok
        (State.setCore_get_self h0) ⟨?_, hn.2⟩
      intro x hx
      rcases List.mem_append.mp hx with hx | hx
      · exact hn.1 x (hup ▸ hx)
      · rw [List.mem_singleton.mp hx]
        exact hm
    have hother : ∀ (j : Nat) (x : CoreState), j ≠ s.active → s.cores[j]? = some x →
        ∃ x', u.cores[j]? = some x' ∧ x'.ownPart = x.ownPart := by
      intro j x hj hx
      obtain ⟨x', hx', hxo, _⟩ := State.transport_keepsOwn
        (s.setCore s.active { c with up := c.up ++ [msg], phase := ph }) j x
        (by rw [State.setCore_get_other hj.symm]; exact hx)
      exact ⟨x', by rw [hu]; exact hx', hxo⟩
    have hset : ∀ (x : CoreState), x.win = c0.win → x.id = c0.id → (∀ q, Q q → x.reg q = c0.reg q) →
        ∃ c', (u.setCore s.active x).cores[s.active]? = some c' ∧ c'.win = c0.win ∧ c'.id = c0.id ∧
          (∀ q, Q q → c'.reg q = c0.reg q) ∧
          (∀ a, ¬ msg.writesTo a → s.NoWriteInFlight c0 a → (u.setCore s.active x).mem.read a = s.mem.read a) ∧
          ∀ (j : Nat) (y : CoreState), j ≠ s.active → s.cores[j]? = some y →
            ∃ y', (u.setCore s.active x).cores[j]? = some y' ∧ y'.ownPart = y.ownPart := by
      intro x h1 h2 h3
      refine ⟨x, State.setCore_get_self hd, h1, h2, h3, hmem, ?_⟩
      intro j y hj hy
      rw [State.setCore_get_other hj.symm]
      exact hother j y hj hy
    have hdreg : ∀ q, Q q → d.reg q = c0.reg q := fun q hq => (congrArg (fun x => x.read q) ho1).trans (hreg q hq)
    rcases e with e | ⟨m, rest, _, e⟩ | e <;> rw [e]
    · exact ⟨d, hd, ho2.trans hwin, ho3.trans hid, hdreg, hmem, hother⟩
    · obtain ⟨k1, k2, k3⟩ := hk m (d.setDown rest)
      exact hset _ (k1.trans (ho2.trans hwin)) (k2.trans (ho3.trans hid)) fun q hq => (k3 q hq).trans (hdreg q hq)
    · exact hset _ (ho2.trans hwin) (ho3.trans hid) hdreg

/-- A taken answer leaves a field alone that the words leave alone (R207: a halt changes the phase only). -/
theorem CoreState.takeAnswer_field {α : Type} (f : CoreState → α) (hf : ∀ (c : CoreState) k x, f (c.halt k x) = f c)
    (c : CoreState) (ans : Answer) (k : List Word → CoreState) (hk : ∀ ws, f (k ws) = f c) :
    f (c.takeAnswer ans k) = f c := by
  cases ans with
  | words ws => exact hk ws
  | bad cause info => exact hf c cause info

end Sys2Proof.Machine
end

