-- ==== Sys2Proof/Laws/Engine.lean ====
section
/-! SUPPORT. What instructions and events can do to a Package, as induction principles: a property kept by replacing the
active Core by one it may become, and by the events of the Router and the memory, is kept by every instruction and by
every event of a Core. -/

namespace Sys2Proof.Machine

/-! ### What a Core may become -/

/-- What every event of a Core makes of it keeps: identity, input, and the law of the flags (R30). -/
structure CoreState.Changes (c d : CoreState) : Prop where
  id : d.id = c.id
  disconnected : d.disconnected = c.disconnected
  flags : c.flags.ok = true → d.flags.ok = true

/-- What an instruction makes of a Core keeps its window too (R38, R83). -/
structure CoreState.ExecChanges (c d : CoreState) : Prop extends CoreState.Changes c d where
  win : d.win = c.win

/-- A result is not both zero and negative, and OVERFLOW is CARRY (R30, R31). -/
theorem applyResult_ok (v : Word) (ovf : Bool) : (applyResult v ovf).ok = true := by
  have h : u64 v = 0 → v.msb = false := by
    intro h0
    have hv : v = 0#64 := BitVec.eq_of_toNat_eq (by simpa using h0)
    rw [hv]
    decide
  by_cases h0 : u64 v = 0 <;> simp [applyResult, Flags.ok, h0, h]

theorem CoreState.ExecChanges.of_parts {c d : CoreState} (h1 : d.id = c.id) (h2 : d.disconnected = c.disconnected)
    (h3 : d.win = c.win) (h4 : d.flags = c.flags ∨ d.flags.ok = true) : c.ExecChanges d where
  id := h1
  disconnected := h2
  flags h := h4.elim (fun e => by rw [e]; exact h) (fun e => e)
  win := h3

theorem CoreState.ExecChanges.trans {c d e : CoreState} (h1 : c.ExecChanges d) (h2 : d.ExecChanges e) :
    c.ExecChanges e :=
  ⟨⟨h2.id.trans h1.id, h2.disconnected.trans h1.disconnected, fun h => h2.flags (h1.flags h)⟩, h2.win.trans h1.win⟩

/-- Taking an answer (R66, R67). -/
theorem CoreState.ExecChanges.takeAnswer {c : CoreState} (ans : Answer) {k : List Word → CoreState}
    (hk : ∀ ws, c.ExecChanges (k ws)) : c.ExecChanges (c.takeAnswer ans k) := by
  cases ans with
  | words ws => exact hk ws
  | bad cause info => exact .of_parts rfl rfl rfl (.inl rfl)

theorem CoreState.ExecChanges.halt (c : CoreState) (k : Cause) (x : HaltInfo) : c.ExecChanges (c.halt k x) :=
  .of_parts rfl rfl rfl (.inl rfl)

theorem CoreState.ExecChanges.arith (c : CoreState) (r1 : Reg) (m : Int) : c.ExecChanges (c.arith r1 m) :=
  .of_parts rfl rfl rfl (.inr (applyResult_ok _ _))

theorem CoreState.ExecChanges.jump (c : CoreState) (taken : Bool) (addr : Nat) : c.ExecChanges (c.jump taken addr) := by
  cases taken <;> exact .of_parts rfl rfl rfl (.inl rfl)

theorem CoreState.ExecChanges.popWord (c : CoreState) (r1 : Reg) (w : Word) : c.ExecChanges (c.popWord r1 w) := by
  unfold CoreState.popWord
  dsimp only
  split
  · exact .of_parts rfl rfl rfl (.inl rfl)
  · exact .of_parts rfl rfl rfl (.inr (applyResult_ok _ _))

theorem completeLoad_changes (r : Reg) (a : Word) (m : CoreMsg) (c : CoreState) :
    c.ExecChanges (completeLoad r a m c) :=
  .takeAnswer _ fun _ => .of_parts rfl rfl rfl (.inr (applyResult_ok _ _))

theorem completeStore_changes (a v : Word) (m : CoreMsg) (c : CoreState) : c.ExecChanges (completeStore a v m c) :=
  .takeAnswer _ fun _ => .of_parts rfl rfl rfl (.inr (applyResult_ok _ _))

theorem completePush_changes (a v : Word) (m : CoreMsg) (c : CoreState) : c.ExecChanges (completePush a v m c) :=
  .takeAnswer _ fun _ => .of_parts rfl rfl rfl (.inr (applyResult_ok _ _))

theorem completePop_changes (r : Reg) (a : Word) (m : CoreMsg) (c : CoreState) :
    c.ExecChanges (completePop r a m c) :=
  .takeAnswer _ fun _ => .popWord c r _

theorem completeData_changes (m : CoreMsg) (c : CoreState) : c.ExecChanges (completeData m c) := by
  unfold completeData
  split
  · exact completeLoad_changes _ _ _ _
  · exact completeStore_changes _ _ _ _
  · exact completePush_changes _ _ _ _
  · exact completePop_changes _ _ _ _
  all_goals exact .of_parts rfl rfl rfl (.inl rfl)

theorem CoreState.Changes.fetched (c : CoreState) (a : Word) (m : CoreMsg) : c.Changes (c.fetched a m) := by
  unfold CoreState.fetched
  cases checkAnswer a 8 m with
  | words ws => exact ⟨rfl, rfl, fun h => h⟩
  | bad cause info => exact ⟨rfl, rfl, fun h => h⟩

/-! ### A property of the Package that the Router's and the memory's events keep -/

/-- The three events a transport is made of keep `P`. -/
structure BusKeeps (P : State → Prop) : Prop where
  up : ∀ s i, P s → P (s.routerUp i)
  serve : ∀ s, P s → P s.memServe
  down : ∀ s, P s → P s.routerDown

/-- Replacing the active Core by one it may become, as the relation `R` says, keeps `P`. -/
def SetKeeps (R : CoreState → CoreState → Prop) (P : State → Prop) : Prop :=
  ∀ (s : State) (c d : CoreState), P s → s.cores[s.active]? = some c → R c d → P (s.setCore s.active d)

theorem BusKeeps.transport {P : State → Prop} (hb : BusKeeps P) {s : State} (h : P s) : P s.transport :=
  State.transport_induction hb.up hb.serve hb.down h

/-- `P` is kept by the sending of a request. -/
theorem SetKeeps.send {P : State → Prop} (hs : SetKeeps CoreState.ExecChanges P) {s : State} {c0 c : CoreState}
    (h : P s) (h0 : s.cores[s.active]? = some c0) (hc : c0.ExecChanges c) (msg : CoreMsg) (ph : Phase) :
    P (s.send c msg ph) := by
  refine hs s c0 _ h h0 (hc.trans ?_)
  split <;> exact .of_parts rfl rfl rfl (.inl rfl)

/-- `P` is kept by the reception of an answer. -/
theorem SetKeeps.receive {P : State → Prop} (hs : SetKeeps CoreState.ExecChanges P) {s : State} (h : P s)
    {k : CoreMsg → CoreState → CoreState} (hk : ∀ m (c : CoreState), c.ExecChanges (k m c)) : P (s.receive k) := by
  rcases s.receive_cases k with e | ⟨c, hc, ⟨m, rest, _, e⟩ | ⟨_, _, e⟩⟩ <;> rw [e]
  · exact h
  · exact hs s c _ h hc
      (CoreState.ExecChanges.trans (d := c.setDown rest) (.of_parts rfl rfl rfl (.inl rfl)) (hk m (c.setDown rest)))
  · exact hs s c _ h hc (.halt c _ _)

/-- `P` is kept by a transaction. -/
theorem SetKeeps.transact {P : State → Prop} (hs : SetKeeps CoreState.ExecChanges P) (hb : BusKeeps P) {s : State}
    {c0 c : CoreState} (h : P s) (h0 : s.cores[s.active]? = some c0) (hc : c0.ExecChanges c) (msg : CoreMsg) (ph : Phase)
    {k : CoreMsg → CoreState → CoreState} (hk : ∀ m (c : CoreState), c.ExecChanges (k m c)) : P (s.transact c msg ph k) := by
  unfold State.transact
  split
  · exact hs.send h h0 hc msg ph
  · exact hs.receive (hb.transport (hs.send h h0 hc msg ph)) hk

/-- The Core after the decrement of a `Push`. -/
theorem CoreState.ExecChanges.pushed (c : CoreState) : c.ExecChanges c.pushed := .of_parts rfl rfl rfl (.inl rfl)

theorem CoreState.ExecChanges.rfl (c : CoreState) : c.ExecChanges c :=
  .of_parts (by trivial) (by trivial) (by trivial) (.inl (by trivial))

/-- `P` is kept by every instruction. -/
theorem exec_keeps {P : State → Prop} (hs : SetKeeps CoreState.ExecChanges P) (hb : BusKeeps P) {i : Instr}
    {s t : State} (h : P s) (he : exec i s = .next t) : P t := by
  cases i <;> obtain ⟨c, hc, hp, e⟩ := State.onReady_cases he <;> subst e
  · exact hs s c _ h hc (.of_parts (by trivial) (by trivial) (by trivial) (.inl (by trivial)))
  · exact hs s c _ h hc (.arith c _ _)
  · exact hs s c _ h hc (.arith c _ _)
  · exact hs.transact hb h hc (.rfl c) _ _ (completeLoad_changes _ _)
  · exact hs.transact hb h hc (.rfl c) _ _ (completeStore_changes _ _)
  · exact hs.transact hb h hc (.pushed c) _ _ (completePush_changes _ _)
  · exact hs.transact hb h hc (.rfl c) _ _ (completePop_changes _ _)
  · exact hs s c _ h hc (.jump c _ _)
  · exact hs s c _ h hc (.jump c _ _)
  · exact hs s c _ h hc (.jump c _ _)

/-- `P` is kept by `run` (R147). -/
theorem beginInstr_keeps {P : State → Prop} (hs : SetKeeps CoreState.ExecChanges P) {i : Instr}
    {s t : State} (h : P s) (he : beginInstr i s = .next t) : P t := by
  cases i <;> obtain ⟨c, hc, hp, e⟩ := State.onReady_cases he <;> subst e
  · exact hs s c _ h hc (.of_parts (by trivial) (by trivial) (by trivial) (.inl (by trivial)))
  · exact hs s c _ h hc (.arith c _ _)
  · exact hs s c _ h hc (.arith c _ _)
  · exact hs.send h hc (.rfl c) _ _
  · exact hs.send h hc (.rfl c) _ _
  · exact hs.send h hc (.pushed c) _ _
  · exact hs.send h hc (.rfl c) _ _
  · exact hs s c _ h hc (.jump c _ _)
  · exact hs s c _ h hc (.jump c _ _)
  · exact hs s c _ h hc (.jump c _ _)

/-! ### Events of a Core -/

/-- What holds for every change of a Core holds for those an instruction makes. -/
theorem SetKeeps.exec {P : State → Prop} (hs : SetKeeps CoreState.Changes P) : SetKeeps CoreState.ExecChanges P :=
  fun s c d h hc hcd => hs s c d h hc hcd.toChanges

/-- Everything `decodeThen` can do (R141 step 3, R202). -/
theorem State.decodeThen_cases {s t : State} {k : Instr → State → Result} {w a : Word}
    (h : s.decodeThen k w a = .next t) :
    (∃ i, decode w = .ok i ∧ k i s = .next t) ∨
      ∃ e c, decode w = .err e ∧ s.cores[s.active]? = some c ∧
        t = s.setCore s.active (c.halt (decodeCause e) (.fetched w a)) := by
  unfold State.decodeThen at h
  split at h
  · exact .inl ⟨_, by assumption, h⟩
  · split at h
    · exact .inr ⟨_, _, by assumption, by assumption, by simpa using h.symm⟩
    · cases h

theorem State.decodeThen_keeps {P : State → Prop} (hs : SetKeeps CoreState.Changes P) {s t : State}
    {k : Instr → State → Result} (hk : ∀ i u, P s → k i s = .next u → P u) {w a : Word} (h : P s)
    (he : s.decodeThen k w a = .next t) : P t := by
  rcases State.decodeThen_cases he with ⟨i, _, e⟩ | ⟨x, c, _, hc, rfl⟩
  · exact hk i t h e
  · exact hs s c _ h hc (CoreState.ExecChanges.halt c _ _).toChanges

theorem State.afterFetch_keeps {P : State → Prop} (hs : SetKeeps CoreState.Changes P) {s t : State}
    {k : Instr → State → Result} (hk : ∀ i s u, P s → k i s = .next u → P u) {c0 c : CoreState} {a : Word} {m : CoreMsg}
    (h : P s) (h0 : s.cores[s.active]? = some c0) (hc : c0.Changes c) (he : s.afterFetch k c a m = .next t) : P t := by
  have h1 : P (s.setCore s.active (c.fetched a m)) := by
    have hf := CoreState.Changes.fetched c a m
    exact hs s c0 _ h h0 ⟨hf.id.trans hc.id, hf.disconnected.trans hc.disconnected, fun x => hf.flags (hc.flags x)⟩
  unfold State.afterFetch at he
  dsimp only at he
  split at he
  · split at he
    · exact State.decodeThen_keeps hs (fun i u hu => hk i _ u hu) h1 he
    · cases he
      exact h1
  · cases he
    exact h1

/-- Everything an event that is not enabled can do (R151, R208). -/
theorem State.idle_cases {s t : State} (h : s.idle = .next t) : t = s := by
  unfold State.idle at h
  split at h
  · cases h
  · simpa using h.symm

theorem CoreState.Changes.setDown (c : CoreState) (d : List CoreMsg) : c.Changes (c.setDown d) :=
  ⟨rfl, rfl, fun h => h⟩

/-- `P` holds and Core `i` is the active one. -/
def OnCore (i : Nat) (P : State → Prop) (s : State) : Prop := s.active = i ∧ P s

/-- `P` is kept by what the events of Core `i` are made of, once that Core is made the active one. -/
structure CoreKeeps (i : Nat) (P : State → Prop) : Prop where
  set : SetKeeps CoreState.Changes (OnCore i P)
  bus : BusKeeps (OnCore i P)
  active : ∀ s, P s → P (s.withActive i)

theorem CoreKeeps.onCore {i : Nat} {P : State → Prop} (hk : CoreKeeps i P) {s : State} (h : P s) :
    OnCore i P (s.withActive i) := ⟨by trivial, hk.active s h⟩

/-- Events of the Router and the memory keep the active Core's index. -/
theorem BusKeeps.onCore {P : State → Prop} (i : Nat) (hb : BusKeeps P) : BusKeeps (OnCore i P) where
  up s k h := ⟨by rcases s.routerUp_cases k with e | ⟨_, _, _, _, _, _, e⟩ <;> rw [e] <;> exact h.1, hb.up s k h.2⟩
  serve s h := ⟨by rcases s.memServe_cases with e | ⟨_, _, _, _, _, e⟩ <;> rw [e] <;> exact h.1, hb.serve s h.2⟩
  down s h :=
    ⟨by rcases s.routerDown_cases with e | ⟨_, _, _, _, _, _, _, e⟩ | ⟨_, _, _, _, _, _, e⟩ <;> rw [e] <;> exact h.1,
      hb.down s h.2⟩

theorem CoreKeeps.begin {i : Nat} {P : State → Prop} (hk : CoreKeeps i P) {s t : State} (h : P s)
    (he : s.evBegin i = .next t) : P t := by
  unfold State.evBegin at he
  split at he
  · rw [State.idle_cases he]
    exact h
  · rename_i c hc
    split at he
    · split at he
      · exact State.decodeThen_keeps hk.set (fun i u hu => beginInstr_keeps hk.set.exec hu) (hk.onCore h) he |>.2
      · cases he
        exact (hk.set.exec.send (hk.onCore h) hc (.rfl c) _ _).2
    · rw [State.idle_cases he]
      exact h

theorem CoreKeeps.fetchResponse {i : Nat} {P : State → Prop} (hk : CoreKeeps i P) {s t : State} (h : P s)
    (he : s.evFetchResponse i = .next t) : P t := by
  unfold State.evFetchResponse at he
  split at he
  · rw [State.idle_cases he]
    exact h
  · rename_i c hc
    split at he
    · exact State.afterFetch_keeps hk.set (fun i s u hu => beginInstr_keeps hk.set.exec hu) (hk.onCore h) hc
        (.setDown c _) he |>.2
    · rw [State.idle_cases he]
      exact h

theorem CoreKeeps.dataResponse {i : Nat} {P : State → Prop} (hk : CoreKeeps i P) {s t : State} (h : P s)
    (he : s.evDataResponse i = .next t) : P t := by
  unfold State.evDataResponse at he
  split at he
  · rw [State.idle_cases he]
    exact h
  · rename_i c hc
    split at he
    · rw [State.idle_cases he]
      exact h
    · rename_i m rest hd
      split at he
      · cases he
        have h1 := completeData_changes m (c.setDown rest)
        exact (hk.set (s.withActive i) c _ (hk.onCore h) hc ⟨h1.id, h1.disconnected, h1.flags⟩).2
      · rw [State.idle_cases he]
        exact h

theorem CoreKeeps.disconnect {i : Nat} {P : State → Prop} (hk : CoreKeeps i P) {s t : State} (h : P s)
    (he : s.evDisconnect i = .next t) : P t := by
  unfold State.evDisconnect at he
  split at he
  · rw [State.idle_cases he]
    exact h
  · rename_i c hc
    split at he
    · cases he
      exact (hk.set (s.withActive i) c _ (hk.onCore h) hc (CoreState.ExecChanges.halt c _ _).toChanges).2
    · rw [State.idle_cases he]
      exact h

theorem CoreKeeps.fullStep {i : Nat} {P : State → Prop} (hk : CoreKeeps i P) {s t : State} (h : P s)
    (he : s.evFullStep i = .next t) : P t := by
  unfold State.evFullStep at he
  split at he
  · rw [State.idle_cases he]
    exact h
  · rename_i c hc
    split at he
    · split at he
      · exact State.decodeThen_keeps hk.set (fun i u hu => exec_keeps hk.set.exec hk.bus hu) (hk.onCore h) he |>.2
      · have hsend : OnCore i P ((s.withActive i).sendFetch c) := hk.set.exec.send (hk.onCore h) hc (.rfl c) _ _
        unfold State.missStep at he
        split at he
        · cases he
          exact hsend.2
        · have ht := hk.bus.transport hsend
          dsimp only at he
          split at he
          · cases he
            exact ht.2
          · rename_i c2 hc2
            split at he
            · exact State.afterFetch_keeps hk.set (fun i s u hu => exec_keeps hk.set.exec hk.bus hu) ht hc2
                (.setDown c2 _) he |>.2
            · split at he
              · cases he
                exact (hk.set _ c2 _ ht hc2 (CoreState.ExecChanges.halt c2 _ _).toChanges).2
              · cases he
                exact ht.2
    · rw [State.idle_cases he]
      exact h

/-- `P` is kept by every event of Core `i`, a whole step of it included. -/
theorem CoreKeeps.perform {i : Nat} {P : State → Prop} (hk : CoreKeeps i P) {s t : State} {e : Event}
    (hi : e.isOf i = true) (h : P s) (he : s.perform e = .next t) : P t := by
  cases e <;> simp only [Event.isOf, beq_iff_eq, Bool.false_eq_true] at hi
  all_goals subst hi
  · exact hk.fullStep h he
  · exact hk.begin h he
  · exact hk.fetchResponse h he
  · exact hk.dataResponse h he
  · exact hk.disconnect h he

end Sys2Proof.Machine
end

