-- ==== Sys2Proof/Laws/Events.lean ====
section
/-! SUPPORT. What a fetch can do, from any state and on a quiet bus, and the induction principle over every step of the
Package. -/

namespace Sys2Proof.Machine

/-! ### Fetching -/

/-- A read request changes no word (R71, R72). -/
theorem Memory.serve_request_mem (m : Memory) (info : ErrInfo) (a : Word) (n : Count) :
    (m.serve info (.requestBlock a n)).1 = m := by
  simp only [Memory.serve]
  split <;> rfl

/-- What follows a fetch replaces the active Core whole. -/
theorem State.afterFetch_setCore (s : State) (d : CoreState) (k : Instr → State → Result) (c : CoreState) (a : Word)
    (m : CoreMsg) : (s.setCore s.active d).afterFetch k c a m = s.afterFetch k c a m := by
  have e : (s.setCore s.active d).setCore (s.setCore s.active d).active (c.fetched a m) =
      s.setCore s.active (c.fetched a m) := State.setCore_setCore s s.active d _
  unfold State.afterFetch
  dsimp only
  rw [e]

/-- A miss on a quiet bus: the Core takes the memory's answer to its fetch (R142). -/
theorem State.missStep_quiet {s : State} {c : CoreState} (q : s.Quiet c) :
    s.missStep c = { s with tick := s.tick + 1 }.afterFetch exec (c.setPhase (.awaitFetch (fetchAddr c))) (fetchAddr c)
      (s.mem.serve (Config.freeErrInfo s.tick) (.requestBlock (fetchAddr c) Config.windowCount)).2 := by
  have hlink : s.linkDown c = false := by simp [State.linkDown, q.linked, q.noFault]
  have hsend : s.sendFetch c = s.setCore s.active
      { c with up := [.requestBlock (fetchAddr c) Config.windowCount], phase := .awaitFetch (fetchAddr c) } := by
    simp [State.sendFetch, State.send, hlink, q.up]
  have hlone := State.transport_lone (s := s.sendFetch c)
    (c := { c with up := [.requestBlock (fetchAddr c) Config.windowCount], phase := .awaitFetch (fetchAddr c) })
    (msg := .requestBlock (fetchAddr c) Config.windowCount) (by rw [hsend]; exact State.setCore_get_self q.atActive) q.idOk rfl q.down
    q.memUp q.memDown q.noFault q.memLinked
  rw [hsend] at hlone
  simp only [State.setCore_mem, State.setCore_tick, State.setCore_active, State.setCore_setCore,
    Memory.serve_request_mem] at hlone
  have hcore : ({ c with up := [], down := [], phase := .awaitFetch (fetchAddr c) } : CoreState) =
      c.setPhase (.awaitFetch (fetchAddr c)) := by
    have h1 := q.up
    have h2 := q.down
    cases c
    simp_all [CoreState.setPhase]
  unfold State.missStep
  rw [hlink, hsend, hlone]
  simp only [Bool.false_eq_true, if_false]
  generalize hans : (s.mem.serve (Config.freeErrInfo s.tick) (.requestBlock (fetchAddr c) Config.windowCount)).2 = ans
  have hget : (s.cores.set s.active { c with up := [], down := [ans], phase := .awaitFetch (fetchAddr c) })[s.active]? =
      some { c with up := [], down := [ans], phase := .awaitFetch (fetchAddr c) } := State.setCore_get_self q.atActive
  simp only [State.setCore, hget, CoreState.setDown, hcore]
  exact State.afterFetch_setCore { s with tick := s.tick + 1 } _ _ _ _ _

/-- A block of the memory passes the test on the answer to the request for it (R66, R71). -/
theorem checkAnswer_block (m : Memory) {a : Word} {n : Nat} (h : u64 a + n ≤ 2 ^ 64) :
    checkAnswer a n (.giveBlock (m.block (u64 a) n)) = .words ((m.block (u64 a) n).map Prod.snd) := by
  simp [checkAnswer, Memory.block_contiguous _ _ _ h]

/-- A fetch answered by a block that does not fit halts the Core (R66, R146). -/
theorem CoreState.fetched_bad (c : CoreState) (a : Word) (m : CoreMsg)
    (h : ∀ es, m = .giveBlock es →
      ¬(es.length = 8 ∧ ∀ (k : Nat) (e : Entry), es[k]? = some e → u64 e.1 = u64 a + k)) :
    c.fetched a m = c.setPhase (badAnswerPhase m) := by
  unfold CoreState.fetched
  cases m with
  | error i => rfl
  | requestBlock x n => rfl
  | giveBlock es =>
    have hn : ¬ (es.length = 8 ∧ contiguousFrom (u64 a) es = true) := by
      rw [contiguousFrom_iff]
      exact h es rfl
    simp only [checkAnswer, hn, if_false]
    rfl

/-- The phase after a bad answer is a halt. -/
theorem badAnswerPhase_ne_ready (m : CoreMsg) : badAnswerPhase m ≠ .ready := by
  cases m <;> simp [badAnswerPhase]

/-- Word `k` of a window refilled with the block at its base is the memory's word `k` places on (R38, R71). -/
theorem Window.refill_block (m : Memory) (b : Word) (a k : Nat) (hk : k < 8) :
    (Window.refill b ((m.block a 8).map Prod.snd)).w[k]? = some (m.read (a + k)) := by
  simp only [Memory.block, Window.refill]
  interval_cases k <;> simp

/-! ### Every step -/

/-- Taking the next event changes the events to come and the counter only. -/
theorem State.nextEvent_keeps {P : State → Prop} (h : ∀ s x n, P s → P { s with sched := x, tick := n }) {s : State}
    (hs : P s) : P s.nextEvent.2 := by
  unfold State.nextEvent
  split
  · exact h s _ s.tick hs
  · exact h s s.sched _ hs

/-- `P` is kept by everything a step can be but the host's reset. -/
structure EventKeeps (P : State → Prop) : Prop where
  core : ∀ i, CoreKeeps i P
  bus : BusKeeps P
  rogue : ∀ s take writes answers, P s → P (s.memRogue take writes answers)
  linkLost : ∀ s i, P s → P (s.linkLost i)
  memLinkLost : ∀ s, P s → P s.memLinkLost
  run : ∀ s b, P s → P { s with runInput := b }
  take : ∀ s x n, P s → P { s with sched := x, tick := n }

/-- `P` is kept by everything a step can be. -/
structure StepKeeps (P : State → Prop) : Prop extends EventKeeps P where
  reset : ∀ s, P s → P s.applyReset

/-- What every event but the host's reset keeps, such an event keeps. -/
theorem EventKeeps.perform {P : State → Prop} (hk : EventKeeps P) {s t : State} {e : Event} (hne : e ≠ .hostReset)
    (h : P s) (he : s.perform e = .next t) : P t := by
  by_cases hc : ∃ i, e.isOf i = true
  · obtain ⟨i, hc⟩ := hc
    exact (hk.core i).perform hc h he
  · cases e <;> simp only [State.perform] at he
    all_goals try exact absurd ⟨_, beq_self_eq_true _⟩ hc
    all_goals try exact absurd rfl hne
    all_goals cases he
    · exact hk.bus.up _ _ h
    · exact hk.bus.down _ h
    · exact hk.bus.serve _ h
    · exact hk.rogue _ _ _ _ h
    · exact hk.linkLost _ _ h
    · exact hk.memLinkLost _ h
    · exact hk.run _ _ h

/-- What every event but the host's reset keeps, a step keeps whose event is another. -/
theorem EventKeeps.step {P : State → Prop} (hk : EventKeeps P) {s t : State} (hne : s.nextEvent.1 ≠ .hostReset) (h : P s)
    (he : step s = .next t) : P t :=
  hk.perform hne (State.nextEvent_keeps hk.take h) he

/-- What everything a step can be keeps, a step keeps. -/
theorem StepKeeps.step {P : State → Prop} (hk : StepKeeps P) {s t : State} (h : P s) (he : step s = .next t) : P t := by
  by_cases hr : s.nextEvent.1 = .hostReset
  · have h' := State.nextEvent_keeps hk.take h
    unfold Machine.step at he
    rw [hr] at he
    cases he
    exact hk.reset _ h'
  · exact hk.toEventKeeps.step hr h he

/-! ### Fairness -/

/-- Fairness to every agent is fairness to the Router. -/
theorem AgentsFair.router {σ : Nat → Event} {r : Nat → State} (h : AgentsFair σ r) : RouterFair σ r :=
  ⟨fun _ => h _, h _⟩

/-- An event that is enabled as long as `I` holds, where `I` holds until it is taken, is taken (R79, R226). -/
theorem WeaklyFair.taken {σ : Nat → Event} {r : Nat → State} {e : Event} (hf : WeaklyFair σ r e) {I : Nat → Prop}
    (hen : ∀ k, I k → (r k).enabled e) (hkeep : ∀ k, I k → σ k ≠ e → I (k + 1)) {n : Nat} (hn : I n) :
    ∃ k, n ≤ k ∧ I k ∧ σ k = e := by
  by_contra hno
  have hall : ∀ d, I (n + d) := by
    intro d
    induction d with
    | zero => exact hn
    | succ d ih => exact hkeep _ ih fun he => hno ⟨n + d, Nat.le_add_right n d, ih, he⟩
  obtain ⟨m, hm, hem⟩ := hf n
  have him : I m := by
    have h := hall (m - n)
    rwa [Nat.add_sub_cancel' hm] at h
  exact hno ⟨m, hm, him, hem (hen m him)⟩

/-- An agent's event that is not enabled changes nothing, or is called for in vain (R151, R208, R222, R223). -/
theorem State.perform_not_enabled {s : State} {e : Event} (ha : e.ofAgent = true) (h : ¬ s.enabled e) :
    s.perform e = .next s ∨ s.perform e = s.idle := by
  cases e with
  | fullStep i => cases ha
  | memRogue t w a => cases ha
  | linkLost i => cases ha
  | memLinkLost => cases ha
  | hostRun b => cases ha
  | hostReset => cases ha
  | routerUp i =>
    left
    rcases s.routerUp_cases i with e | ⟨c, m, rest, hc, hu, hf, _⟩
    · rw [State.perform, e]
    · exact absurd ⟨hf, c, hc, by rw [hu]; exact List.cons_ne_nil _ _⟩ h
  | routerDown =>
    left
    rcases s.routerDown_cases with e | ⟨t, m, rest, c, hd, hf, _⟩ | ⟨t, m, rest, hd, hf, _⟩
    · rw [State.perform, e]
    · exact absurd ⟨hf, by rw [hd]; exact List.cons_ne_nil _ _⟩ h
    · exact absurd ⟨hf, by rw [hd]; exact List.cons_ne_nil _ _⟩ h
  | memServe =>
    left
    rcases s.memServe_cases with e | ⟨t, m, rest, hu, hm, _⟩
    · rw [State.perform, e]
    · exact absurd ⟨hm, by rw [hu]; exact List.cons_ne_nil _ _⟩ h
  | begin i =>
    right
    simp only [State.perform, State.evBegin]
    split
    · rfl
    · rename_i c hc
      exact if_neg fun hr => h ⟨c, hc, hr.1, hr.2⟩
  | fetchResponse i =>
    right
    simp only [State.perform, State.evFetchResponse]
    split
    · rfl
    · rename_i c hc
      split
      · rename_i a m rest hp hd
        exact absurd ⟨c, a, hc, hp, by rw [hd]; exact List.cons_ne_nil _ _⟩ h
      · rfl
  | dataResponse i =>
    right
    simp only [State.perform, State.evDataResponse]
    split
    · rfl
    · rename_i c hc
      split
      · rfl
      · rename_i m rest hd
        exact if_neg fun hp => h ⟨c, hc, hp, by rw [hd]; exact List.cons_ne_nil _ _⟩
  | disconnect i =>
    right
    simp only [State.perform, State.evDisconnect]
    split
    · rfl
    · rename_i c hc
      exact if_neg fun hr => h ⟨c, hc, hr⟩

/-! ### Properties of each Core by itself -/

/-- `Q` holds of every Core and its index. -/
def AllCores (Q : Nat → CoreState → Prop) (s : State) : Prop := ∀ (i : Nat) (c : CoreState), s.cores[i]? = some c → Q i c

theorem AllCores.setCore {Q : Nat → CoreState → Prop} {s : State} (h : AllCores Q s) {i : Nat} {d : CoreState}
    (hd : Q i d) : AllCores Q (s.setCore i d) := by
  intro j e he
  by_cases hij : i = j
  · subst hij
    simp only [State.setCore_cores, List.getElem?_set, if_true] at he
    split at he
    · cases he
      exact hd
    · cases he
  · rw [State.setCore_get_other hij] at he
    exact h j e he

theorem AllCores.busKeeps {Q : Nat → CoreState → Prop}
    (hq : ∀ i c u d, Q i c → Q i { c with up := u, down := d }) : BusKeeps (AllCores Q) where
  up s k h := by
    rcases s.routerUp_cases k with e | ⟨c, m, rest, hc, _, _, e⟩ <;> rw [e]
    · exact h
    · exact h.setCore (hq k c rest c.down (h k c hc))
  serve s h := by
    intro i c hc
    rw [s.memServe_cores] at hc
    exact h i c hc
  down s h := by
    rcases s.routerDown_cases with e | ⟨k, m, rest, c, _, _, hc, e⟩ | ⟨_, _, _, _, _, _, e⟩ <;> rw [e]
    · exact h
    · exact h.setCore (hq k c c.up _ (h k c hc))
    · exact h

/-- A property of each Core that its queues and its input do not enter, that a Core's own changes keep and that reset
gives, is kept by every step. -/
theorem AllCores.stepKeeps {Q : Nat → CoreState → Prop} (hq : ∀ i c u d, Q i c → Q i { c with up := u, down := d })
    (hc : ∀ i c d, Q i c → c.Changes d → Q i d) (hd : ∀ i c, Q i c → Q i { c with disconnected := true })
    (hz : ∀ i, Q i (CoreState.reset i)) : StepKeeps (AllCores Q) where
  core i :=
    { set := fun s c d h hcc hch => ⟨h.1, h.2.setCore (hc _ _ _ (h.2 _ _ hcc) hch)⟩
      bus := (AllCores.busKeeps hq).onCore i
      active := fun _ h => h }
  bus := AllCores.busKeeps hq
  rogue s _ _ _ h := by
    unfold State.memRogue
    split <;> exact h
  linkLost s i h := by
    unfold State.linkLost
    split
    · exact h
    · exact h.setCore (hd _ _ (h _ _ (by assumption)))
  memLinkLost _ h := h
  run _ _ h := h
  reset s _ := by
    intro i c hcc
    rw [(State.resetOf_get (mem := s.mem).mp hcc).2]
    exact hz i
  take _ _ _ h := h

end Sys2Proof.Machine
end

