-- ==== Sys2Proof/Laws/PerInstr.lean ====
section
/-! SUPPORT. A statement made per instruction: the word an instruction encodes to is canonical (30_encoding R104, R113). -/

namespace Sys2Proof.Laws.Canonical

open Sys2Proof

/-- The encoding of `i` carries its family in the top nibble and zeros in every bit the instruction does not use (R113). -/
def Statement (i : Instr) : Prop :=
  i.WellFormed → ∃ w, encode i = some w ∧ bits w 63 60 = min i.op 7 ∧ unusedBitsZero i w = true

/-- The fields of an encoded word, from the line of R104 that it is. -/
theorem of_layout {i : Instr} {fam kind c1 low : Nat} (he : encodeFields i = layoutWord fam kind c1 low)
    (h1 : fam < 16) (h2 : kind < 16) (h3 : c1 < 16) (h4 : low < 2 ^ 52) (hf : fam = min i.op 7)
    (hu : ∀ w, bits w 59 56 = kind → bits w 55 52 = c1 → bits w 51 0 = low → unusedBitsZero i w = true) :
    Statement i := by
  intro hi
  obtain ⟨a, b, c, _, e⟩ := bits_layoutWord h1 h2 h3 h4
  exact ⟨layoutWord fam kind c1 low, by rw [encode, if_pos hi, he], a.trans hf, hu _ b c e⟩

/-- An address of a well-formed instruction is in range (R107). -/
theorem addr_lt {addr : Nat} (h : addrInRange addr = true) : addr < 2 ^ 52 := by
  simpa only [addrInRange, decide_eq_true_eq] using h

/-- The low bits of a two-register word (R103). -/
theorem low_of_code {w : Word} {q : Reg} (h : bits w 51 0 = q.code * 2 ^ 48) : bits w 47 0 = 0 := by
  have h' := bits_51_0 w
  have hb : bits w 47 0 < 2 ^ 48 := Nat.mod_lt _ (by norm_num)
  omega

theorem nop : Statement .nop :=
  of_layout (fam := 0) (kind := 0) (c1 := 0) (low := 0) rfl (by omega) (by omega) (by omega) (by omega) rfl
    fun w h1 h2 h3 => by simp [unusedBitsZero, bits_59_0, h1, h2, h3]

theorem add (r1 r2 : Reg) : Statement (.add r1 r2) := by
  have hr := r1.code_lt
  have hq := r2.code_lt
  exact of_layout (fam := 1) (kind := 0) (c1 := r1.code) (low := r2.code * 2 ^ 48) rfl (by omega) (by omega)
    (by omega) (by omega) rfl fun w h1 _ h3 => by simp [unusedBitsZero, h1, low_of_code h3]

theorem mul (r1 r2 : Reg) : Statement (.mul r1 r2) := by
  have hr := r1.code_lt
  have hq := r2.code_lt
  exact of_layout (fam := 2) (kind := 0) (c1 := r1.code) (low := r2.code * 2 ^ 48) rfl (by omega) (by omega)
    (by omega) (by omega) rfl fun w h1 _ h3 => by simp [unusedBitsZero, h1, low_of_code h3]

theorem load (r1 : Reg) (addr : Nat) : Statement (.load r1 addr) := by
  intro hi
  have hr := r1.code_lt
  exact of_layout (fam := 3) (kind := 0) (c1 := r1.code) (low := addr) rfl (by omega) (by omega) (by omega)
    (addr_lt hi) rfl (fun w h1 _ _ => by simp [unusedBitsZero, h1]) hi

theorem store (addr : Nat) (r1 : Reg) : Statement (.store addr r1) := by
  intro hi
  have hr := r1.code_lt
  exact of_layout (fam := 4) (kind := 0) (c1 := r1.code) (low := addr) rfl (by omega) (by omega) (by omega)
    (addr_lt hi) rfl (fun w h1 _ _ => by simp [unusedBitsZero, h1]) hi

theorem push (r1 : Reg) : Statement (.push r1) := by
  have hr := r1.code_lt
  exact of_layout (fam := 5) (kind := 0) (c1 := r1.code) (low := 0) rfl (by omega) (by omega) (by omega) (by omega) rfl
    fun w h1 _ h3 => by simp [unusedBitsZero, h1, h3]

theorem pop (r1 : Reg) : Statement (.pop r1) := by
  have hr := r1.code_lt
  exact of_layout (fam := 6) (kind := 0) (c1 := r1.code) (low := 0) rfl (by omega) (by omega) (by omega) (by omega) rfl
    fun w h1 _ h3 => by simp [unusedBitsZero, h1, h3]

theorem jumpIfZero (addr : Nat) : Statement (.jumpIfZero addr) := by
  intro hi
  exact of_layout (fam := 7) (kind := 1) (c1 := 0) (low := addr) rfl (by omega) (by omega) (by omega) (addr_lt hi) rfl
    (fun w _ h2 _ => by simp [unusedBitsZero, h2]) hi

theorem jumpIfPositive (addr : Nat) : Statement (.jumpIfPositive addr) := by
  intro hi
  exact of_layout (fam := 7) (kind := 2) (c1 := 0) (low := addr) rfl (by omega) (by omega) (by omega) (addr_lt hi) rfl
    (fun w _ h2 _ => by simp [unusedBitsZero, h2]) hi

theorem jumpIfNegative (addr : Nat) : Statement (.jumpIfNegative addr) := by
  intro hi
  exact of_layout (fam := 7) (kind := 3) (c1 := 0) (low := addr) rfl (by omega) (by omega) (by omega) (addr_lt hi) rfl
    (fun w _ h2 _ => by simp [unusedBitsZero, h2]) hi

end Sys2Proof.Laws.Canonical
end

