-- ==== Sys2Proof/Tests/Slice0.lean ====
section
/-! SUPPORT. Tests of one step each, with results taken from the worked vectors of 95_test_vectors, and for every
obligation a concrete state that meets its hypotheses. -/

namespace Sys2Proof.Tests

open Sys2Proof Sys2Proof.Machine

/-! ## Well-formedness: an ill-formed term for each address form is refused (R107) -/

theorem test_wf_load : (Instr.load .a (2 ^ 52)).wellFormed = false := by decide
theorem test_wf_store : (Instr.store (2 ^ 52) .a).wellFormed = false := by decide
theorem test_wf_jumpIfZero : (Instr.jumpIfZero (2 ^ 52)).wellFormed = false := by decide
theorem test_wf_jumpIfPositive : (Instr.jumpIfPositive (2 ^ 52)).wellFormed = false := by decide
theorem test_wf_jumpIfNegative : (Instr.jumpIfNegative (2 ^ 52)).wellFormed = false := by decide
theorem test_wf_refused_by_encode : encode (.load .a (2 ^ 52)) = none ∧ encode (.jumpIfZero (2 ^ 52)) = none := by decide
theorem test_wf_top_address : (Instr.store (2 ^ 52 - 1) .ip).wellFormed = true := by decide

/-! ## Decoding: words put together bit by bit from R102 to R104 (vector 2.1) -/

/-- family 0000, everything else unused -/
theorem test_decode_nop :
    decode 0b0000000000000000000000000000000000000000000000000000000000000000#64 = .ok .nop := by decide
/-- family 0001, kind 0000, register codes 0110 (IP) and 0000 (A) -/
theorem test_decode_add :
    decode 0b0001000001100000000000000000000000000000000000000000000000000000#64 = .ok (.add .ip .a) := by decide
/-- family 0010, register codes 0101 (BP) and 0100 (SP) -/
theorem test_decode_mul :
    decode 0b0010000001010100000000000000000000000000000000000000000000000000#64 = .ok (.mul .bp .sp) := by decide
/-- family 0011, register code 0001 (B), address 10000 -/
theorem test_decode_load :
    decode 0b0011000000010000000000000000000000000000000000000000000000010000#64 = .ok (.load .b 16) := by decide
/-- family 0100, register code 0010 (C), address 10011 -/
theorem test_decode_store :
    decode 0b0100000000100000000000000000000000000000000000000000000000010011#64 = .ok (.store 19 .c) := by decide
/-- family 0101, register code 0011 (D) -/
theorem test_decode_push :
    decode 0b0101000000110000000000000000000000000000000000000000000000000000#64 = .ok (.push .d) := by decide
/-- family 0110, register code 0110 (IP) -/
theorem test_decode_pop :
    decode 0b0110000001100000000000000000000000000000000000000000000000000000#64 = .ok (.pop .ip) := by decide
/-- family 0111, kind 0001, address 100000 -/
theorem test_decode_jumpIfZero :
    decode 0b0111000100000000000000000000000000000000000000000000000000100000#64 = .ok (.jumpIfZero 32) := by decide
/-- family 0111, kind 0010, address 1100 -/
theorem test_decode_jumpIfPositive :
    decode 0b0111001000000000000000000000000000000000000000000000000000001100#64 = .ok (.jumpIfPositive 12) := by decide
/-- family 0111, kind 0011, all 52 address bits set -/
theorem test_decode_jumpIfNegative :
    decode 0b0111001100001111111111111111111111111111111111111111111111111111#64 =
      .ok (.jumpIfNegative 0xFFFFFFFFFFFFF) := by decide

/-- The illegal words of vector 2.1, family before kind before register. -/
theorem test_decode_illegal :
    [0x8070000000000000#64, 0x7000000000000000#64, 0x7400000000000000#64, 0xFFFFFFFFFFFFFFFD#64].all
        (fun w => decode w == .err .unknownOpcode) = true ∧
      [0x1070000000000000#64, 0x1007000000000000#64, 0x2068000000000000#64, 0x40F0000000000001#64,
        0x6080000000000000#64].all (fun w => decode w == .err .unknownRegister) = true := by decide

/-- Unused bits under both settings of `STRICT_UNUSED_BITS` (vector 2.1, third table). -/
theorem test_decode_unused_bits :
    decode 0x1F01000000000000#64 = .ok (.add .a .b) ∧ decode 0x72F0000000000003#64 = .ok (.jumpIfPositive 3) ∧
      decode 0x3007000000000000#64 = .ok (.load .a 0x7000000000000) ∧
      decodeWith true 0x1F01000000000000#64 = .err .unknownOpcode ∧
      decodeWith true 0x3007000000000000#64 = .ok (.load .a 0x7000000000000) := by decide

/-- Encoding right to left (vector 2.1). -/
theorem test_encode :
    encode (.add .d .c) = some 0x1032000000000000#64 ∧ encode (.mul .b .b) = some 0x2011000000000000#64 ∧
      encode (.store 0xFFFFFFFFFFFFF .ip) = some 0x406FFFFFFFFFFFFF#64 ∧
      encode (.jumpIfPositive 3) = some 0x7200000000000003#64 := by decide

theorem test_decodeTableWord :
    decodeTableWord 64 0x5040000000000000 = some (.push .sp) ∧ decodeTableWord 64 0x8000000000000000 = none := by decide

/-! ## One step on a small state -/

/-- Registers from A, B, SP and IP; the others zero. -/
def regs4 (a b sp ip : Word) : Regs := { a := a, b := b, c := 0, d := 0, sp := sp, bp := 0, ip := ip }

/-- Flags as the vectors write them, `Z S O C`. -/
def flags4 (z s o c : Bool) : Flags := { z := z, s := s, o := o, c := c }

/-- All flags clear. -/
def noFlags : Flags := flags4 false false false false

/-- A Core after reset but for registers and flags. -/
def coreOf (x : Regs) (f : Flags) : CoreState := { CoreState.reset 0 with regs := x, flags := f }

/-- A Package of that one Core. -/
def one (x : Regs) (f : Flags) (m : Memory) : State := { State.resetOf 1 m with cores := [coreOf x f] }

/-- The same, the Core in phase `p` with `d` delivered to it. -/
def waiting (x : Regs) (f : Flags) (p : Phase) (d : List CoreMsg) : State :=
  { State.resetOf 1 [] with cores := [{ coreOf x f with phase := p, down := d }] }

/-- What is read off the state an outcome gives. -/
def see {α : Type} (f : State → Option α) : Result → Option α
  | .next t => f t
  | .fault _ => none
  | .refused _ => none

/-- Register `r` of Core 0. -/
def reg0 (r : Reg) : Result → Option Word := see fun t => t.cores[0]?.map fun c => c.reg r

/-- The flags of Core 0. -/
def flags0 : Result → Option Flags := see fun t => t.cores[0]?.map fun c => c.flags

/-- The cause output of Core 0 (R153). -/
def cause0 : Result → Option Nat := see fun t => t.cores[0]?.map fun c => c.causeOut

/-- The word at `a` in the memory. -/
def word (a : Nat) : Result → Option Word := see fun t => some (t.mem.read a)

/-- `Add(A,B)`, `I64_MAX + 1` (vectors 1.3, 2.2). -/
theorem test_add_wraps :
    reg0 .a (exec (.add .a .b) (one (regs4 i64Max 1 0 0) noFlags [])) = some i64Min ∧
      flags0 (exec (.add .a .b) (one (regs4 i64Max 1 0 0) noFlags [])) = some (flags4 false true true true) := by decide

/-- `Add(IP,A)` at word 1 with A = 5: IP = 7 (vector 2.6). -/
theorem test_add_ip :
    reg0 .ip (exec (.add .ip .a) (one (regs4 5 0 0 1) noFlags [])) = some 7 := by decide

/-- `Mul`, `2^32 * 2^31` does not fit (vector 2.3). -/
theorem test_mul_overflows :
    reg0 .a (exec (.mul .a .b) (one (regs4 0x100000000 0x80000000 0 0) noFlags [])) = some i64Min ∧
      flags0 (exec (.mul .a .b) (one (regs4 0x100000000 0x80000000 0 0) noFlags [])) =
        some (flags4 false true true true) := by decide

/-- `Mul`, `-2^32 * 2^31` fits (vector 2.3). -/
theorem test_mul_fits :
    flags0 (exec (.mul .a .b) (one (regs4 0xFFFFFFFF00000000 0x80000000 0 0) noFlags [])) =
      some (flags4 false true false false) := by decide

/-- `Load(A,18)` of 0 clears O and C and sets Z (vector 2.4). -/
theorem test_load_zero :
    flags0 (exec (.load .a 18) (one (regs4 9 0 0 0) (flags4 false true true true) [])) =
      some (flags4 true false false false) := by decide

/-- `Load(IP,8)` with 100 there: IP = 101 (vector 2.6). -/
theorem test_load_ip :
    reg0 .ip (exec (.load .ip 8) (one (regs4 0 0 0 0) noFlags [(8, 100)])) = some 101 := by decide

/-- `Store(1,A)` of -5 (vector 2.4). -/
theorem test_store_negative :
    word 1 (exec (.store 1 .a) (one (regs4 (-5) 0 0 0) noFlags [])) = some (-5) ∧
      flags0 (exec (.store 1 .a) (one (regs4 (-5) 0 0 0) noFlags [])) = some (flags4 false true false false) := by decide

/-- `Store(2^52-1,IP)` at word 2 stores 2 (vector 2.4). -/
theorem test_store_ip :
    word (2 ^ 52 - 1) (exec (.store (2 ^ 52 - 1) .ip) (one (regs4 0 0 0 2) noFlags [])) = some 2 := by decide

/-- `Push(SP)` with SP = 20 stores 19 at 19 (vector 2.5, D9). -/
theorem test_push_sp :
    word 19 (exec (.push .sp) (one (regs4 0 0 20 0) noFlags [])) = some 19 ∧
      reg0 .sp (exec (.push .sp) (one (regs4 0 0 20 0) noFlags [])) = some 19 := by decide

/-- `Push(A)` with SP = 0 is refused: `MemoryError`, SP = -1, IP unchanged (vector 2.5). -/
theorem test_push_refused :
    cause0 (exec (.push .a) (one (regs4 0 0 0 0) noFlags [])) = some 6 ∧
      reg0 .sp (exec (.push .a) (one (regs4 0 0 0 0) noFlags [])) = some (-1) ∧
      reg0 .ip (exec (.push .a) (one (regs4 0 0 0 0) noFlags [])) = some 0 := by decide

/-- `Pop(SP)` with SP = 20 and 77 there: SP = 77 (vector 2.5, D10). -/
theorem test_pop_sp :
    reg0 .sp (exec (.pop .sp) (one (regs4 0 0 20 0) noFlags [(20, 77)])) = some 77 := by decide

/-- SP = -2 under a memory that breaks its contract: `StackUnderflow`, SP unchanged (vector 2.5). -/
theorem test_pop_underflow :
    cause0 ((waiting (regs4 0 0 (-2) 0) noFlags (.awaitPop .b (-2)) [.giveBlock [(-2, 7)]]).perform (.dataResponse 0)) =
        some 5 ∧
      reg0 .sp ((waiting (regs4 0 0 (-2) 0) noFlags (.awaitPop .b (-2)) [.giveBlock [(-2, 7)]]).perform
        (.dataResponse 0)) = some (-2) := by decide

/-- The table of vector 2.6, the jump at word 5. -/
theorem test_jumpIfZero :
    reg0 .ip (exec (.jumpIfZero 32) (one (regs4 0 0 0 5) (flags4 true false true true) [])) = some 32 ∧
      reg0 .ip (exec (.jumpIfZero 32) (one (regs4 0 0 0 5) noFlags [])) = some 6 := by decide
theorem test_jumpIfPositive :
    reg0 .ip (exec (.jumpIfPositive 32) (one (regs4 0 0 0 5) (flags4 true false false false) [])) = some 32 ∧
      reg0 .ip (exec (.jumpIfPositive 32) (one (regs4 0 0 0 5) (flags4 false true true true) [])) = some 6 := by decide
theorem test_jumpIfNegative :
    reg0 .ip (exec (.jumpIfNegative 32) (one (regs4 0 0 0 5) (flags4 false true false false) [])) = some 32 ∧
      reg0 .ip (exec (.jumpIfNegative 32) (one (regs4 0 0 0 5) noFlags [])) = some 6 := by decide

/-- `Nop` at word 3: IP = 4 and the flags stay (vectors 2.6, 2.7 row a). -/
theorem test_nop :
    reg0 .ip (exec .nop (one (regs4 0 0 0 3) (flags4 true false true true) [])) = some 4 ∧
      flags0 (exec .nop (one (regs4 0 0 0 3) (flags4 true false true true) [])) = some (flags4 true false true true) := by
  decide

/-- Both settings of the parameters the vectors switch (2.7 row a, 44_jump_nop R192, 43_stack R182). -/
theorem test_parameters :
    noResultFlags .cleared (flags4 true false true true) = noFlags ∧
      positiveTaken true (flags4 true false false false) = false ∧
      positiveTaken false (flags4 true false false false) = true ∧
      popFlags false 0 noFlags = noFlags ∧ stepAllowed .gated false = false ∧ stepAllowed .free false = true := by decide

/-! ## The step, the window and the Router -/

/-- A window with base 100 and words 0 to 7 (vectors 1.5, 2.8). -/
def win100 : Window := Window.refill 100 [0, 1, 2, 3, 4, 5, 6, 7]

theorem test_window :
    win100.lookup 107 = some 7 ∧ win100.lookup 108 = none ∧ win100.lookup 100 = some 0 ∧ win100.lookup 99 = none ∧
      Window.reset.lookup 0 = none := by decide

/-- No wrap-round past `2^64` (vector 2.8, last row). -/
theorem test_window_no_wrap : (Window.refill (-8) [0, 1, 2, 3, 4, 5, 6, 7]).lookup 0 = none := by decide

/-- The first step from reset with `Push(A)` placed at word 0 (vector 2.9). -/
theorem test_first_step_push :
    cause0 (step (State.reset.withFetchWord 64 0x5000000000000000)) = some 6 ∧
      reg0 .sp (step (State.reset.withFetchWord 64 0x5000000000000000)) = some (-1) := by decide

/-- A word that does not decode halts with code 1, IP unchanged (vector 2.9). -/
theorem test_first_step_illegal :
    cause0 (step (State.reset.withFetchWord 64 0x8000000000000000)) = some 1 ∧
      reg0 .ip (step (State.reset.withFetchWord 64 0x8000000000000000)) = some 0 := by decide

/-- A fetch answered with seven entries is malformed (vector 2.8). -/
theorem test_fetch_seven :
    cause0 ((waiting (regs4 0 0 0 100) noFlags (.awaitFetch 100) [.giveBlock ([100, 101, 102, 103, 104, 105, 106].map
      fun a => (a, 0))]).perform (.fetchResponse 0)) = some 4 := by decide

/-- `AwaitStore(19, 6)`: the echoed word is not looked at, the address is (vector 2.4). -/
theorem test_store_echo :
    cause0 ((waiting (regs4 0 0 0 0) noFlags (.awaitStore 19 6) [.giveBlock [(19, 0)]]).perform (.dataResponse 0)) =
        some 0 ∧
      cause0 ((waiting (regs4 0 0 0 0) noFlags (.awaitStore 19 6) [.giveBlock [(18, 6)]]).perform (.dataResponse 0)) =
        some 4 := by decide

/-- `TAG_BITS` for 1, 2, 3, 4, 5, 8 and 9 Cores (R7). -/
theorem test_tagBits : [1, 2, 3, 4, 5, 8, 9].map tagBits = [1, 1, 2, 2, 3, 3, 4] := by decide

/-- The port of three Cores carries the tag 3, that of two its low bit (R69). -/
theorem test_tag_port :
    ((State.resetOf 3 []).memRogue false [] [(3, .giveBlock [(16, 3)])]).memDown = [(3, .giveBlock [(16, 3)])] ∧
      ((State.resetOf 2 []).memRogue false [] [(3, .giveBlock [(16, 3)])]).memDown = [(1, .giveBlock [(16, 3)])] := by
  decide

/-- A tag of no Core sets `router_fault` (vector 2.11). -/
theorem test_router_bad_tag :
    see (fun t => some t.routerFault)
      ({ State.resetOf 2 [] with memDown := [(3, .giveBlock [(16, 3)])] }.perform .routerDown) = some true := by decide

/-! ## The hypotheses of every obligation are met: one concrete state for each, clause by clause -/

/-- A Package of one Core after reset but for registers, flags and memory is quiet. -/
theorem one_quiet (x : Regs) (f : Flags) (m : Memory) : (one x f m).Quiet (coreOf x f) :=
  ⟨rfl, rfl, rfl, rfl, rfl, rfl, rfl, rfl, rfl⟩

/-- All registers zero. -/
def zeros : Regs := regs4 0 0 0 0

/-- The Core after reset but for SP. -/
def spCore (sp : Word) : CoreState := coreOf (regs4 7 0 sp 0) noFlags

/-- Its Package. -/
def spState (sp : Word) : State := one (regs4 7 0 sp 0) noFlags []

/-- A Core that waits in phase `p` with `m` delivered. -/
def waitCore (sp : Word) (p : Phase) (m : CoreMsg) : CoreState :=
  { coreOf (regs4 7 0 sp 0) noFlags with phase := p, down := [m] }

/-- Its Package. -/
def waitState (sp : Word) (p : Phase) (m : CoreMsg) : State := waiting (regs4 7 0 sp 0) noFlags p [m]

/-- A Core whose channel is gone. -/
def cutCore : CoreState := { coreOf zeros noFlags with disconnected := true }

/-- Its Package. -/
def cutState : State := { State.resetOf 1 [] with cores := [cutCore] }

/-- A Package of one Core and the event that comes next. -/
def nextIs (e : Event) (x : Regs) (m : Memory) : State := { one x noFlags m with sched := [e] }

/-- A Core with IP in its window, over the word `w`. -/
def hitCore (w : Word) : CoreState :=
  { coreOf zeros noFlags with win := Window.refill 0 [w, 0, 0, 0, 0, 0, 0, 0] }

/-- Its Package. -/
def hitState (w : Word) : State := { State.resetOf 1 [] with cores := [hitCore w] }

/-- A halted Core. -/
def deadCore : CoreState := { coreOf zeros noFlags with phase := .halted .unknownOpcode (.fetched 0x8000000000000000 0) }

/-- Two Cores, the first halted, and the event that comes next. -/
def deadState (e : Event) : State :=
  { State.resetOf 2 [] with cores := [deadCore, CoreState.reset 1], sched := [e] }

theorem test_meets_EncodeDecodeRoundTrip :
    (Instr.load .ip (2 ^ 52 - 1)).WellFormed ∧ decode 0x1F01000000000000#64 = .ok (.add .a .b) := by decide

theorem test_meets_OpcodeTableSelects :
    (⟨8, 0x7200000000000000#64, 0xFF00000000000000#64⟩ : OpcodeRow) ∈ opcodeTable ∧
      (⟨8, 0x7200000000000000#64, 0xFF00000000000000#64⟩ : OpcodeRow).selects 0x720000000000000C#64 = true ∧
      (opcodeTable.all fun row => !row.selects 0x7400000000000000#64) = true := by decide

theorem test_meets_DecoderBlockOutputs : decode 0x2023000000000000#64 = .ok (.mul .c .d) := by decide

theorem test_meets_AddRule :
    (bits 0x1060000000000000#64 63 60 = 1 ∧ bits 0x1060000000000000#64 55 52 = Reg.ip.code ∧
        bits 0x1060000000000000#64 51 48 = Reg.a.code) ∧
      (one (regs4 i64Max 1 0 0) noFlags []).cores[0]? = some (coreOf (regs4 i64Max 1 0 0) noFlags) ∧
      (coreOf (regs4 i64Max 1 0 0) noFlags).phase = .ready := by decide

theorem test_meets_MulRule :
    (bits 0x2054000000000000#64 63 60 = 2 ∧ bits 0x2054000000000000#64 55 52 = Reg.bp.code ∧
        bits 0x2054000000000000#64 51 48 = Reg.sp.code) ∧
      (one (regs4 i64Min (-1) 0 0) noFlags []).cores[0]? = some (coreOf (regs4 i64Min (-1) 0 0) noFlags) ∧
      (coreOf (regs4 i64Min (-1) 0 0) noFlags).phase = .ready := by decide

/-- Zero with overflow: both clauses of a jump have a state. -/
theorem test_meets_JumpIfZeroRule :
    (bits 0x7100000000000020#64 63 60 = 7 ∧ bits 0x7100000000000020#64 59 56 = 1) ∧
      (one zeros (flags4 true false true true) []).cores[0]? = some (coreOf zeros (flags4 true false true true)) ∧
      (one zeros noFlags []).cores[0]? = some (coreOf zeros noFlags) ∧
      (coreOf zeros (flags4 true false true true)).phase = .ready ∧ (coreOf zeros noFlags).phase = .ready := by decide

theorem test_meets_JumpIfPositiveRule :
    (bits 0x720000000000000C#64 63 60 = 7 ∧ bits 0x720000000000000C#64 59 56 = 2) ∧
      (one zeros (flags4 true false false false) []).cores[0]? = some (coreOf zeros (flags4 true false false false)) ∧
      (one zeros (flags4 false true false false) []).cores[0]? = some (coreOf zeros (flags4 false true false false)) ∧
      (coreOf zeros (flags4 false true false false)).phase = .ready := by decide

theorem test_meets_JumpIfNegativeRule :
    (bits 0x730FFFFFFFFFFFFF#64 63 60 = 7 ∧ bits 0x730FFFFFFFFFFFFF#64 59 56 = 3) ∧
      (one zeros (flags4 false true true true) []).cores[0]? = some (coreOf zeros (flags4 false true true true)) ∧
      (coreOf zeros (flags4 false true true true)).phase = .ready := by decide

theorem test_meets_NopRule :
    bits 0x0FFFFFFFFFFFFFFF#64 63 60 = 0 ∧ State.reset.cores[State.reset.active]? = some (CoreState.reset 0) ∧
      (CoreState.reset 0).phase = .ready := by decide

theorem test_meets_JumpPairIsUnconditional :
    (one zeros (flags4 false true false false) []).cores[0]? = some (coreOf zeros (flags4 false true false false)) ∧
      (one zeros noFlags []).cores[0]? = some (coreOf zeros noFlags) ∧ (coreOf zeros noFlags).phase = .ready := by decide

/-- The quiet bus and the highest address; the answer that fits; each kind of answer that does not; both ways the channel
can be gone. -/
theorem test_meets_LoadRule :
    ((one zeros noFlags [(2 ^ 52 - 1, 7)]).Quiet (coreOf zeros noFlags) ∧ 2 ^ 52 - 1 < 2 ^ 52) ∧
      (waitState 0 (.awaitLoad .b 16) (.giveBlock [(16, 3)])).cores[0]? =
        some (waitCore 0 (.awaitLoad .b 16) (.giveBlock [(16, 3)])) ∧
      ((∀ w, CoreMsg.giveBlock [(17, 3)] ≠ .giveBlock [(16, w)]) ∧ (∀ w, CoreMsg.giveBlock [] ≠ .giveBlock [(16, w)]) ∧
        (∀ w, CoreMsg.requestBlock 16 Config.oneCount ≠ .giveBlock [(16, w)]) ∧ ∀ w, CoreMsg.error ⟨0⟩ ≠ .giveBlock [(16, w)]) ∧
      (cutState.cores[cutState.active]? = some cutCore ∧ cutCore.phase = .ready ∧ cutCore.disconnected = true) ∧
      { cutState with routerFault := true }.routerFault = true := by
  refine ⟨⟨one_quiet _ _ _, by decide⟩, by decide, ⟨?_, ?_, ?_, ?_⟩, by decide, rfl⟩ <;> intro w <;> simp

/-- The issue clause and the clause of a channel gone during the wait, of all four memory instructions. -/
theorem test_meets_issue_and_wait_clauses :
    (spState 5).cores[(spState 5).active]? = some (spCore 5) ∧ (spCore 5).phase = .ready ∧
      (spCore 5).disconnected = false ∧ (spState 5).routerFault = false ∧
      [Phase.awaitLoad .a 16, .awaitStore 19 6, .awaitPush 4 9, .awaitPop .b 31].all (fun p =>
        ({ waitState 0 p (.giveBlock []) with routerFault := true } : State).cores[0]? ==
          some (waitCore 0 p (.giveBlock []))) = true := by decide

theorem test_meets_StoreRule :
    ((one zeros noFlags []).Quiet (coreOf zeros noFlags) ∧ 2 ^ 52 - 1 < 2 ^ 52 ∧ (one zeros noFlags []).MemOk) ∧
      (waitState 0 (.awaitStore 19 6) (.giveBlock [(19, 0)])).cores[0]? =
        some (waitCore 0 (.awaitStore 19 6) (.giveBlock [(19, 0)])) ∧
      (∀ w, CoreMsg.giveBlock [(18, 6)] ≠ .giveBlock [(19, w)]) ∧
      cutState.cores[cutState.active]? = some cutCore ∧ cutCore.phase = .ready ∧ cutCore.disconnected = true := by
  refine ⟨⟨one_quiet _ _ _, by decide, by rfl⟩, by decide, ?_, by decide⟩
  intro w
  simp

/-- SP = `2^52` is the last that is served, SP = 0 and `2^52 + 1` are refused. -/
theorem test_meets_PushRule :
    ((spState 0x10000000000000).Quiet (spCore 0x10000000000000) ∧ u64 ((spCore 0x10000000000000).reg .sp - 1) < 2 ^ 52 ∧
        (spState 0x10000000000000).MemOk) ∧
      ((spState 0).Quiet (spCore 0) ∧ 2 ^ 52 ≤ u64 ((spCore 0).reg .sp - 1)) ∧
      ((spState 0x10000000000001).Quiet (spCore 0x10000000000001) ∧
        2 ^ 52 ≤ u64 ((spCore 0x10000000000001).reg .sp - 1)) ∧
      (waitState 4 (.awaitPush 4 9) (.giveBlock [(4, 9)])).cores[0]? =
        some (waitCore 4 (.awaitPush 4 9) (.giveBlock [(4, 9)])) ∧
      (∀ w, CoreMsg.giveBlock [(3, 9)] ≠ .giveBlock [(4, w)]) ∧
      cutState.cores[cutState.active]? = some cutCore ∧ cutCore.phase = .ready ∧ cutCore.disconnected = true := by
  refine ⟨⟨one_quiet _ _ _, by decide, by rfl⟩, ⟨one_quiet _ _ _, by decide⟩, ⟨one_quiet _ _ _, by decide⟩, by decide,
    ?_, by decide⟩
  intro w
  simp

/-- SP = `2^52 - 1` is the last that is served; with an answer in hand, SP = `I64_MAX` fails the test and SP = -1
passes it. -/
theorem test_meets_PopRule :
    ((spState 0xFFFFFFFFFFFFF).Quiet (spCore 0xFFFFFFFFFFFFF) ∧ u64 ((spCore 0xFFFFFFFFFFFFF).reg .sp) < 2 ^ 52) ∧
      ((spState 0x10000000000000).Quiet (spCore 0x10000000000000) ∧
        2 ^ 52 ≤ u64 ((spCore 0x10000000000000).reg .sp)) ∧
      ((waitState i64Max (.awaitPop .b i64Max) (.giveBlock [(i64Max, 7)])).cores[0]? =
          some (waitCore i64Max (.awaitPop .b i64Max) (.giveBlock [(i64Max, 7)])) ∧
        s64 ((waitCore i64Max (.awaitPop .b i64Max) (.giveBlock [(i64Max, 7)])).reg .sp + 1) < 0) ∧
      ¬ s64 ((waitCore (-1) (.awaitPop .b (-1)) (.giveBlock [(-1, 7)])).reg .sp + 1) < 0 ∧
      (∀ w, CoreMsg.giveBlock [(32, 9)] ≠ .giveBlock [(31, w)]) ∧
      cutState.cores[cutState.active]? = some cutCore ∧ cutCore.phase = .ready ∧ cutCore.disconnected = true := by
  refine ⟨⟨one_quiet _ _ _, by decide⟩, ⟨one_quiet _ _ _, by decide⟩, by decide, by decide, ?_, by decide⟩
  intro w
  simp

/-- The values of SP on both sides of each case, with an answer in hand. -/
theorem test_meets_PopTestFailsExactly :
    [-2, -1, i64Max, i64Max - 1].all (fun sp =>
      (waitState sp (.awaitPop .b sp) (.giveBlock [(sp, 7)])).cores[0]? ==
        some (waitCore sp (.awaitPop .b sp) (.giveBlock [(sp, 7)]))) = true := by decide

/-- Both ends of the range of SP. -/
theorem test_meets_PushPopRoundTrip :
    ((spState 1).Quiet (spCore 1) ∧ (spState 1).MemOk ∧ 1 ≤ u64 ((spCore 1).reg .sp)) ∧
      (spState 0x10000000000000).Quiet (spCore 0x10000000000000) ∧
      u64 ((spCore 0x10000000000000).reg .sp) ≤ 2 ^ 52 ∧ Reg.a ≠ .sp ∧ Reg.ip ≠ Reg.sp :=
  ⟨⟨one_quiet _ _ _, by rfl, by decide⟩, one_quiet _ _ _, by decide, by decide, by decide⟩

theorem test_meets_RegisterInstrFrame :
    (∃ t, exec (.add .a .b) State.reset = .next t) ∧ (∃ t, exec .nop State.reset = .next t) ∧
      ∃ t, exec (.jumpIfZero 4) State.reset = .next t := ⟨⟨_, rfl⟩, ⟨_, rfl⟩, ⟨_, rfl⟩⟩

/-- No write is in flight on a quiet bus. -/
theorem one_noWrite (x : Regs) (f : Flags) (m : Memory) (a : Nat) : (one x f m).NoWriteInFlight (coreOf x f) a :=
  ⟨fun _ h => (List.not_mem_nil h).elim, fun _ h => (List.not_mem_nil h).elim⟩

theorem test_meets_ReadInstrFrame :
    (spState 5).MemOk ∧ (∃ t, exec (.load .a 16) (spState 5) = .next t) ∧ (∃ t, exec (.pop .b) (spState 5) = .next t) ∧
      (spState 5).NoWriteInFlight (spCore 5) 16 := ⟨by rfl, ⟨_, rfl⟩, ⟨_, rfl⟩, one_noWrite _ _ _ _⟩

theorem test_meets_StoreFrame :
    (spState 5).MemOk ∧ (∃ t, exec (.store 16 .a) (spState 5) = .next t) ∧ 17 ≠ u64 (absoluteAddr 16) ∧
      (spState 5).NoWriteInFlight (spCore 5) 17 := ⟨by rfl, ⟨_, rfl⟩, by decide, one_noWrite _ _ _ _⟩

theorem test_meets_PushFrame :
    (spState 5).MemOk ∧ (∃ t, exec (.push .a) (spState 5) = .next t) ∧ 5 ≠ u64 (pushAddr (spCore 5)) ∧
      (spState 5).NoWriteInFlight (spCore 5) 5 := ⟨by rfl, ⟨_, rfl⟩, by decide, one_noWrite _ _ _ _⟩

theorem test_meets_StepRunsDecodedOnHit :
    ({ hitState 0x1001000000000000 with sched := [.fullStep 0] } : State).nextEvent =
        (.fullStep 0, hitState 0x1001000000000000) ∧
      (hitState 0x1001000000000000).cores[0]? = some (hitCore 0x1001000000000000) ∧
      (hitCore 0x1001000000000000).win.lookup ((hitCore 0x1001000000000000).reg .ip) = some 0x1001000000000000 ∧
      decode 0x1001000000000000 = .ok (.add .a .b) := by decide

/-- The last IP whose eight words are in the memory. -/
theorem test_meets_StepRunsDecodedOnMiss :
    (nextIs (.fullStep 0) (regs4 0 0 0 0xFFFFFFFFFFFF8) []).nextEvent =
        (.fullStep 0, one (regs4 0 0 0 0xFFFFFFFFFFFF8) noFlags []) ∧
      (one (regs4 0 0 0 0xFFFFFFFFFFFF8) noFlags []).Quiet (coreOf (regs4 0 0 0 0xFFFFFFFFFFFF8) noFlags) ∧
      (coreOf (regs4 0 0 0 0xFFFFFFFFFFFF8) noFlags).win.lookup 0xFFFFFFFFFFFF8 = none ∧
      u64 ((coreOf (regs4 0 0 0 0xFFFFFFFFFFFF8) noFlags).reg .ip) + 8 ≤ 2 ^ 52 ∧
      decode ((one (regs4 0 0 0 0xFFFFFFFFFFFF8) noFlags []).mem.read 0xFFFFFFFFFFFF8) = .ok .nop :=
  ⟨by decide, one_quiet _ _ _, by decide, by decide, by decide⟩

theorem test_meets_DecodeErrorHalts :
    ({ hitState 0x8000000000000000 with sched := [.begin 0] } : State).nextEvent =
        (.begin 0, hitState 0x8000000000000000) ∧
      ({ hitState 0x8000000000000000 with sched := [.fullStep 0] } : State).nextEvent =
        (.fullStep 0, hitState 0x8000000000000000) ∧
      (hitCore 0x8000000000000000).win.lookup ((hitCore 0x8000000000000000).reg .ip) = some 0x8000000000000000 ∧
      decode 0x8000000000000000 = .err .unknownOpcode := by decide

/-- The last IP that is fetched, over a word that does not decode. -/
theorem test_meets_DecodeErrorHalts_miss :
    (nextIs (.fullStep 0) (regs4 0 0 0 0xFFFFFFFFFFFF8) [(0xFFFFFFFFFFFF8, 0x8000000000000000)]).nextEvent =
        (.fullStep 0, one (regs4 0 0 0 0xFFFFFFFFFFFF8) noFlags [(0xFFFFFFFFFFFF8, 0x8000000000000000)]) ∧
      (one (regs4 0 0 0 0xFFFFFFFFFFFF8) noFlags [(0xFFFFFFFFFFFF8, 0x8000000000000000)]).Quiet
        (coreOf (regs4 0 0 0 0xFFFFFFFFFFFF8) noFlags) ∧
      (coreOf (regs4 0 0 0 0xFFFFFFFFFFFF8) noFlags).win.lookup 0xFFFFFFFFFFFF8 = none ∧
      decode ((one zeros noFlags [(0xFFFFFFFFFFFF8, 0x8000000000000000)]).mem.read 0xFFFFFFFFFFFF8) =
        .err .unknownOpcode :=
  ⟨by decide, one_quiet _ _ _, by decide, by decide⟩

/-- The first IP whose eight words are not in the memory. -/
theorem test_meets_FetchRefusedHalts :
    (nextIs (.fullStep 0) (regs4 0 0 0 0xFFFFFFFFFFFF9) []).nextEvent =
        (.fullStep 0, one (regs4 0 0 0 0xFFFFFFFFFFFF9) noFlags []) ∧
      (one (regs4 0 0 0 0xFFFFFFFFFFFF9) noFlags []).Quiet (coreOf (regs4 0 0 0 0xFFFFFFFFFFFF9) noFlags) ∧
      (coreOf (regs4 0 0 0 0xFFFFFFFFFFFF9) noFlags).win.lookup 0xFFFFFFFFFFFF9 = none ∧
      2 ^ 52 < u64 ((coreOf (regs4 0 0 0 0xFFFFFFFFFFFF9) noFlags).reg .ip) + 8 :=
  ⟨by decide, one_quiet _ _ _, by decide, by decide⟩

theorem test_meets_BeginMissSends :
    State.reset.cores[0]? = some (CoreState.reset 0) ∧ (CoreState.reset 0).phase = .ready ∧
      (CoreState.reset 0).win.lookup ((CoreState.reset 0).reg .ip) = none ∧
      cutCore.win.lookup (cutCore.reg .ip) = none ∧ cutCore.disconnected = true := by decide

theorem test_meets_BeginHitRuns :
    (hitState 0x5040000000000000).cores[0]? = some (hitCore 0x5040000000000000) ∧
      (hitCore 0x5040000000000000).phase = .ready ∧
      (hitCore 0x5040000000000000).win.lookup ((hitCore 0x5040000000000000).reg .ip) = some 0x5040000000000000 ∧
      decode 0x5040000000000000 = .ok (.push .sp) ∧ (hitCore 0x5040000000000000).disconnected = false ∧
      (hitState 0x5040000000000000).routerFault = false := by decide

/-- The same with the channel gone, by either side. -/
theorem test_meets_BeginHitRuns_cut :
    ({ hitState 0x5040000000000000 with cores := [{ hitCore 0x5040000000000000 with disconnected := true }] } :
        State).cores[0]? = some { hitCore 0x5040000000000000 with disconnected := true } ∧
      ({ hitCore 0x5040000000000000 with disconnected := true } : CoreState).win.lookup 0 = some 0x5040000000000000 ∧
      ({ hitState 0 with routerFault := true } : State).cores[0]? = some (hitCore 0) ∧ decode 0 = .ok .nop := by decide

/-- The eight entries a fetch at `a` wants. -/
def eight (a : Word) : List Entry := (List.range 8).map fun k => (a + BitVec.ofNat 64 k, BitVec.ofNat 64 k)

theorem test_meets_FetchResponseRule_bad :
    (waitState 0 (.awaitFetch 100) (.giveBlock (eight 101))).cores[0]? =
        some (waitCore 0 (.awaitFetch 100) (.giveBlock (eight 101))) ∧
      ∀ es, CoreMsg.giveBlock (eight 101) = .giveBlock es →
        ¬(es.length = 8 ∧ ∀ (k : Nat) (e : Entry), es[k]? = some e → u64 e.1 = u64 (100 : Word) + k) := by
  refine ⟨by decide, ?_⟩
  rintro es h ⟨_, h2⟩
  cases h
  exact absurd (h2 0 (101, 0) (by decide)) (by decide)

theorem test_meets_FetchResponseRule_good :
    (waitState 0 (.awaitFetch 100) (.giveBlock (eight 100))).cores[0]? =
        some (waitCore 0 (.awaitFetch 100) (.giveBlock (eight 100))) ∧
      (eight 100).length = 8 ∧ (eight 100)[0]? = some (100, 0) ∧
      ∀ (k : Nat) (e : Entry), (eight 100)[k]? = some e → u64 e.1 = u64 (100 : Word) + k :=
  ⟨by decide, by decide, by decide, (contiguousFrom_iff _ _).mp (by decide)⟩

theorem test_meets_DisconnectHalts :
    (waitState 0 (.awaitLoad .a 16) (.giveBlock [])).cores[0]? = some (waitCore 0 (.awaitLoad .a 16) (.giveBlock [])) ∧
      (waitCore 0 (.awaitLoad .a 16) (.giveBlock [])).phase.awaiting = true ∧
      ({ waitState 0 (.awaitLoad .a 16) (.giveBlock []) with routerFault := true } : State).routerFault = true ∧
      ({ waitCore 0 (.awaitLoad .a 16) (.giveBlock []) with disconnected := true } : CoreState).disconnected = true := by
  decide

theorem test_meets_FullStepIsEvents :
    { spState 5 with active := 0 }.Quiet (spCore 5) ∧ (spCore 5).phase = .ready := ⟨one_quiet _ _ _, rfl⟩

theorem test_meets_RefillReplacesWhole : [0, 1, 2, 3, 4, 5, 6, 7].length = 8 := by decide

theorem test_meets_ExecKeepsWindows :
    (∃ t, exec (.store 0 .a) (hitState 0) = .next t) ∧ (hitState 0).cores[0]? = some (hitCore 0) := ⟨⟨_, rfl⟩, by decide⟩

/-- The event of a halted Core, and that of another. -/
theorem test_meets_HaltedIsAbsorbing :
    (∃ t, step (deadState (.fullStep 0)) = .next t) ∧ (∃ t, step (deadState (.begin 1)) = .next t) ∧
      (deadState (.begin 1)).nextEvent.1 ≠ .hostReset ∧ (deadState (.begin 1)).cores[0]? = some deadCore ∧
      deadCore.isHalted = true := ⟨⟨_, rfl⟩, ⟨_, rfl⟩, by decide, by decide, by decide⟩

theorem test_meets_OnlyOwnEventsChangeACore :
    (∃ t, step (deadState (.begin 1)) = .next t) ∧ (deadState (.begin 1)).nextEvent.1 ≠ .hostReset ∧
      (deadState (.begin 1)).nextEvent.1.isOf 0 = false ∧ (deadState (.begin 1)).cores[0]? = some deadCore :=
  ⟨⟨_, rfl⟩, by decide, by decide, by decide⟩

theorem test_meets_AllHaltedIsTheFault :
    (deadState .routerDown).cores[0]? = some deadCore ∧ deadCore.isHalted = true ∧
      [Event.fullStep 0, .begin 0, .fetchResponse 0, .dataResponse 0, .disconnect 0].all (Event.isOf 0) = true ∧
      (deadState .routerDown).cores.all CoreState.isHalted = false ∧ [deadCore].all CoreState.isHalted = true := by decide

/-- A Core with a request sent. -/
def sentCore : CoreState := { coreOf zeros noFlags with phase := .awaitLoad .a 16, up := [.requestBlock 16 Config.oneCount] }

/-- Its Package. -/
def sentState : State := { State.resetOf 1 [] with cores := [sentCore] }

theorem sent_ids : sentState.IdsOk := by
  intro i c h
  obtain ⟨hi, rfl⟩ := List.getElem?_eq_some_iff.mp h
  have : i = 0 := Nat.lt_one_iff.mp hi
  subst this
  rfl

theorem test_meets_RouterUpTags :
    sentState.IdsOk ∧ sentState.routerFault = false ∧ sentState.cores[0]? = some sentCore ∧
      sentCore.up = [.requestBlock 16 Config.oneCount] := ⟨sent_ids, by decide, by decide, by decide⟩

/-- A Package of two with a response at the Router for the tag `t`. -/
def answered (t : Nat) : State := { State.resetOf 2 [] with memDown := [(t, .giveBlock [(16, 3)])] }

/-- The highest tag that is a Core's and the lowest that is none's. -/
theorem test_meets_RouterDownRoutes :
    (answered 1).routerFault = false ∧ (answered 1).memDown = [(1, .giveBlock [(16, 3)])] ∧
      (answered 1).cores[1]? = some (CoreState.reset 1) ∧ (answered 2).routerFault = false ∧
      (answered 2).memDown = [(2, .giveBlock [(16, 3)])] ∧ (answered 2).cores.length ≤ 2 := by decide

theorem test_meets_RouterFaultStops :
    ({ sentState with routerFault := true } : State).routerFault = true ∧
      ({ sentState with routerFault := true } : State).cores[0]? = some sentCore ∧ sentCore.phase.awaiting = true := by
  decide

theorem test_meets_RouterFaultIsSticky :
    (∃ t, step { answered 1 with routerFault := true, sched := [.routerDown] } = .next t) ∧
      ({ answered 1 with routerFault := true, sched := [.routerDown] } : State).nextEvent.1 ≠ .hostReset :=
  ⟨⟨_, rfl⟩, by decide⟩

/-- A Package whose memory has `m` to serve. -/
def asked (m : CoreMsg) : State := { State.resetOf 1 [] with memUp := [(0, m)] }

/-- A block that ends with the last word. -/
theorem test_meets_MemoryServesRead :
    (asked (.requestBlock 0xFFFFFFFFFFFF8 Config.windowCount)).memDisconnected = false ∧
      (asked (.requestBlock 0xFFFFFFFFFFFF8 Config.windowCount)).memUp = [(0, .requestBlock 0xFFFFFFFFFFFF8 Config.windowCount)] ∧
      1 ≤ Config.windowCount.toNat ∧ u64 0xFFFFFFFFFFFF8 + Config.windowCount.toNat ≤ 2 ^ 52 := by decide

/-- The count of no word. -/
def noCount : Count := Count.small 0 (by decide)

/-- A block one past it, no word, nothing written, one address outside. -/
theorem test_meets_MemoryRefuses :
    (asked (.requestBlock 0xFFFFFFFFFFFF9 Config.windowCount)).memDisconnected = false ∧
      (asked (.requestBlock 0xFFFFFFFFFFFF9 Config.windowCount)).memUp = [(0, .requestBlock 0xFFFFFFFFFFFF9 Config.windowCount)] ∧
      2 ^ 52 < u64 0xFFFFFFFFFFFF9 + Config.windowCount.toNat ∧
      (asked (.requestBlock 0 noCount)).memUp = [(0, .requestBlock 0 noCount)] ∧ noCount.toNat = 0 ∧
      (asked (.giveBlock [])).memUp = [(0, .giveBlock [])] ∧
      ∃ e ∈ [((0x10000000000000 : Word), (0 : Word))], 2 ^ 52 ≤ u64 e.1 :=
  ⟨by decide, by decide, by decide, by decide, by decide, by decide, _, List.mem_cons_self, by decide⟩

theorem test_meets_MemoryServesWrite :
    (asked (.giveBlock [(5, 1), (5, 2)])).memDisconnected = false ∧ (asked (.giveBlock [(5, 1), (5, 2)])).MemOk ∧
      (asked (.giveBlock [(5, 1), (5, 2)])).memUp = [(0, .giveBlock [(5, 1), (5, 2)])] ∧
      ([(5, 1), (5, 2)] : List Entry).all (fun e => decide (u64 e.1 < 2 ^ 52)) = true ∧
      (asked (.error ⟨0⟩)).memDisconnected = false ∧ (asked (.error ⟨0⟩)).memUp = [(0, .error ⟨0⟩)] :=
  ⟨by decide, by rfl, by decide, by decide, by decide, by decide⟩

/-- The canonical form, and two lists that do not have it. -/
theorem test_memory_form :
    Memory.wf [(3, 1), (2 ^ 52 - 1, 5)] = true ∧ Memory.wf [(3, 0)] = false ∧ Memory.wf [(3, 1), (2, 1)] = false ∧
      Memory.wf [(2 ^ 52, 1)] = false := by decide

theorem test_meets_HostResetResetsPackage : 0 < sentState.cores.length := by decide

/-- The invariants at the state whose request is on its way, and a step of each that follows. -/
theorem sent_bus : sentState.BusOk := by
  intro i c h
  obtain ⟨hi, rfl⟩ := List.getElem?_eq_some_iff.mp h
  have : i = 0 := Nat.lt_one_iff.mp hi
  subst this
  exact ⟨.inl ⟨rfl, rfl⟩, fun r a h => by cases h⟩

theorem sent_flags : sentState.FlagsOk := by
  intro i c h
  obtain ⟨hi, rfl⟩ := List.getElem?_eq_some_iff.mp h
  have : i = 0 := Nat.lt_one_iff.mp hi
  subst this
  rfl

theorem test_meets_FlagsInvariantKept :
    sentState.FlagsOk ∧ ∃ t, step { sentState with sched := [.disconnect 0] } = .next t := ⟨sent_flags, ⟨_, rfl⟩⟩

theorem test_meets_MemoryCanonicalKept :
    (asked (.giveBlock [(5, 1)])).MemOk ∧ ∃ t, step { asked (.giveBlock [(5, 1)]) with sched := [.memServe] } = .next t :=
  ⟨by rfl, ⟨_, rfl⟩⟩

theorem test_meets_IdsAndLinksKept :
    sentState.IdsOk ∧ sentState.LinkOk ∧ ∃ t, step { sentState with sched := [.memLinkLost] } = .next t :=
  ⟨sent_ids, fun h => absurd h (by decide), ⟨_, rfl⟩⟩

theorem test_meets_OneOutstandingRequestKept :
    sentState.IdsOk ∧ sentState.BusOk ∧ Event.wellBehaved (.routerUp 0) = true ∧
      ∃ t, step { sentState with sched := [.routerUp 0] } = .next t := ⟨sent_ids, sent_bus, rfl, ⟨_, rfl⟩⟩

theorem test_meets_ResetMeetsInvariants : Memory.wf [(0, 0x5000000000000000), (2 ^ 52 - 1, 5)] = true := by decide

theorem test_meets_DisconnectedSticks :
    (State.resetOf 1 []).cores[0]? = some (CoreState.reset 0) ∧ cutState.cores[0]? = some cutCore ∧
      cutCore.disconnected = true ∧ (∃ t, step { cutState with sched := [.begin 0] } = .next t) ∧
      ({ cutState with sched := [.begin 0] } : State).nextEvent.1 ≠ .hostReset :=
  ⟨by decide, by decide, by decide, ⟨_, rfl⟩, by decide⟩

theorem test_meets_HaltOutputs :
    deadCore.phase = .halted .unknownOpcode (.fetched 0x8000000000000000 0) ∧
      ∀ k x, (CoreState.reset 0).phase ≠ .halted k x := ⟨rfl, fun _ _ h => by cases h⟩

/-- Two Cores and the tag 1, the highest that one bit holds. -/
theorem answered_tags : (answered 1).TagsOk := by
  refine ⟨fun _ h => (List.not_mem_nil h).elim, fun tm h => ?_⟩
  rw [List.mem_singleton.mp h]
  exact (by decide : (1 : Nat) < 2 ^ tagBits 2)

theorem test_meets_TagsFitKept :
    (∃ t, step { answered 1 with sched := [.routerDown] } = .next t) ∧ (answered 1).TagsOk ∧
      (answered 1).cores.length = 2 ^ 1 ∧ sentState.IdsOk := ⟨⟨_, rfl⟩, answered_tags, rfl, sent_ids⟩

/-- The events *Up(0)* and *Down* in turn, for ever. -/
def turns (n : Nat) : Event := if n % 2 = 0 then .routerUp 0 else .routerDown

/-- The Package of one Core whose answer is at the Router, and that one with it delivered. -/
def turnsRun : Nat → State
  | 0 => { sentState with memDown := [(0, .giveBlock [(16, 3)])] }
  | 1 => ({ sentState with memDown := [(0, .giveBlock [(16, 3)])] } : State).routerUp 0
  | _ + 2 => (({ sentState with memDown := [(0, .giveBlock [(16, 3)])] } : State).routerUp 0).routerDown

theorem turns_run : Run turns turnsRun := by
  intro n
  match n with
  | 0 => rfl
  | 1 => rfl
  | k + 2 =>
    rcases Nat.mod_two_eq_zero_or_one (k + 2) with h | h
    · rw [turns, if_pos h]
      rfl
    · rw [turns, if_neg (by omega)]
      rfl

theorem turns_fair : RouterFair turns turnsRun where
  up i n := by
    refine ⟨2 * n + 2, by omega, fun h => ?_⟩
    obtain ⟨_, c, hc, hu⟩ := h
    match i with
    | 0 =>
      cases hc
      exact absurd rfl hu
    | i + 1 => cases hc
  down n := ⟨2 * n + 1, by omega, fun _ => if_neg (by omega)⟩

/-- A fair run of single events that begins with a request to forward and an answer to deliver. -/
theorem test_meets_NoRequestIsStarved :
    Run turns turnsRun ∧ RouterFair turns turnsRun ∧ (∀ n, (turns n).single = true) ∧
      (∀ n, (turnsRun n).routerFault = false) ∧ (turnsRun 0).cores[0]? = some sentCore ∧
      (turnsRun 0).memDown = [(0, .giveBlock [(16, 3)])] := by
  refine ⟨turns_run, turns_fair, fun n => ?_, fun n => ?_, rfl, rfl⟩
  · unfold turns
    split <;> rfl
  · match n with
    | 0 => rfl
    | 1 => rfl
    | k + 2 => rfl

end Sys2Proof.Tests
end

section
/-! Proofs for the family of 10_state: privacy of a Core, the invariants of flags, identities and links, the fetch
window, the state after reset. -/

namespace Sys2Proof.Machine

/-! ### A Core is changed by its own events only (R20, R43) -/

/-- `t` has a Core `i` whose own part (R20) is that of `c`. -/
def State.HasOwn (i : Nat) (c : CoreState) (t : State) : Prop := ∃ c', t.cores[i]? = some c' ∧ c'.ownPart = c.ownPart

theorem State.KeepsOwn.hasOwn {s t : State} (hk : s.KeepsOwn t) {i : Nat} {c : CoreState} (h : s.HasOwn i c) :
    t.HasOwn i c := by
  obtain ⟨d, hd, ho⟩ := h
  obtain ⟨d', hd', ho', _⟩ := hk i d hd
  exact ⟨d', hd', ho'.trans ho⟩

theorem State.HasOwn.setCore_other {s : State} {i j : Nat} {c d : CoreState} (h : s.HasOwn i c) (hij : j ≠ i) :
    (s.setCore j d).HasOwn i c := by
  obtain ⟨c', hc', ho⟩ := h
  exact ⟨c', (State.setCore_get_other hij).trans hc', ho⟩

theorem hasOwn_busKeeps (i : Nat) (c : CoreState) : BusKeeps (State.HasOwn i c) where
  up s k := (s.routerUp_keepsOwn k).hasOwn
  serve s := s.memServe_keepsOwn.hasOwn
  down s := s.routerDown_keepsOwn.hasOwn

/-- Another Core's events leave Core `i`'s own part alone (R20). -/
theorem hasOwn_coreKeeps {i j : Nat} (hij : j ≠ i) (c : CoreState) : CoreKeeps j (State.HasOwn i c) where
  set s _ _ h _ _ := by
    obtain ⟨hact, h⟩ := h
    exact ⟨hact, h.setCore_other (hact ▸ hij)⟩
  bus := (hasOwn_busKeeps i c).onCore j
  active _ h := h

theorem State.memRogue_cores (s : State) (take : Bool) (writes : List Entry) (answers : List TaggedMsg) :
    (s.memRogue take writes answers).cores = s.cores := by
  unfold State.memRogue
  split <;> rfl

/-- The input of a Core is no part of what its own loop changes (R20, R204). -/
theorem State.HasOwn.linkLost {s : State} {i : Nat} {c : CoreState} (h : s.HasOwn i c) (j : Nat) :
    (s.linkLost j).HasOwn i c := by
  unfold State.linkLost
  split
  · exact h
  · rename_i d hd
    by_cases hij : j = i
    · subst hij
      obtain ⟨c', hc', ho⟩ := h
      rw [hd] at hc'
      cases hc'
      exact ⟨_, State.setCore_get_self hd, ho⟩
    · exact h.setCore_other hij

/-- An event that is neither Core `i`'s own nor the host's reset leaves the own part of Core `i` alone. -/
theorem State.HasOwn.perform {s t : State} {i : Nat} {c : CoreState} {e : Event} (h : s.HasOwn i c)
    (hown : e.isOf i = false) (hreset : e ≠ .hostReset) (he : s.perform e = .next t) : t.HasOwn i c := by
  have core : ∀ j, e.isOf j = true → t.HasOwn i c := fun j hj =>
    (hasOwn_coreKeeps (fun hji => by simp [← hji, hj] at hown) c).perform hj h he
  cases e with
  | fullStep j => exact core j (beq_self_eq_true j)
  | begin j => exact core j (beq_self_eq_true j)
  | fetchResponse j => exact core j (beq_self_eq_true j)
  | dataResponse j => exact core j (beq_self_eq_true j)
  | disconnect j => exact core j (beq_self_eq_true j)
  | routerUp j => cases he; exact (hasOwn_busKeeps i c).up s j h
  | routerDown => cases he; exact (hasOwn_busKeeps i c).down s h
  | memServe => cases he; exact (hasOwn_busKeeps i c).serve s h
  | memRogue take writes answers =>
    cases he
    exact (State.KeepsOwn.of_cores (.rfl s) (s.memRogue_cores take writes answers)).hasOwn h
  | linkLost j => cases he; exact h.linkLost j
  | memLinkLost => cases he; exact h
  | hostRun run => cases he; exact h
  | hostReset => exact absurd rfl hreset

/-- Settles O40: the own part of a Core is kept by every other agent's event. -/
theorem onlyOwnEventsChangeACore : Obligations.OnlyOwnEventsChangeACore := by
  intro s t i c hstep hreset hown hc
  have h : s.nextEvent.2.HasOwn i c :=
    State.nextEvent_keeps (P := State.HasOwn i c) (fun _ _ _ h => h) ⟨c, hc, rfl⟩
  exact h.perform hown hreset hstep

/-! ### Invariants of each Core and of the links -/

/-- The law of the flags is kept by every step (R30). -/
theorem flagsOk_stepKeeps : StepKeeps (AllCores fun _ c => c.flags.ok = true) :=
  AllCores.stepKeeps (fun _ _ _ _ h => h) (fun _ _ _ h hcd => hcd.flags h) (fun _ _ h => h) fun _ => rfl

/-- Settles O53: every flag a Core gets is `apply_result`'s or the one it had. -/
theorem flagsInvariantKept : Obligations.FlagsInvariantKept := fun _ _ h hstep => flagsOk_stepKeeps.step h hstep

/-- Identities stay the indexes through every step (R42). -/
theorem idsOk_stepKeeps : StepKeeps (AllCores fun i c => c.id = i) :=
  AllCores.stepKeeps (fun _ _ _ _ h => h) (fun _ _ _ h hcd => hcd.id.trans h) (fun _ _ h => h) fun _ => rfl

theorem linkOk_busKeeps : BusKeeps State.LinkOk where
  up s i h := by
    rcases s.routerUp_cases i with e | ⟨_, _, _, _, _, _, e⟩ <;> rw [e] <;> exact h
  serve s h := by
    rcases s.memServe_cases with e | ⟨_, _, _, _, _, e⟩ <;> rw [e] <;> exact h
  down s h := by
    rcases s.routerDown_cases with e | ⟨_, _, _, _, _, _, _, e⟩ | ⟨_, _, _, _, _, _, e⟩ <;> rw [e]
    · exact h
    · exact h
    · exact fun _ => rfl

/-- `mem_disconnected` goes with `router_fault` through every step (R225); both are clear after the host's reset. -/
theorem linkOk_stepKeeps : StepKeeps State.LinkOk where
  core i :=
    { set := fun _ _ _ h _ _ => h
      bus := linkOk_busKeeps.onCore i
      active := fun _ h => h }
  bus := linkOk_busKeeps
  rogue s _ _ _ h := by
    unfold State.memRogue
    split <;> exact h
  linkLost s _ h := by
    unfold State.linkLost
    split <;> exact h
  memLinkLost _ _ := fun _ => rfl
  run _ _ h := h
  reset _ _ := fun h => absurd h Bool.false_ne_true
  take _ _ _ h := h

/-- Settles O55, by the two step laws above. -/
theorem idsAndLinksKept : Obligations.IdsAndLinksKept := fun _ _ hids hlinks hstep =>
  ⟨idsOk_stepKeeps.step hids hstep, linkOk_stepKeeps.step hlinks hstep⟩

/-! ### Execution and the windows (R38, R83) -/

/-- `t` has a Core `j` whose window is `win`. -/
def State.HasWindow (j : Nat) (win : Window) (t : State) : Prop := ∃ c, t.cores[j]? = some c ∧ c.win = win

theorem hasWindow_setKeeps (j : Nat) (win : Window) : SetKeeps CoreState.ExecChanges (State.HasWindow j win) := by
  rintro s c d ⟨e, he, hw⟩ hc hcd
  by_cases hj : s.active = j
  · subst hj
    rw [hc] at he
    cases he
    exact ⟨d, State.setCore_get_self hc, hcd.win.trans hw⟩
  · exact ⟨e, (State.setCore_get_other hj).trans he, hw⟩

theorem State.KeepsOwn.hasWindow {s t : State} (hk : s.KeepsOwn t) {j : Nat} {win : Window} (h : s.HasWindow j win) :
    t.HasWindow j win := by
  obtain ⟨c, hc, hw⟩ := h
  obtain ⟨c', hc', ho, _⟩ := hk j c hc
  have hwin : c'.win = c.win := congrArg (·.2.2.1) ho
  exact ⟨c', hc', hwin.trans hw⟩

theorem hasWindow_busKeeps (j : Nat) (win : Window) : BusKeeps (State.HasWindow j win) where
  up s k := (s.routerUp_keepsOwn k).hasWindow
  serve s := s.memServe_keepsOwn.hasWindow
  down s := s.routerDown_keepsOwn.hasWindow

/-- Settles O38: neither what an instruction makes of its Core nor a bus event touches a window. -/
theorem execKeepsWindows : Obligations.ExecKeepsWindows := by
  intro i s t j c he hc
  exact exec_keeps (hasWindow_setKeeps j c.win) (hasWindow_busKeeps j c.win) ⟨c, hc, rfl⟩ he

/-! ### Flags and the fetch window -/

theorem u64_eq_zero_iff (v : Word) : u64 v = 0 ↔ v = 0 := BitVec.toNat_eq (y := 0#64).symm

theorem msb_eq_s64_neg (v : Word) : v.msb = decide (s64 v < 0) := BitVec.msb_eq_toInt

/-- Settles O7: zero and the sign bit are the zero and the sign of the signed reading. -/
theorem applyResultFlags : Obligations.ApplyResultFlags := by
  intro v ovf
  simp [applyResult, Flags.ofResult, u64_eq_zero_iff, msb_eq_s64_neg]

/-- Settles O36: the bound `a < base + 8` is the bound of the vector of words. -/
theorem lookupHitsExactly : Obligations.LookupHitsExactly := by
  intro win a w
  unfold Window.lookup
  by_cases h : win.valid = true ∧ u64 win.base ≤ u64 a
  · rw [if_pos h, Vector.getElem?_eq_some_iff]
    simp [h]
  · rw [if_neg h]
    constructor
    · exact fun hn => nomatch hn
    · rintro ⟨hv, hb, _⟩
      exact absurd ⟨hv, hb⟩ h

/-- Settles O37: eight words are exactly the ones the window is filled with. -/
theorem refillReplacesWhole : Obligations.RefillReplacesWhole := by
  intro b ws hlen
  match ws, hlen with
  | [_, _, _, _, _, _, _, _], _ => exact ⟨rfl, rfl, rfl⟩

/-! ### After reset -/

theorem CoreState.reset_reg (i : Nat) (r : Reg) : (CoreState.reset i).reg r = 0 := by
  cases r <;> rfl

/-- Settles O50: Core `i` after reset is `CoreState.reset i` (R45). -/
theorem resetStateOfEachCore : Obligations.ResetStateOfEachCore := by
  intro n mem i hi
  exact ⟨CoreState.reset i, State.resetOf_get.mpr ⟨hi, rfl⟩, CoreState.reset_reg i, rfl, rfl, rfl, rfl, rfl, rfl, rfl,
    rfl, rfl, rfl, rfl⟩

/-- What holds of every Core in its reset state holds of every Core of a Package after reset. -/
theorem resetOf_allCores {Q : Nat → CoreState → Prop} (h : ∀ i, Q i (CoreState.reset i)) (n : Nat) (mem : Memory) :
    AllCores Q (State.resetOf n mem) := by
  intro i c hc
  rw [(State.resetOf_get.mp hc).2]
  exact h i

/-- A Core after reset is `Ready` and has nothing in flight (R41, R45). -/
theorem resetOf_busOk (n : Nat) (mem : Memory) : (State.resetOf n mem).BusOk :=
  resetOf_allCores (Q := fun i c => (State.resetOf n mem).busOkAt i c ∧ c.PopOk)
    (fun _ => ⟨⟨rfl, rfl⟩, fun _ _ h => nomatch h⟩) n mem

/-- Settles O52, an invariant at a time. -/
theorem resetMeetsInvariants : Obligations.ResetMeetsInvariants := fun n mem hmem =>
  ⟨resetOf_allCores (Q := fun _ c => c.flags.ok = true) (fun _ => rfl) n mem,
    resetOf_allCores (Q := fun i c => c.id = i) (fun _ => rfl) n mem,
    hmem,
    fun h => absurd h Bool.false_ne_true,
    resetOf_busOk n mem,
    fun _ h => absurd h List.not_mem_nil,
    fun _ h => absurd h List.not_mem_nil⟩

end Sys2Proof.Machine
end

section
/-! Proof of the bus invariant (R41): with a memory that keeps its contract, a Core has its one request outstanding
exactly while it waits. The messages in flight for a Core move from queue to queue, so the invariant is read up to their
order; a Core's own events then only matter at two points, where it sends and where it takes its answer. -/

namespace Sys2Proof.Machine

/-! ### The shape of a phase and its messages -/

theorem busShape_waiting {ph : Phase} {req : CoreMsg} (h : ph.request? = some req) {reqs anss : List CoreMsg} :
    busShape ph reqs anss ↔ (reqs = [req] ∧ anss = []) ∨ (reqs = [] ∧ ∃ m, anss = [m] ∧ answers req m) := by
  unfold busShape
  rw [h]

theorem busShape_ready {reqs anss : List CoreMsg} : busShape .ready reqs anss ↔ reqs = [] ∧ anss = [] := Iff.rfl

theorem busShape_halted {cause : Cause} {info : HaltInfo} {reqs anss : List CoreMsg} :
    busShape (.halted cause info) reqs anss ↔
      reqs.length + anss.length ≤ 1 ∧ cause ≠ .malformedResponse ∧ cause ≠ .stackUnderflow := Iff.rfl

/-- A phase waits with a request, or is `Ready`, or is a halt (R34). -/
theorem Phase.waiting_or (ph : Phase) :
    (∃ req, ph.request? = some req) ∨ ph = .ready ∨ ∃ cause info, ph = .halted cause info := by
  cases ph with
  | ready => exact .inr (.inl rfl)
  | halted cause info => exact .inr (.inr ⟨cause, info, rfl⟩)
  | awaitFetch a => exact .inl ⟨_, rfl⟩
  | awaitLoad r a => exact .inl ⟨_, rfl⟩
  | awaitStore a v => exact .inl ⟨_, rfl⟩
  | awaitPush a v => exact .inl ⟨_, rfl⟩
  | awaitPop r a => exact .inl ⟨_, rfl⟩

theorem Phase.request_of_awaiting {ph : Phase} (h : ph.awaiting = true) : ∃ req, ph.request? = some req := by
  rcases ph.waiting_or with hreq | rfl | ⟨_, _, rfl⟩
  · exact hreq
  · cases h
  · cases h

theorem Phase.request_of_awaitingData {ph : Phase} (h : ph.awaitingData = true) : ∃ req, ph.request? = some req := by
  rcases ph.waiting_or with hreq | rfl | ⟨_, _, rfl⟩
  · exact hreq
  · cases h
  · cases h

/-- The order of the messages in flight does not matter: there is at most one. -/
theorem busShape.perm {ph : Phase} {reqs reqs' anss anss' : List CoreMsg} (h : busShape ph reqs anss)
    (hr : reqs.Perm reqs') (ha : anss.Perm anss') : busShape ph reqs' anss' := by
  rcases ph.waiting_or with ⟨req, hreq⟩ | rfl | ⟨cause, info, rfl⟩
  · rw [busShape_waiting hreq] at h ⊢
    rcases h with ⟨rfl, rfl⟩ | ⟨rfl, m, rfl, hm⟩
    · exact .inl ⟨hr.symm.eq_singleton, ha.symm.eq_nil⟩
    · exact .inr ⟨hr.symm.eq_nil, m, ha.symm.eq_singleton, hm⟩
  · obtain ⟨rfl, rfl⟩ := h
    exact ⟨hr.symm.eq_nil, ha.symm.eq_nil⟩
  · rw [busShape_halted] at h ⊢
    rwa [← hr.length_eq, ← ha.length_eq]

/-- The memory takes a request of the Core's and gives its answer (R70). -/
theorem busShape.serve {ph : Phase} {m ans : CoreMsg} {reqs anss : List CoreMsg} (h : busShape ph (m :: reqs) anss)
    (hans : answers m ans) : busShape ph reqs (ans :: anss) := by
  rcases ph.waiting_or with ⟨req, hreq⟩ | rfl | ⟨cause, info, rfl⟩
  · rw [busShape_waiting hreq] at h ⊢
    rcases h with ⟨hr, rfl⟩ | ⟨hr, _⟩
    · obtain ⟨rfl, rfl⟩ := List.cons.inj hr
      exact .inr ⟨rfl, ans, rfl, hans⟩
    · cases hr
  · cases h.1
  · rw [busShape_halted] at h ⊢
    simp only [List.length_cons] at h ⊢
    exact ⟨by omega, h.2⟩

/-- A Core may be in this phase with nothing in flight: `Ready`, or halted by a cause that a good memory allows. -/
def Phase.AtRest (ph : Phase) : Prop := busShape ph [] []

theorem Phase.AtRest.ready : Phase.AtRest .ready := ⟨rfl, rfl⟩

theorem Phase.AtRest.halted {cause : Cause} (info : HaltInfo) (h1 : cause ≠ .malformedResponse)
    (h2 : cause ≠ .stackUnderflow) : Phase.AtRest (.halted cause info) := ⟨Nat.zero_le 1, h1, h2⟩

theorem Phase.AtRest.popOk {c : CoreState} (h : c.phase.AtRest) : c.PopOk := by
  intro r a hp
  rw [hp, Phase.AtRest, busShape_waiting rfl] at h
  simp at h

/-! ### The invariant, and the events of the Router and the memory -/

/-- What the induction over a step carries: the bus invariant and the identities it is read by (R42). -/
def State.BusInv (s : State) : Prop := s.IdsOk ∧ s.BusOk

@[simp] theorem taggedFor_append (i : Nat) (q q' : List TaggedMsg) :
    taggedFor i (q ++ q') = taggedFor i q ++ taggedFor i q' := by
  simp [taggedFor]

@[simp] theorem taggedFor_cons_self (i : Nat) (m : CoreMsg) (q : List TaggedMsg) :
    taggedFor i ((i, m) :: q) = m :: taggedFor i q := by
  simp [taggedFor]

@[simp] theorem taggedFor_nil (i : Nat) : taggedFor i [] = [] := rfl

theorem taggedFor_cons_other {i j : Nat} (h : j ≠ i) (m : CoreMsg) (q : List TaggedMsg) :
    taggedFor i ((j, m) :: q) = taggedFor i q := by
  simp [taggedFor, h]

/-- Messages that only change places keep the bus invariant. -/
theorem State.BusOk.of_perm {s t : State} (h : s.BusOk)
    (ht : ∀ (j : Nat) (d : CoreState), t.cores[j]? = some d → ∃ c, s.cores[j]? = some c ∧
      d.phase = c.phase ∧ d.regs = c.regs ∧
      (s.requestsOf j c).Perm (t.requestsOf j d) ∧ (s.answersOf j c).Perm (t.answersOf j d)) : t.BusOk := by
  intro j d hd
  obtain ⟨c, hc, hphase, hregs, hreqs, hanss⟩ := ht j d hd
  obtain ⟨hbus, hpop⟩ := h j c hc
  refine ⟨?_, fun r a hp => ?_⟩
  · rw [State.busOkAt, hphase]
    exact hbus.perm hreqs hanss
  · rw [hpop r a (hphase ▸ hp), popAddr, popAddr, CoreState.reg, CoreState.reg, hregs]

/-- *Up* moves a message from the Core's queue to the memory's, under the Core's tag (R222). -/
theorem State.BusOk.routerUp {s : State} (hids : s.IdsOk) (h : s.BusOk) (i : Nat) : (s.routerUp i).BusOk := by
  rcases s.routerUp_cases i with e | ⟨c, m, rest, hc, hup, _, e⟩ <;> rw [e]
  · exact h
  · refine h.of_perm fun j d hd => ?_
    have hid : c.id = i := hids i c hc
    by_cases hij : i = j
    · subst hij
      rw [show _ = some _ from State.setCore_get_self hc] at hd
      cases hd
      refine ⟨c, hc, rfl, rfl, ?_, .refl _⟩
      simp only [State.requestsOf, hup, hid, taggedFor_append, taggedFor_cons_self, taggedFor_nil, ← List.append_assoc]
      exact List.perm_append_singleton m (rest ++ taggedFor i s.memUp) |>.symm
    · rw [show _ = _ from State.setCore_get_other hij] at hd
      refine ⟨d, hd, rfl, rfl, ?_, .refl _⟩
      simp [State.requestsOf, hid, taggedFor_cons_other hij]

/-- *Down* moves a message from the memory's queue to that of the Core it is tagged for (R223). -/
theorem State.BusOk.routerDown {s : State} (h : s.BusOk) : s.routerDown.BusOk := by
  rcases s.routerDown_cases with e | ⟨i, m, rest, c, hdown, _, hc, e⟩ | ⟨i, m, rest, hdown, _, hnone, e⟩ <;> rw [e]
  · exact h
  · refine h.of_perm fun j d hd => ?_
    by_cases hij : i = j
    · subst hij
      rw [show _ = some _ from State.setCore_get_self hc] at hd
      cases hd
      refine ⟨c, hc, rfl, rfl, .refl _, ?_⟩
      simp only [State.answersOf, hdown, taggedFor_cons_self, ← List.append_assoc]
      exact List.perm_append_singleton m (taggedFor i rest ++ c.down) |>.symm
    · rw [show _ = _ from State.setCore_get_other hij] at hd
      refine ⟨d, hd, rfl, rfl, .refl _, ?_⟩
      simp [State.answersOf, hdown, taggedFor_cons_other hij]
  · refine h.of_perm fun j d hd => ⟨d, hd, rfl, rfl, .refl _, ?_⟩
    have hij : i ≠ j := by
      rintro rfl
      exact nomatch hnone.symm.trans hd
    simp [State.answersOf, hdown, taggedFor_cons_other hij]

/-- The memory's answer takes the place of the request it serves (R70 to R73). -/
theorem State.BusOk.memServe {s : State} (h : s.BusOk) : s.memServe.BusOk := by
  rcases s.memServe_cases with e | ⟨i, m, rest, hup, _, e⟩ <;> rw [e]
  · exact h
  · intro j c hc
    obtain ⟨hbus, hpop⟩ := h j c hc
    refine ⟨?_, hpop⟩
    simp only [State.busOkAt, State.requestsOf, State.answersOf, hup] at hbus ⊢
    by_cases hij : i = j
    · subst hij
      have hserved : answers m (s.mem.serve (Config.freeErrInfo s.tick) m).2 := ⟨s.mem, _, rfl⟩
      rw [taggedFor_cons_self] at hbus
      have hfirst := hbus.perm List.perm_middle (.refl _)
      refine (hfirst.serve hserved).perm (.refl _) ?_
      simp only [taggedFor_append, taggedFor_cons_self, taggedFor_nil, List.append_assoc, List.singleton_append]
      exact List.perm_middle.symm
    · simpa [taggedFor_cons_other hij] using hbus

/-- The Router's and the memory's events keep the bus invariant. -/
theorem busInv_busKeeps : BusKeeps State.BusInv where
  up s i h := ⟨idsOk_stepKeeps.bus.up s i h.1, h.2.routerUp h.1 i⟩
  serve s h := ⟨idsOk_stepKeeps.bus.serve s h.1, h.2.memServe⟩
  down s h := ⟨idsOk_stepKeeps.bus.down s h.1, h.2.routerDown⟩

/-- Replacing Core `i` by one that is in its shape with the messages in flight. -/
theorem State.BusInv.setCore {s : State} (h : s.BusInv) {i : Nat} {d : CoreState} (hid : d.id = i)
    (hbus : s.busOkAt i d) (hpop : d.PopOk) : (s.setCore i d).BusInv :=
  ⟨AllCores.setCore (Q := fun i c => c.id = i) h.1 hid,
    AllCores.setCore (Q := fun i c => s.busOkAt i c ∧ c.PopOk) h.2 ⟨hbus, hpop⟩⟩

/-! ### A Core with nothing in flight -/

/-- The invariant holds, and nothing is in flight for Core `i`, which is to become `c` or something made of it. -/
structure State.Free (s : State) (i : Nat) (c : CoreState) : Prop where
  inv : s.BusInv
  memUp : taggedFor i s.memUp = []
  memDown : taggedFor i s.memDown = []
  up : c.up = []
  down : c.down = []
  id : c.id = i

/-- What is free stays free when only registers, flags, window and phase change. -/
theorem State.Free.congr {s : State} {i : Nat} {c d : CoreState} (h : s.Free i c) (hup : d.up = c.up)
    (hdown : d.down = c.down) (hid : d.id = c.id) : s.Free i d :=
  ⟨h.inv, h.memUp, h.memDown, hup.trans h.up, hdown.trans h.down, hid.trans h.id⟩

/-- A `Ready` Core has nothing in flight (R41). -/
theorem State.BusInv.free_of_ready {s : State} (h : s.BusInv) {i : Nat} {c : CoreState} (hc : s.cores[i]? = some c)
    (hready : c.phase = .ready) : s.Free i c := by
  obtain ⟨hbus, _⟩ := h.2 i c hc
  rw [State.busOkAt, hready, busShape_ready, State.requestsOf, State.answersOf, List.append_eq_nil_iff,
    List.append_eq_nil_iff] at hbus
  obtain ⟨⟨hup, hmemUp⟩, hmemDown, hdown⟩ := hbus
  exact ⟨h, hmemUp, hmemDown, hup, hdown, h.1 i c hc⟩

/-- A waiting Core that has a message has its answer, and once that is taken nothing is in flight for it (R41, R68). -/
theorem State.BusInv.free_of_answer {s : State} (h : s.BusInv) {i : Nat} {c : CoreState} (hc : s.cores[i]? = some c)
    {req m : CoreMsg} (hreq : c.phase.request? = some req) {rest : List CoreMsg} (hdown : c.down = m :: rest) :
    s.Free i (c.setDown rest) ∧ answers req m := by
  obtain ⟨hbus, _⟩ := h.2 i c hc
  rw [State.busOkAt, busShape_waiting hreq, State.requestsOf, State.answersOf, hdown] at hbus
  rcases hbus with ⟨_, hnil⟩ | ⟨hreqs, m', hans, hm⟩
  · simp at hnil
  · obtain ⟨hup, hmemUp⟩ := List.append_eq_nil_iff.mp hreqs
    rcases List.append_eq_singleton_iff.mp hans with ⟨hmemDown, hcons⟩ | ⟨_, hnil⟩
    · obtain ⟨rfl, rfl⟩ := List.cons.inj hcons
      exact ⟨⟨h, hmemUp, hmemDown, hup, rfl, h.1 i c hc⟩, hm⟩
    · cases hnil

/-- A Core with nothing in flight may be put at rest. -/
theorem State.Free.setCore {s : State} {i : Nat} {c : CoreState} (h : s.Free i c) (hrest : c.phase.AtRest) :
    (s.setCore i c).BusInv := by
  refine h.inv.setCore h.id ?_ hrest.popOk
  rw [State.busOkAt, State.requestsOf, State.answersOf, h.up, h.down, h.memUp, h.memDown]
  exact hrest

/-- A halt that is none of the memory's doing (R207). -/
theorem State.Free.halt {s : State} {i : Nat} {c : CoreState} (h : s.Free i c) {cause : Cause} (info : HaltInfo)
    (h1 : cause ≠ .malformedResponse) (h2 : cause ≠ .stackUnderflow) : (s.setCore i (c.halt cause info)).BusInv :=
  (h.congr (d := c.halt cause info) rfl rfl rfl).setCore (.halted info h1 h2)

/-- A waiting Core whose channel is gone halts with at most its one message in flight (R149). -/
theorem State.BusInv.halt_waiting {s : State} (h : s.BusInv) {i : Nat} {c : CoreState} (hc : s.cores[i]? = some c)
    {req : CoreMsg} (hreq : c.phase.request? = some req) :
    (s.setCore i (c.halt .busDisconnected .nothing)).BusInv := by
  obtain ⟨hbus, _⟩ := h.2 i c hc
  refine h.setCore (h.1 i c hc) ?_ fun _ _ hp => nomatch hp
  rw [State.busOkAt, busShape_waiting hreq] at hbus
  refine busShape_halted.mpr ⟨?_, by decide, by decide⟩
  change (s.requestsOf i c).length + (s.answersOf i c).length ≤ 1
  rcases hbus with ⟨hr, ha⟩ | ⟨hr, m, ha, _⟩ <;> simp [hr, ha]

/-- Sending the request of the phase the Core then waits in (R68, R145); where its channel is gone it halts. -/
theorem State.Free.send {s : State} {c : CoreState} (h : s.Free s.active c) {msg : CoreMsg} {ph : Phase}
    (hreq : ph.request? = some msg) (hpop : (c.setPhase ph).PopOk) : (s.send c msg ph).BusInv := by
  unfold State.send
  split
  · exact h.halt _ (by decide) (by decide)
  · refine h.inv.setCore h.id ?_ hpop
    refine (busShape_waiting hreq).mpr (.inl ⟨?_, ?_⟩)
    · simp [State.requestsOf, h.up, h.memUp]
    · simp [State.answersOf, h.down, h.memDown]

/-- A phase that waits for no `Pop` asks nothing of SP. -/
theorem CoreState.PopOk.of_phase {c : CoreState} (h : ∀ r a, c.phase ≠ .awaitPop r a) : c.PopOk :=
  fun r a hp => absurd hp (h r a)

/-! ### Taking the answer of a memory that keeps its contract -/

/-- A read is answered by a block that passes the test, and lies in range, or by `Error` (R66, R71, R72). -/
theorem checkAnswer_of_read {a : Word} {n : Count} {m : CoreMsg} (h : answers (.requestBlock a n) m) :
    (∃ ws, checkAnswer a n.toNat m = .words ws ∧ u64 a + n.toNat ≤ Config.memWords) ∨
      ∃ info, checkAnswer a n.toNat m = .bad .memoryError info := by
  obtain ⟨mem, info, rfl⟩ := h
  cases hr : blockInRange (u64 a) n.toNat with
  | true =>
    have hle : u64 a + n.toNat ≤ Config.memWords := by
      simp only [blockInRange, Bool.and_eq_true, decide_eq_true_eq] at hr
      exact hr.2
    rw [Memory.serve_read mem info hr]
    exact .inl ⟨_, checkAnswer_block mem (hle.trans (by norm_num [Config.memWords])), hle⟩
  | false =>
    rw [Memory.serve_read_refused mem info hr]
    exact .inr ⟨.err info, rfl⟩

/-- A write of one word is answered by its echo, which passes the test, or by `Error` (R67, R72, R73). -/
theorem checkAnswer_of_write {a v : Word} {m : CoreMsg} (h : answers (.giveBlock [(a, v)]) m) :
    (∃ ws, checkAnswer a 1 m = .words ws) ∨ ∃ info, checkAnswer a 1 m = .bad .memoryError info := by
  obtain ⟨mem, info, rfl⟩ := h
  by_cases hr : u64 a < Config.memWords
  · rw [Memory.serve_write mem info hr]
    exact .inl ⟨_, checkAnswer_one a v⟩
  · rw [Memory.serve_write_refused mem info hr]
    exact .inr ⟨.err info, rfl⟩

/-- A Core that takes the words rests as their use leaves it, and halts by `MemoryError` on an `Error`. -/
theorem CoreState.takeAnswer_atRest {c : CoreState} {ans : Answer} {k : List Word → CoreState}
    (h : (∃ ws, ans = .words ws ∧ (k ws).phase.AtRest) ∨ ∃ info, ans = .bad .memoryError info) :
    (c.takeAnswer ans k).phase.AtRest := by
  rcases h with ⟨ws, rfl, hrest⟩ | ⟨info, rfl⟩
  · exact hrest
  · exact .halted info (by decide) (by decide)

/-- A word was read at SP, so SP is in the address space and raising it does not make it negative (R183). -/
theorem CoreState.popWord_atRest {c : CoreState} (h : u64 (c.reg .sp) + 1 ≤ Config.memWords) (r : Reg) (w : Word) :
    (c.popWord r w).phase.AtRest := by
  have hle : (c.reg .sp).toNat + 1 ≤ 2 ^ 52 := h
  have hnat : (c.reg .sp + 1).toNat = (c.reg .sp).toNat + 1 := by
    rw [BitVec.toNat_add]
    exact Nat.mod_eq_of_lt (by simp; omega)
  have hpos : ¬ s64 (c.reg .sp + 1) < 0 := by
    rw [s64, BitVec.toInt_eq_toNat_of_lt (by omega)]
    omega
  rw [(c.popWord_completes r w hpos).phase]
  exact .ready

/-- Completing on the answer of a memory that keeps its contract leaves the Core at rest (R148). -/
theorem completeData_atRest {c : CoreState} {req m : CoreMsg} (hdata : c.phase.awaitingData = true)
    (hreq : c.phase.request? = some req) (hm : answers req m) (hpop : c.PopOk) :
    (completeData m c).phase.AtRest := by
  unfold completeData
  cases hp : c.phase with
  | ready => rw [hp] at hdata; cases hdata
  | awaitFetch a => rw [hp] at hdata; cases hdata
  | halted cause info => rw [hp] at hdata; cases hdata
  | awaitLoad r a =>
    rw [hp] at hreq
    cases hreq
    exact CoreState.takeAnswer_atRest ((checkAnswer_of_read hm).imp_left fun ⟨ws, hws, _⟩ => ⟨ws, hws, .ready⟩)
  | awaitStore a v =>
    rw [hp] at hreq
    cases hreq
    exact CoreState.takeAnswer_atRest ((checkAnswer_of_write hm).imp_left fun ⟨ws, hws⟩ => ⟨ws, hws, .ready⟩)
  | awaitPush a v =>
    rw [hp] at hreq
    cases hreq
    exact CoreState.takeAnswer_atRest ((checkAnswer_of_write hm).imp_left fun ⟨ws, hws⟩ => ⟨ws, hws, .ready⟩)
  | awaitPop r a =>
    rw [hp] at hreq
    cases hreq
    obtain rfl : a = popAddr c := hpop r a hp
    exact CoreState.takeAnswer_atRest
      ((checkAnswer_of_read hm).imp_left fun ⟨ws, hws, hle⟩ => ⟨ws, hws, c.popWord_atRest hle r _⟩)

/-- The two queues of a Core. -/
def CoreState.queues (c : CoreState) : List CoreMsg × List CoreMsg := (c.up, c.down)

theorem CoreState.takeAnswer_queues {c : CoreState} (ans : Answer) {k : List Word → CoreState}
    (hk : ∀ ws, (k ws).queues = c.queues) : (c.takeAnswer ans k).queues = c.queues :=
  CoreState.takeAnswer_field CoreState.queues (fun _ _ _ => rfl) c ans k hk

theorem CoreState.popWord_queues (c : CoreState) (r : Reg) (w : Word) : (c.popWord r w).queues = c.queues := by
  unfold CoreState.popWord
  dsimp only
  split <;> rfl

/-- A completion touches no queue. -/
theorem completeData_queues (m : CoreMsg) (c : CoreState) : (completeData m c).queues = c.queues := by
  unfold completeData
  split
  · exact CoreState.takeAnswer_queues _ fun _ => rfl
  · exact CoreState.takeAnswer_queues _ fun _ => rfl
  · exact CoreState.takeAnswer_queues _ fun _ => rfl
  · exact CoreState.takeAnswer_queues _ fun _ => CoreState.popWord_queues _ _ _
  all_goals rfl

/-- *DataResponse* (R148) keeps the bus invariant. -/
theorem State.BusInv.complete {s : State} (h : s.BusInv) {i : Nat} {c : CoreState} (hc : s.cores[i]? = some c)
    (hdata : c.phase.awaitingData = true) {m : CoreMsg} {rest : List CoreMsg} (hdown : c.down = m :: rest) :
    (s.setCore i (completeData m (c.setDown rest))).BusInv := by
  obtain ⟨req, hreq⟩ := Phase.request_of_awaitingData hdata
  obtain ⟨hfree, hm⟩ := h.free_of_answer hc hreq hdown
  have hqueues := completeData_queues m (c.setDown rest)
  exact (hfree.congr (congrArg Prod.fst hqueues) (congrArg Prod.snd hqueues) (completeData_changes m _).id).setCore
    (completeData_atRest (c := c.setDown rest) hdata hreq hm (h.2 i c hc).2)

/-- Taking the answer to a fetch leaves the Core at rest with nothing in flight (R142, R146). -/
theorem State.Free.fetched {s : State} {i : Nat} {c : CoreState} (h : s.Free i c) {a : Word} {m : CoreMsg}
    (hm : answers (.requestBlock a Config.windowCount) m) : (s.setCore i (c.fetched a m)).BusInv := by
  have hqueues : (c.fetched a m).queues = c.queues := CoreState.takeAnswer_queues _ fun _ => rfl
  refine (h.congr (congrArg Prod.fst hqueues) (congrArg Prod.snd hqueues) (CoreState.Changes.fetched c a m).id).setCore
    (CoreState.takeAnswer_atRest ?_)
  exact (checkAnswer_of_read hm).imp_left fun ⟨ws, hws, _⟩ => ⟨ws, hws, .ready⟩

/-! ### Instructions -/

/-- The reception of the active Core's answer (R148, R149), where `k` is the completion of the phase it waits in. -/
theorem State.BusInv.receive {s : State} (h : s.BusInv) {c : CoreState} (hc : s.cores[s.active]? = some c)
    (hdata : c.phase.awaitingData = true) {k : CoreMsg → CoreState → CoreState}
    (hk : ∀ m d, d.phase = c.phase → k m d = completeData m d) : (s.receive k).BusInv := by
  rcases s.receive_cases k with e | ⟨d, hd, e⟩
  · rw [e]
    exact h
  · rw [hc] at hd
    cases hd
    rcases e with ⟨m, rest, hdown, e⟩ | ⟨_, _, e⟩ <;> rw [e]
    · rw [hk m (c.setDown rest) rfl]
      exact h.complete hc hdata hdown
    · obtain ⟨req, hreq⟩ := Phase.request_of_awaitingData hdata
      exact h.halt_waiting hc hreq

/-- After its request went and the bus ran, the active Core still waits in the phase it sent it in. -/
theorem State.send_transport_phase {s : State} {c0 c : CoreState} (hc0 : s.cores[s.active]? = some c0)
    (hlink : s.linkDown c = false) (msg : CoreMsg) (ph : Phase) :
    ∃ d, (s.send c msg ph).transport.cores[s.active]? = some d ∧ d.phase = ph := by
  have hsent : (s.send c msg ph).cores[s.active]? = some { c with up := c.up ++ [msg], phase := ph } := by
    rw [State.send, hlink]
    exact State.setCore_get_self hc0
  obtain ⟨d, hd, ho, _⟩ := (s.send c msg ph).transport_keepsOwn s.active _ hsent
  exact ⟨d, hd, congrArg (·.2.2.2.1) ho⟩

/-- One transaction: the request is sent, the bus runs, the answer is taken (R66, R67). -/
theorem State.Free.transact {s : State} {c0 c : CoreState} (h : s.Free s.active c)
    (hc0 : s.cores[s.active]? = some c0) {msg : CoreMsg} {ph : Phase} {k : CoreMsg → CoreState → CoreState}
    (hreq : ph.request? = some msg) (hdata : ph.awaitingData = true) (hpop : (c.setPhase ph).PopOk)
    (hk : ∀ m d, d.phase = ph → k m d = completeData m d) : (s.transact c msg ph k).BusInv := by
  have hsent := h.send hreq hpop
  unfold State.transact
  cases hlink : s.linkDown c with
  | true => exact hsent
  | false =>
    obtain ⟨d, hd, hph⟩ := State.send_transport_phase hc0 hlink msg ph
    have hact : (s.send c msg ph).transport.active = s.active := by simp
    exact (busInv_busKeeps.transport hsent).receive (hact ▸ hd) (hph ▸ hdata) (hph ▸ hk)

theorem CoreState.popAddr_popOk (c : CoreState) (r : Reg) : (c.setPhase (.awaitPop r (popAddr c))).PopOk := by
  intro r' a hp
  cases hp
  rfl

/-- A Core with nothing in flight may become `Ready`. -/
theorem State.Free.setReady {s : State} {i : Nat} {c d : CoreState} (h : s.Free i c) (hup : d.up = c.up)
    (hdown : d.down = c.down) (hid : d.id = c.id) (hready : d.phase = .ready) : (s.setCore i d).BusInv :=
  (h.congr hup hdown hid).setCore (hready ▸ .ready)

theorem State.Free.completes {s : State} {i : Nat} {c d : CoreState} (h : s.Free i c) {upd : Reg → Word} {f : Flags}
    (hd : c.CompletesTo d upd f) : (s.setCore i d).BusInv :=
  h.setReady hd.up hd.down hd.id hd.phase

theorem State.Free.jump {s : State} {i : Nat} {c : CoreState} (h : s.Free i c) (taken : Bool) (addr : Nat) :
    (s.setCore i (c.jump taken addr)).BusInv := by
  cases taken with
  | true =>
    have hj := c.jump_taken addr
    exact h.setReady hj.up hj.down hj.id hj.phase
  | false => exact h.completes (c.jump_not_taken addr)

/-- `run` keeps the bus invariant (R147): what needs no bus ends `Ready`, the others send one request. -/
theorem State.BusInv.beginInstr {s t : State} (h : s.BusInv) {i : Instr} (he : Machine.beginInstr i s = .next t) :
    t.BusInv := by
  cases i <;> obtain ⟨c, hc, hready, rfl⟩ := State.onReady_cases he <;> have hfree := h.free_of_ready hc hready
  case nop => exact hfree.completes (c.setFlags_completes _)
  case add => exact hfree.completes (c.arith_completes _ _)
  case mul => exact hfree.completes (c.arith_completes _ _)
  case load => exact hfree.send rfl (.of_phase fun _ _ hp => nomatch hp)
  case store => exact hfree.send rfl (.of_phase fun _ _ hp => nomatch hp)
  case push => exact (hfree.congr (d := c.pushed) rfl rfl rfl).send rfl (.of_phase fun _ _ hp => nomatch hp)
  case pop => exact hfree.send rfl (c.popAddr_popOk _)
  case jumpIfZero => exact hfree.jump _ _
  case jumpIfPositive => exact hfree.jump _ _
  case jumpIfNegative => exact hfree.jump _ _

/-- Every instruction carried through keeps the bus invariant: a whole transaction, or what `run` does. -/
theorem State.BusInv.exec {s t : State} (h : s.BusInv) {i : Instr} (he : Machine.exec i s = .next t) : t.BusInv := by
  cases i
  case nop => exact h.beginInstr (i := .nop) he
  case add r1 r2 => exact h.beginInstr (i := .add r1 r2) he
  case mul r1 r2 => exact h.beginInstr (i := .mul r1 r2) he
  case jumpIfZero addr => exact h.beginInstr (i := .jumpIfZero addr) he
  case jumpIfPositive addr => exact h.beginInstr (i := .jumpIfPositive addr) he
  case jumpIfNegative addr => exact h.beginInstr (i := .jumpIfNegative addr) he
  all_goals
    obtain ⟨c, hc, hready, rfl⟩ := State.onReady_cases he
    have hfree := h.free_of_ready hc hready
  case load =>
    exact hfree.transact hc rfl rfl (.of_phase fun _ _ hp => nomatch hp) fun m d hd => by simp [completeData, hd]
  case store =>
    exact hfree.transact hc rfl rfl (.of_phase fun _ _ hp => nomatch hp) fun m d hd => by simp [completeData, hd]
  case push =>
    exact (hfree.congr (d := c.pushed) rfl rfl rfl).transact hc rfl rfl (.of_phase fun _ _ hp => nomatch hp)
      fun m d hd => by simp [completeData, hd]
  case pop => exact hfree.transact hc rfl rfl (c.popAddr_popOk _) fun m d hd => by simp [completeData, hd]

/-! ### Events of a Core -/

/-- What goes on with a decoded instruction keeps the bus invariant: true of `exec` and of `beginInstr`. -/
def KeepsBusInv (k : Instr → State → Result) : Prop :=
  ∀ (i : Instr) (s t : State), s.BusInv → k i s = .next t → t.BusInv

theorem exec_keepsBusInv : KeepsBusInv exec := fun _ _ _ h he => h.exec he

theorem beginInstr_keepsBusInv : KeepsBusInv beginInstr := fun _ _ _ h he => h.beginInstr he

theorem decodeCause_ne_malformedResponse (e : DecodeError) : decodeCause e ≠ .malformedResponse := by
  cases e <;> decide

theorem decodeCause_ne_stackUnderflow (e : DecodeError) : decodeCause e ≠ .stackUnderflow := by
  cases e <;> decide

/-- Decoding and running keeps the bus invariant; the Core is `Ready` when a decode error halts it (R141 step 3). -/
theorem State.BusInv.decodeThen {s t : State} (h : s.BusInv) {k : Instr → State → Result} (hk : KeepsBusInv k)
    {c : CoreState} (hc : s.cores[s.active]? = some c) (hready : c.phase = .ready) {w a : Word}
    (he : s.decodeThen k w a = .next t) : t.BusInv := by
  rcases State.decodeThen_cases he with ⟨i, _, he⟩ | ⟨e, d, _, hd, rfl⟩
  · exact hk i s t h he
  · rw [hc] at hd
    cases hd
    exact (h.free_of_ready hc hready).halt _ (decodeCause_ne_malformedResponse e) (decodeCause_ne_stackUnderflow e)

/-- Taking the answer to the fetch at `a` and running the word at `a` keeps the bus invariant (R142, R146). -/
theorem State.BusInv.afterFetch {s t : State} (h : s.BusInv) {k : Instr → State → Result} (hk : KeepsBusInv k)
    {c : CoreState} (hc : s.cores[s.active]? = some c) {a : Word} (hphase : c.phase = .awaitFetch a) {m : CoreMsg}
    {rest : List CoreMsg} (hdown : c.down = m :: rest) (he : s.afterFetch k (c.setDown rest) a m = .next t) :
    t.BusInv := by
  obtain ⟨hfree, hm⟩ := h.free_of_answer hc (congrArg Phase.request? hphase) hdown
  have hfetched := hfree.fetched hm
  unfold State.afterFetch at he
  dsimp only at he
  split at he
  · rename_i hready
    split at he
    · exact hfetched.decodeThen hk (State.setCore_get_self hc) hready he
    · cases he
      exact hfetched
  · cases he
    exact hfetched

theorem State.BusInv.sendFetch {s : State} (h : s.BusInv) {c : CoreState} (hc : s.cores[s.active]? = some c)
    (hready : c.phase = .ready) : (s.sendFetch c).BusInv :=
  (h.free_of_ready hc hready).send rfl (.of_phase fun _ _ hp => nomatch hp)

/-- *Begin* (R145). -/
theorem State.BusInv.evBegin {s t : State} (h : s.BusInv) {i : Nat} (he : s.evBegin i = .next t) : t.BusInv := by
  have hi : (s.withActive i).BusInv := h
  unfold State.evBegin at he
  split at he
  · exact State.idle_cases he ▸ h
  · rename_i c hc
    split at he
    · rename_i hrun
      split at he
      · exact hi.decodeThen beginInstr_keepsBusInv hc hrun.1 he
      · cases he
        exact hi.sendFetch hc hrun.1
    · exact State.idle_cases he ▸ h

/-- *FetchResponse* (R146). -/
theorem State.BusInv.evFetchResponse {s t : State} (h : s.BusInv) {i : Nat} (he : s.evFetchResponse i = .next t) :
    t.BusInv := by
  have hi : (s.withActive i).BusInv := h
  unfold State.evFetchResponse at he
  split at he
  · exact State.idle_cases he ▸ h
  · rename_i c hc
    split at he
    · rename_i hphase hdown
      exact hi.afterFetch beginInstr_keepsBusInv hc hphase hdown he
    · exact State.idle_cases he ▸ h

/-- *DataResponse* (R148). -/
theorem State.BusInv.evDataResponse {s t : State} (h : s.BusInv) {i : Nat} (he : s.evDataResponse i = .next t) :
    t.BusInv := by
  have hi : (s.withActive i).BusInv := h
  unfold State.evDataResponse at he
  split at he
  · exact State.idle_cases he ▸ h
  · rename_i c hc
    split at he
    · exact State.idle_cases he ▸ h
    · rename_i m rest hdown
      split at he
      · rename_i hdata
        cases he
        exact hi.complete hc hdata hdown
      · exact State.idle_cases he ▸ h

/-- *Disconnect* (R149). -/
theorem State.BusInv.evDisconnect {s t : State} (h : s.BusInv) {i : Nat} (he : s.evDisconnect i = .next t) :
    t.BusInv := by
  have hi : (s.withActive i).BusInv := h
  unfold State.evDisconnect at he
  split at he
  · exact State.idle_cases he ▸ h
  · rename_i c hc
    split at he
    · rename_i hwait
      cases he
      obtain ⟨req, hreq⟩ := Phase.request_of_awaiting hwait.1
      exact hi.halt_waiting hc hreq
    · exact State.idle_cases he ▸ h

/-- A step that missed: the fetch is a transaction whose answer goes to the window (R142). -/
theorem State.BusInv.missStep {s t : State} (h : s.BusInv) {c : CoreState} (hc : s.cores[s.active]? = some c)
    (hready : c.phase = .ready) (he : s.missStep c = .next t) : t.BusInv := by
  have hsent := h.sendFetch hc hready
  unfold State.missStep at he
  cases hlink : s.linkDown c with
  | true =>
    rw [hlink] at he
    cases he
    exact hsent
  | false =>
    obtain ⟨d, hd, hphase⟩ := State.send_transport_phase hc hlink (.requestBlock (fetchAddr c) Config.windowCount)
      (.awaitFetch (fetchAddr c))
    have hact : (s.sendFetch c).transport.active = s.active := by simp [State.sendFetch]
    have hd' : (s.sendFetch c).transport.cores[(s.sendFetch c).transport.active]? = some d := hact ▸ hd
    have hran : (s.sendFetch c).transport.BusInv := busInv_busKeeps.transport hsent
    rw [hlink] at he
    simp only [Bool.false_eq_true, if_false, hd'] at he
    split at he
    · rename_i hdown
      exact hran.afterFetch exec_keepsBusInv hd' hphase hdown he
    · split at he
      · cases he
        exact hran.halt_waiting hd' (congrArg Phase.request? hphase)
      · cases he
        exact hran

/-- The step as one sequence (R141). -/
theorem State.BusInv.evFullStep {s t : State} (h : s.BusInv) {i : Nat} (he : s.evFullStep i = .next t) : t.BusInv := by
  have hi : (s.withActive i).BusInv := h
  unfold State.evFullStep at he
  split at he
  · exact State.idle_cases he ▸ h
  · rename_i c hc
    split at he
    · rename_i hrun
      split at he
      · exact hi.decodeThen exec_keepsBusInv hc hrun.1 he
      · exact hi.missStep hc hrun.1 he
    · exact State.idle_cases he ▸ h

/-- Losing a Core's channel moves no message (R204). -/
theorem State.BusInv.linkLost {s : State} (h : s.BusInv) (i : Nat) : (s.linkLost i).BusInv := by
  unfold State.linkLost
  split
  · exact h
  · rename_i c hc
    obtain ⟨hbus, hpop⟩ := h.2 i c hc
    exact h.setCore (h.1 i c hc) hbus hpop

/-- Every event but a breach of the memory's contract keeps the bus invariant. -/
theorem State.BusInv.perform {s t : State} (h : s.BusInv) {e : Event} (hgood : e.wellBehaved = true)
    (he : s.perform e = .next t) : t.BusInv := by
  cases e with
  | fullStep i => exact h.evFullStep he
  | begin i => exact h.evBegin he
  | fetchResponse i => exact h.evFetchResponse he
  | dataResponse i => exact h.evDataResponse he
  | disconnect i => exact h.evDisconnect he
  | routerUp i => cases he; exact busInv_busKeeps.up s i h
  | routerDown => cases he; exact busInv_busKeeps.down s h
  | memServe => cases he; exact busInv_busKeeps.serve s h
  | memRogue take writes answers => cases hgood
  | linkLost i => cases he; exact h.linkLost i
  | memLinkLost => cases he; exact h
  | hostRun run => cases he; exact h
  | hostReset =>
    cases he
    exact ⟨resetOf_allCores (Q := fun i c => c.id = i) (fun _ => rfl) s.cores.length s.mem,
      resetOf_busOk s.cores.length s.mem⟩

/-- Settles O56: the event is no breach, and taking it from the list of events moves no message. -/
theorem oneOutstandingRequestKept : Obligations.OneOutstandingRequestKept := by
  intro s t hids hbus hgood hstep
  have h : s.nextEvent.2.BusInv := State.nextEvent_keeps (P := State.BusInv) (fun _ _ _ h => h) ⟨hids, hbus⟩
  exact (h.perform hgood hstep).2

end Sys2Proof.Machine
end

section
/-! Proof that a Core's identity takes no part in its own events (R42): every operation an event is made of commutes
with giving the active Core another identity. -/

namespace Sys2Proof.Machine

/-! ### One Core -/

/-- The Core wearing the identity `k`. -/
def CoreState.withId (c : CoreState) (k : Nat) : CoreState := { c with id := k }

theorem CoreState.takeAnswer_withId {c : CoreState} {k : Nat} (ans : Answer) {f g : List Word → CoreState}
    (h : ∀ ws, f ws = (g ws).withId k) : (c.withId k).takeAnswer ans f = (c.takeAnswer ans g).withId k := by
  cases ans with
  | words ws => exact h ws
  | bad cause info => rfl

theorem CoreState.fetched_withId (c : CoreState) (k : Nat) (a : Word) (m : CoreMsg) :
    (c.withId k).fetched a m = (c.fetched a m).withId k :=
  CoreState.takeAnswer_withId _ fun _ => rfl

theorem CoreState.popWord_withId (c : CoreState) (k : Nat) (r : Reg) (w : Word) :
    (c.withId k).popWord r w = (c.popWord r w).withId k := by
  by_cases h : s64 (c.reg .sp + 1) < 0
  · rw [c.popWord_underflow r w h]
    exact (c.withId k).popWord_underflow r w h
  · have h' : ¬ s64 ((c.withId k).reg .sp + 1) < 0 := h
    simp only [CoreState.popWord, if_neg h, if_neg h']
    rfl

theorem completeData_withId (m : CoreMsg) (c : CoreState) (k : Nat) :
    completeData m (c.withId k) = (completeData m c).withId k := by
  have hphase : (c.withId k).phase = c.phase := rfl
  unfold completeData
  rw [hphase]
  split
  · exact CoreState.takeAnswer_withId _ fun _ => rfl
  · exact CoreState.takeAnswer_withId _ fun _ => rfl
  · exact CoreState.takeAnswer_withId _ fun _ => rfl
  · exact CoreState.takeAnswer_withId _ fun _ => c.popWord_withId k _ _
  all_goals rfl

theorem CoreState.jump_withId (c : CoreState) (k : Nat) (taken : Bool) (addr : Nat) :
    (c.withId k).jump taken addr = (c.jump taken addr).withId k := by
  cases taken <;> rfl

/-! ### The Package -/

theorem State.renameCore_of_some {s : State} {i : Nat} {c : CoreState} (h : s.cores[i]? = some c) (k : Nat) :
    s.renameCore i k = s.setCore i (c.withId k) := by
  unfold State.renameCore
  rw [h]
  rfl

theorem State.renameCore_of_none {s : State} {i : Nat} (h : s.cores[i]? = none) (k : Nat) : s.renameCore i k = s := by
  unfold State.renameCore
  rw [h]

/-- Renaming changes the list of Cores only. -/
theorem State.renameCore_eq (s : State) (i k : Nat) :
    s.renameCore i k = { s with cores := (s.renameCore i k).cores } := by
  unfold State.renameCore
  split <;> rfl

@[simp] theorem State.renameCore_active (s : State) (i k : Nat) : (s.renameCore i k).active = s.active := by
  rw [s.renameCore_eq]

@[simp] theorem State.renameCore_runInput (s : State) (i k : Nat) : (s.renameCore i k).runInput = s.runInput := by
  rw [s.renameCore_eq]

@[simp] theorem State.linkDown_renameCore (s : State) (i k : Nat) (c : CoreState) :
    (s.renameCore i k).linkDown c = s.linkDown c := by
  rw [s.renameCore_eq]
  rfl

theorem State.renameCore_get {s : State} {i : Nat} {c : CoreState} (h : s.cores[i]? = some c) (k : Nat) :
    (s.renameCore i k).cores[i]? = some (c.withId k) := by
  rw [State.renameCore_of_some h]
  exact State.setCore_get_self h

theorem State.renameCore_get_none {s : State} {i : Nat} (h : s.cores[i]? = none) (k : Nat) :
    (s.renameCore i k).cores[i]? = none := by
  rwa [State.renameCore_of_none h]

theorem State.withActive_renameCore (s : State) (i j k : Nat) :
    (s.renameCore i k).withActive j = (s.withActive j).renameCore i k := by
  cases h : s.cores[i]? with
  | none => rw [State.renameCore_of_none h, State.renameCore_of_none (s := s.withActive j) h]
  | some c =>
    rw [State.renameCore_of_some h, State.renameCore_of_some (s := s.withActive j) h]
    rfl

/-- Putting the renamed Core in the renamed Package. -/
theorem State.setCore_renameCore {s : State} {i : Nat} {c : CoreState} (h : s.cores[i]? = some c) (d : CoreState)
    (k : Nat) :
    (s.renameCore i k).setCore i (d.withId k) = (s.setCore i d).renameCore i k := by
  rw [State.renameCore_of_some h, State.renameCore_of_some (State.setCore_get_self h), State.setCore_setCore,
    State.setCore_setCore]

/-- No output looks at an identity: the renamed Package is as halted. -/
theorem State.allHalted_renameCore (s : State) (i k : Nat) : (s.renameCore i k).allHalted = s.allHalted := by
  cases h : s.cores[i]? with
  | none => rw [State.renameCore_of_none h]
  | some c =>
    have hsame : (s.cores.map CoreState.isHalted).set i (c.withId k).isHalted = s.cores.map CoreState.isHalted := by
      obtain ⟨hi, rfl⟩ := List.getElem?_eq_some_iff.mp h
      have hget : (s.cores.map CoreState.isHalted)[i]'(by simpa using hi) = (s.cores[i].withId k).isHalted :=
        List.getElem_map CoreState.isHalted
      rw [← hget, List.set_getElem_self]
    have hall : ∀ l : List CoreState, l.all CoreState.isHalted = (l.map CoreState.isHalted).all id := fun l => by
      rw [List.all_map]
      rfl
    rw [State.renameCore_of_some h, State.allHalted, State.allHalted, hall, hall, State.setCore_cores,
      List.map_set, hsame]

/-- A result in which Core `i` wears the identity `k`. -/
def renameResult (i k : Nat) : Result → Result
  | .next t => .next (t.renameCore i k)
  | .fault f => .fault f
  | .refused r => .refused r

theorem State.idle_renameCore (s : State) (i k : Nat) : (s.renameCore i k).idle = renameResult i k s.idle := by
  unfold State.idle
  rw [s.allHalted_renameCore]
  split <;> rfl

/-! ### What runs on the active Core -/

/-- The identity of the active Core takes no part in `F`. -/
def IdUnseen (F : State → Result) : Prop :=
  ∀ (s : State) (k : Nat), F (s.renameCore s.active k) = renameResult s.active k (F s)

/-- An instruction whose effect on the Package commutes with renaming does not see the identity. -/
theorem onReady_idUnseen {f : State → CoreState → State}
    (hf : ∀ (s : State) (c : CoreState) (k : Nat), s.cores[s.active]? = some c →
      f (s.renameCore s.active k) (c.withId k) = (f s c).renameCore s.active k) :
    IdUnseen fun s => s.onReady (f s) := by
  intro s k
  dsimp only [State.onReady]
  rw [s.renameCore_active]
  cases hc : s.cores[s.active]? with
  | none =>
    rw [State.renameCore_get_none hc]
    rfl
  | some c =>
    rw [State.renameCore_get hc]
    have hphase : (c.withId k).phase = c.phase := rfl
    dsimp only
    rw [hphase, hf s c k hc]
    split <;> rfl

/-- An instruction that only replaces the active Core. -/
theorem onReady_setCore_idUnseen {g : CoreState → CoreState} (hg : ∀ c k, g (c.withId k) = (g c).withId k) :
    IdUnseen fun s => s.onReady fun c => s.setCore s.active (g c) := by
  refine onReady_idUnseen fun s c k hc => ?_
  rw [hg, s.renameCore_active]
  exact State.setCore_renameCore hc _ k

theorem State.send_renameCore {s : State} {c0 : CoreState} (h0 : s.cores[s.active]? = some c0) (c : CoreState) (k : Nat)
    (msg : CoreMsg) (ph : Phase) :
    (s.renameCore s.active k).send (c.withId k) msg ph = (s.send c msg ph).renameCore s.active k := by
  have hlink : s.linkDown (c.withId k) = s.linkDown c := rfl
  rw [State.send, State.send, ← State.setCore_renameCore h0, s.renameCore_active, s.linkDown_renameCore, hlink]
  split <;> rfl

/-- An instruction that issues a request. -/
theorem onReady_send_idUnseen {g : CoreState → CoreState} {msg : CoreState → CoreMsg} {ph : CoreState → Phase}
    (hg : ∀ c k, g (c.withId k) = (g c).withId k) (hmsg : ∀ c k, msg (c.withId k) = msg c)
    (hph : ∀ c k, ph (c.withId k) = ph c) : IdUnseen fun s => s.onReady fun c => s.send (g c) (msg c) (ph c) := by
  refine onReady_idUnseen fun s c k hc => ?_
  rw [hg, hmsg, hph]
  exact State.send_renameCore hc _ k _ _

/-- No instruction that begins sees the identity of its Core. -/
theorem beginInstr_idUnseen (i : Instr) : IdUnseen (beginInstr i) := by
  cases i with
  | nop => exact onReady_setCore_idUnseen fun _ _ => rfl
  | add r1 r2 => exact onReady_setCore_idUnseen fun _ _ => rfl
  | mul r1 r2 => exact onReady_setCore_idUnseen fun _ _ => rfl
  | load r1 addr => exact onReady_send_idUnseen (g := id) (fun _ _ => rfl) (fun _ _ => rfl) fun _ _ => rfl
  | store addr r1 => exact onReady_send_idUnseen (g := id) (fun _ _ => rfl) (fun _ _ => rfl) fun _ _ => rfl
  | push r1 => exact onReady_send_idUnseen (g := CoreState.pushed) (fun _ _ => rfl) (fun _ _ => rfl) fun _ _ => rfl
  | pop r1 => exact onReady_send_idUnseen (g := id) (fun _ _ => rfl) (fun _ _ => rfl) fun _ _ => rfl
  | jumpIfZero addr => exact onReady_setCore_idUnseen fun c k => c.jump_withId k _ addr
  | jumpIfPositive addr => exact onReady_setCore_idUnseen fun c k => c.jump_withId k _ addr
  | jumpIfNegative addr => exact onReady_setCore_idUnseen fun c k => c.jump_withId k _ addr

theorem decodeThen_idUnseen {f : Instr → State → Result} (hf : ∀ i, IdUnseen (f i)) (w a : Word) :
    IdUnseen fun s => s.decodeThen f w a := by
  intro s k
  dsimp only [State.decodeThen]
  cases decode w with
  | ok i => exact hf i s k
  | err e =>
    dsimp only
    rw [s.renameCore_active]
    cases hc : s.cores[s.active]? with
    | none =>
      rw [State.renameCore_get_none hc]
      rfl
    | some c =>
      rw [State.renameCore_get hc]
      exact congrArg Host.Outcome.next
        (State.setCore_renameCore hc (c.halt (decodeCause e) (.fetched w a)) k)

/-- Taking the answer to a fetch and running on does not see the identity. -/
theorem State.afterFetch_renameCore {s : State} {c0 : CoreState} (h0 : s.cores[s.active]? = some c0)
    {f : Instr → State → Result} (hf : ∀ i, IdUnseen (f i)) (c : CoreState) (k : Nat) (a : Word) (m : CoreMsg) :
    (s.renameCore s.active k).afterFetch f (c.withId k) a m = renameResult s.active k (s.afterFetch f c a m) := by
  dsimp only [State.afterFetch]
  rw [c.fetched_withId, s.renameCore_active, State.setCore_renameCore h0]
  have hphase : ((c.fetched a m).withId k).phase = (c.fetched a m).phase := rfl
  have hwin : ((c.fetched a m).withId k).win = (c.fetched a m).win := rfl
  rw [hphase, hwin]
  split
  · split
    · exact decodeThen_idUnseen hf _ a (s.setCore s.active (c.fetched a m)) k
    · rfl
  · rfl

/-! ### The events -/

theorem State.evBegin_renameCore (s : State) (i k : Nat) :
    (s.renameCore i k).evBegin i = renameResult i k (s.evBegin i) := by
  have hidle := s.idle_renameCore i k
  unfold State.evBegin
  cases hc : s.cores[i]? with
  | none =>
    rw [State.renameCore_get_none hc]
    exact hidle
  | some c =>
    rw [State.renameCore_get hc, s.renameCore_runInput, s.withActive_renameCore]
    have hphase : (c.withId k).phase = c.phase := rfl
    have hwin : (c.withId k).win = c.win := rfl
    have haddr : fetchAddr (c.withId k) = fetchAddr c := rfl
    dsimp only
    rw [hphase, hwin, haddr]
    split
    · split
      · exact decodeThen_idUnseen beginInstr_idUnseen _ _ (s.withActive i) k
      · exact congrArg Host.Outcome.next (State.send_renameCore (s := s.withActive i) hc c k _ _)
    · exact hidle

theorem State.evFetchResponse_renameCore (s : State) (i k : Nat) :
    (s.renameCore i k).evFetchResponse i = renameResult i k (s.evFetchResponse i) := by
  have hidle := s.idle_renameCore i k
  unfold State.evFetchResponse
  cases hc : s.cores[i]? with
  | none =>
    rw [State.renameCore_get_none hc]
    exact hidle
  | some c =>
    rw [State.renameCore_get hc, s.withActive_renameCore]
    have hphase : (c.withId k).phase = c.phase := rfl
    have hdown : (c.withId k).down = c.down := rfl
    dsimp only
    rw [hphase, hdown]
    split
    · exact State.afterFetch_renameCore (s := s.withActive i) hc beginInstr_idUnseen (c.setDown _) k _ _
    · exact hidle

theorem State.evDataResponse_renameCore (s : State) (i k : Nat) :
    (s.renameCore i k).evDataResponse i = renameResult i k (s.evDataResponse i) := by
  have hidle := s.idle_renameCore i k
  unfold State.evDataResponse
  cases hc : s.cores[i]? with
  | none =>
    rw [State.renameCore_get_none hc]
    exact hidle
  | some c =>
    rw [State.renameCore_get hc, s.withActive_renameCore]
    have hphase : (c.withId k).phase = c.phase := rfl
    have hdown : (c.withId k).down = c.down := rfl
    dsimp only
    rw [hphase, hdown]
    split
    · exact hidle
    · rename_i m rest _
      split
      · exact congrArg Host.Outcome.next ((congrArg _ (completeData_withId m (c.setDown rest) k)).trans
          (State.setCore_renameCore (s := s.withActive i) hc _ k))
      · exact hidle

theorem State.evDisconnect_renameCore (s : State) (i k : Nat) :
    (s.renameCore i k).evDisconnect i = renameResult i k (s.evDisconnect i) := by
  have hidle := s.idle_renameCore i k
  unfold State.evDisconnect
  cases hc : s.cores[i]? with
  | none =>
    rw [State.renameCore_get_none hc]
    exact hidle
  | some c =>
    rw [State.renameCore_get hc, s.withActive_renameCore]
    have hphase : (c.withId k).phase = c.phase := rfl
    have hlink : s.linkDown (c.withId k) = s.linkDown c := rfl
    dsimp only
    rw [hphase, s.linkDown_renameCore, hlink]
    split
    · exact congrArg Host.Outcome.next
        (State.setCore_renameCore (s := s.withActive i) hc (c.halt .busDisconnected .nothing) k)
    · exact hidle

/-- Settles O41, an event at a time. -/
theorem identityIsUnseen : Obligations.IdentityIsUnseen := by
  intro s i k e he
  have h : (s.renameCore i k).perform e = renameResult i k (s.perform e) := by
    rcases he with rfl | rfl | rfl | rfl
    · exact s.evBegin_renameCore i k
    · exact s.evFetchResponse_renameCore i k
    · exact s.evDataResponse_renameCore i k
    · exact s.evDisconnect_renameCore i k
  rw [h]
  cases s.perform e <;> rfl

end Sys2Proof.Machine
end

section
/-! Proofs for the family of 20_memory: how the memory serves a message, the invariants of its contents and of the tags,
and that the Router starves no request and no answer. -/

namespace Sys2Proof.Machine

/-! ### The contents stay canonical (R60) -/

theorem memOk_busKeeps : BusKeeps State.MemOk where
  up s i h := by
    rcases s.routerUp_cases i with e | ⟨_, _, _, _, _, _, e⟩ <;> rw [e] <;> exact h
  serve s h := by
    rcases s.memServe_cases with e | ⟨_, _, _, _, _, e⟩ <;> rw [e]
    · exact h
    · exact Memory.wf_serve h _ _
  down s h := by
    rcases s.routerDown_cases with e | ⟨_, _, _, _, _, _, _, e⟩ | ⟨_, _, _, _, _, _, e⟩ <;> rw [e] <;> exact h

/-- What a memory that breaks its contract writes is inside the address space (R60). -/
theorem entriesInRange_filter (es : List Entry) :
    entriesInRange (es.filter fun e => decide (u64 e.1 < Config.memWords)) = true :=
  List.all_eq_true.mpr fun _ he => (List.mem_filter.mp he).2

/-- Only the memory writes its contents, and it writes inside the address space (R60, R72, R73). -/
theorem memOk_stepKeeps : StepKeeps State.MemOk where
  core i :=
    { set := fun _ _ _ h _ _ => h
      bus := memOk_busKeeps.onCore i
      active := fun _ h => h }
  bus := memOk_busKeeps
  rogue s take writes answers h := by
    unfold State.memRogue
    split
    · exact h
    · exact Memory.wf_writeAll h (entriesInRange_filter writes)
  linkLost s _ h := by
    unfold State.linkLost
    split <;> exact h
  memLinkLost _ h := h
  run _ _ h := h
  reset _ h := h
  take _ _ _ h := h

/-- Settles O54: every write of a step is inside the address space. -/
theorem memoryCanonicalKept : Obligations.MemoryCanonicalKept := fun _ _ h hstep => memOk_stepKeeps.step h hstep

/-! ### The tags fit their field (R69) -/

/-- The tags fit, and so do the identities that new tags are taken from (R42, R69). -/
def State.TagInv (s : State) : Prop := s.IdsOk ∧ s.TagsOk

/-- The tags are judged by how many Cores there are, whatever they hold. -/
theorem State.TagsOk.setCore {s : State} (h : s.TagsOk) (i : Nat) (c : CoreState) : (s.setCore i c).TagsOk := by
  simpa [State.TagsOk] using h

/-- *Up* tags with an identity, which is an index; the memory answers with the tag it was asked with (R70, R222). -/
theorem tagInv_busKeeps : BusKeeps State.TagInv where
  up s i h := by
    refine ⟨idsOk_stepKeeps.bus.up s i h.1, ?_⟩
    obtain ⟨hids, hup, hdown⟩ := h
    rcases s.routerUp_cases i with e | ⟨c, m, rest, hc, _, _, e⟩ <;> rw [e]
    · exact ⟨hup, hdown⟩
    · have hlt : i < s.cores.length := (List.getElem?_eq_some_iff.mp hc).1
      simp only [State.TagsOk, State.setCore_cores, State.setCore_memDown, List.length_set, List.forall_mem_append,
        List.forall_mem_singleton]
      exact ⟨⟨hup, hids i c hc ▸ TaggedMsg.fits_of_lt hlt m⟩, hdown⟩
  serve s h := by
    refine ⟨idsOk_stepKeeps.bus.serve s h.1, ?_⟩
    obtain ⟨_, hup, hdown⟩ := h
    rcases s.memServe_cases with e | ⟨t, m, rest, hu, _, e⟩ <;> rw [e]
    · exact ⟨hup, hdown⟩
    · rw [hu, List.forall_mem_cons] at hup
      exact ⟨hup.2, List.forall_mem_append.mpr ⟨hdown, List.forall_mem_singleton.mpr hup.1⟩⟩
  down s h := by
    refine ⟨idsOk_stepKeeps.bus.down s h.1, ?_⟩
    obtain ⟨_, hup, hdown⟩ := h
    rcases s.routerDown_cases with e | ⟨t, m, rest, c, hd, _, _, e⟩ | ⟨t, m, rest, hd, _, _, e⟩ <;> rw [e]
    · exact ⟨hup, hdown⟩
    · rw [hd, List.forall_mem_cons] at hdown
      exact State.TagsOk.setCore (s := { s with memDown := rest }) ⟨hup, hdown.2⟩ t _
    · rw [hd, List.forall_mem_cons] at hdown
      exact ⟨hup, hdown.2⟩

/-- Tags that fit stay so through every step, and identities stay the indexes (R42, R69). -/
theorem tagInv_stepKeeps : StepKeeps State.TagInv where
  core i :=
    { set := fun s c d h hc hcd =>
        have hids := (idsOk_stepKeeps.core i).set s c d ⟨h.1, h.2.1⟩ hc hcd
        ⟨hids.1, hids.2, h.2.2.setCore _ d⟩
      bus := tagInv_busKeeps.onCore i
      active := fun _ h => h }
  bus := tagInv_busKeeps
  rogue s take writes answers h := by
    refine ⟨idsOk_stepKeeps.rogue s take writes answers h.1, ?_⟩
    obtain ⟨_, hup, hdown⟩ := h
    unfold State.memRogue
    split
    · exact ⟨hup, hdown⟩
    · refine ⟨fun tm htm => hup tm ?_,
        List.forall_mem_append.mpr ⟨hdown, List.forall_mem_map.mpr fun tm _ => tm.fits_onPort _⟩⟩
      cases take
      · exact htm
      · exact List.mem_of_mem_tail htm
  linkLost s i h := by
    refine ⟨idsOk_stepKeeps.linkLost s i h.1, ?_⟩
    unfold State.linkLost
    split
    · exact h.2
    · exact h.2.setCore i _
  memLinkLost _ h := h
  run _ _ h := h
  reset s h := ⟨idsOk_stepKeeps.reset s h.1, List.forall_mem_nil _, List.forall_mem_nil _⟩
  take _ _ _ h := h

/-- With a power of two of Cores a tag that fits names a Core, so *Down* sets no `router_fault` (R7, R225). -/
theorem State.TagsOk.routerDown_routerFault {s : State} {k : Nat} (h : s.TagsOk) (hk : 1 ≤ k)
    (hlen : s.cores.length = 2 ^ k) : s.routerDown.routerFault = s.routerFault := by
  rcases s.routerDown_cases with e | ⟨_, _, _, _, _, _, _, e⟩ | ⟨t, m, rest, hd, _, hnone, _⟩
  · rw [e]
  · rw [e]
    rfl
  · have hfit : t < 2 ^ tagBits s.cores.length := h.2 (t, m) (by rw [hd]; exact List.mem_cons_self)
    rw [hlen, tagBits_two_pow hk, ← hlen] at hfit
    exact absurd (List.getElem?_eq_none_iff.mp hnone) (Nat.not_le.mpr hfit)

/-- Settles O59, by the step law of the tags and that of *Down*. -/
theorem tagsFitKept : Obligations.TagsFitKept :=
  ⟨fun _ _ hids htags hstep => (tagInv_stepKeeps.step (P := State.TagInv) ⟨hids, htags⟩ hstep).2,
    fun s _ h hk hlen => ⟨s.routerDown, rfl, h.routerDown_routerFault hk hlen⟩⟩

/-! ### How the memory serves a message (R70 to R73) -/

/-- The memory takes the head of `mem_up` and answers with its tag (R70). -/
theorem State.perform_memServe {s : State} {t : Nat} {msg ans : CoreMsg} {rest : List TaggedMsg} {mem : Memory}
    (hm : s.memDisconnected = false) (hup : s.memUp = (t, msg) :: rest)
    (hserve : s.mem.serve (Config.freeErrInfo s.tick) msg = (mem, ans)) :
    s.perform .memServe = .next { s with
      mem := mem, memUp := rest, memDown := s.memDown ++ [(t, ans)], tick := s.tick + 1 } := by
  simp [State.perform, State.memServe, hup, hm, hserve]

/-- Settles O47: the answer is the memory's block. -/
theorem memoryServesRead : Obligations.MemoryServesRead := by
  intro s t a n rest hm hup hn hfit
  have hrange : blockInRange (u64 a) n.toNat = true := by
    simp [blockInRange, hn, hfit]
  refine ⟨s.mem.block (u64 a) n.toNat, State.perform_memServe hm hup (Memory.serve_read _ _ hrange),
    Memory.block_length _ _ _, fun k hk => ⟨_, Memory.block_get _ _ _ k hk, ?_⟩⟩
  simp only [u64, zext64, BitVec.toNat_ofNat] at hfit ⊢
  omega

/-- A write of any number of words that is empty or not wholly in range is refused and changes nothing (R72). -/
theorem Memory.serve_writes_refused (m : Memory) (info : ErrInfo) {es : List Entry}
    (h : es = [] ∨ ∃ e ∈ es, 2 ^ 52 ≤ u64 e.1) : m.serve info (.giveBlock es) = (m, .error info) := by
  have hbad : (!es.isEmpty && entriesInRange es) = false := by
    rcases h with rfl | ⟨e, he, hout⟩
    · rfl
    · have hr : entriesInRange es = false :=
        List.all_eq_false.mpr ⟨e, he, decide_eq_false (Nat.not_lt.mpr hout) ▸ Bool.false_ne_true⟩
      rw [hr, Bool.and_false]
  simp [Memory.serve, hbad]

/-- Settles O48, a kind of message at a time. -/
theorem memoryRefuses : Obligations.MemoryRefuses := by
  intro s t m rest hm hup hbad
  cases m with
  | requestBlock a n =>
    have hrange : blockInRange (u64 a) n.toNat = false := by
      simp only [blockInRange, Config.memWords, Bool.and_eq_false_iff, decide_eq_false_iff_not]
      omega
    exact ⟨_, State.perform_memServe hm hup (Memory.serve_read_refused _ _ hrange)⟩
  | giveBlock es => exact ⟨_, State.perform_memServe hm hup (Memory.serve_writes_refused _ _ hbad)⟩
  | error info => exact hbad.elim

/-- A write of one word or more, wholly in range, is done in order and echoed (R73). -/
theorem Memory.serve_writes (m : Memory) (info : ErrInfo) {es : List Entry} (hne : es ≠ [])
    (hr : entriesInRange es = true) : m.serve info (.giveBlock es) = (m.writeAll es, .giveBlock es) := by
  simp [Memory.serve, hr, hne]

theorem Memory.writeAll_append (m : Memory) (pre post : List Entry) :
    m.writeAll (pre ++ post) = (m.writeAll pre).writeAll post := by
  induction pre generalizing m with
  | nil => rfl
  | cons e pre ih => exact ih _

/-- After a write an address holds the word of its last entry (R73). -/
theorem Memory.read_writeAll_last {m : Memory} (h : m.wf = true) {pre post : List Entry} {x v : Word}
    (hr : entriesInRange (pre ++ (x, v) :: post) = true) (hlast : ∀ e ∈ post, e.1 ≠ x) :
    (m.writeAll (pre ++ (x, v) :: post)).read (u64 x) = v := by
  simp only [entriesInRange, List.all_append, List.all_cons, Bool.and_eq_true, decide_eq_true_eq] at hr
  obtain ⟨hpre, hx, hpost⟩ := hr
  have hwf := Memory.wf_writeAll h hpre
  calc (m.writeAll (pre ++ (x, v) :: post)).read (u64 x)
      = (((m.writeAll pre).write (u64 x) v).writeAll post).read (u64 x) := by
        rw [Memory.writeAll_append, Memory.writeAll]
    _ = ((m.writeAll pre).write (u64 x) v).read (u64 x) :=
        Memory.read_writeAll_other (Memory.wf_write hwf hx v) hpost fun e he heq =>
          hlast e he (BitVec.eq_of_toNat_eq heq)
    _ = v := by rw [Memory.read_write hwf, if_pos rfl]

/-- Settles O49: the words written are read back, and an upward `Error` is refused. -/
theorem memoryServesWrite : Obligations.MemoryServesWrite := by
  refine ⟨fun s t es rest hm hok hup hne hin => ?_, fun s t x rest hm hup => ⟨_, State.perform_memServe hm hup rfl⟩⟩
  have hr : entriesInRange es = true := List.all_eq_true.mpr fun e he => decide_eq_true (hin e he)
  refine ⟨s.mem.writeAll es, State.perform_memServe hm hup (Memory.serve_writes _ _ hne hr),
    fun a ha => Memory.read_writeAll_other hok hr ha, ?_⟩
  rintro pre post x v rfl hlast
  exact Memory.read_writeAll_last hok hr hlast

/-! ### What a single event of a Core can do to the queues -/

/-- `t` is `s` with the active Core replaced by one that has sent what it had sent, and perhaps more (R145, R148). -/
def State.StepsCore (s t : State) : Prop :=
  ∃ c d, s.cores[s.active]? = some c ∧ c.up <+: d.up ∧ t = s.setCore s.active d

/-- A change of the active Core that sends nothing. -/
theorem State.StepsCore.of_up {s : State} {c d : CoreState} (hc : s.cores[s.active]? = some c) (h : d.up = c.up) :
    s.StepsCore (s.setCore s.active d) := ⟨c, d, hc, h ▸ List.prefix_rfl, rfl⟩

theorem State.StepsCore.send {s : State} {c0 c : CoreState} (hc : s.cores[s.active]? = some c0) (h : c.up = c0.up)
    (msg : CoreMsg) (ph : Phase) : s.StepsCore (s.send c msg ph) := by
  refine ⟨c0, _, hc, ?_, rfl⟩
  split
  · exact h ▸ List.prefix_rfl
  · exact h ▸ List.prefix_append _ _

theorem State.StepsCore.beginInstr {s t : State} {i : Instr} (he : Machine.beginInstr i s = .next t) : s.StepsCore t := by
  cases i <;> obtain ⟨c, hc, -, rfl⟩ := State.onReady_cases he
  case nop => exact .of_up hc rfl
  case add => exact .of_up hc rfl
  case mul => exact .of_up hc rfl
  case load => exact .send hc rfl _ _
  case store => exact .send hc rfl _ _
  case push => exact .send (c := c.pushed) hc rfl _ _
  case pop => exact .send hc rfl _ _
  all_goals
    refine .of_up hc ?_
    unfold CoreState.jump CoreState.branch
    split <;> rfl

theorem State.StepsCore.decodeThen {s t : State} {w a : Word} (he : s.decodeThen Machine.beginInstr w a = .next t) :
    s.StepsCore t := by
  rcases State.decodeThen_cases he with ⟨i, _, hi⟩ | ⟨_, c, _, hc, rfl⟩
  · exact .beginInstr hi
  · exact .of_up hc rfl

/-- A change of the active Core that sends nothing, and another after it. -/
theorem State.StepsCore.after_set {s t : State} {c d : CoreState} (hc : s.cores[s.active]? = some c) (hup : d.up = c.up)
    (h : (s.setCore s.active d).StepsCore t) : s.StepsCore t := by
  obtain ⟨d', e, hd', hpre, rfl⟩ := h
  rw [State.setCore_active, State.setCore_get_self hc] at hd'
  cases hd'
  exact ⟨c, e, hc, hup ▸ hpre, State.setCore_setCore s s.active d e⟩

/-- Taking the answer to a fetch sends nothing (R142, R146). -/
theorem CoreState.fetched_up (c : CoreState) (a : Word) (m : CoreMsg) : (c.fetched a m).up = c.up := by
  unfold CoreState.fetched
  exact CoreState.takeAnswer_field CoreState.up (fun _ _ _ => rfl) c _ _ fun _ => rfl

theorem State.StepsCore.afterFetch {s t : State} {c d : CoreState} (hc : s.cores[s.active]? = some c)
    (hup : d.up = c.up) {a : Word} {m : CoreMsg} (he : s.afterFetch Machine.beginInstr d a m = .next t) :
    s.StepsCore t := by
  have hf : (d.fetched a m).up = c.up := (d.fetched_up a m).trans hup
  unfold State.afterFetch at he
  dsimp only at he
  split at he
  · split at he
    · exact .after_set hc hf (.decodeThen he)
    · cases he
      exact .of_up hc hf
  · cases he
    exact .of_up hc hf

/-- The single events of Core `i`: it did nothing, or only that Core changed, and it still has to send what it had
(R145 to R149). -/
theorem State.perform_stepsCore {s t : State} {i : Nat} {e : Event} (hi : e.isOf i = true) (hs : e.single = true)
    (he : s.perform e = .next t) : t = s ∨ (s.withActive i).StepsCore t := by
  cases e <;> simp only [Event.isOf, Event.single, beq_iff_eq, Bool.false_eq_true] at hi hs <;> subst hi
  case begin j =>
    simp only [State.perform, State.evBegin] at he
    split at he
    · exact .inl (State.idle_cases he)
    · rename_i c hc
      split at he
      · right
        split at he
        · exact .decodeThen he
        · cases he
          exact .send hc rfl _ _
      · exact .inl (State.idle_cases he)
  case fetchResponse j =>
    simp only [State.perform, State.evFetchResponse] at he
    split at he
    · exact .inl (State.idle_cases he)
    · rename_i c hc
      split at he
      · rename_i a m rest _ _
        exact .inr (.afterFetch (d := c.setDown rest) hc rfl he)
      · exact .inl (State.idle_cases he)
  case dataResponse j =>
    simp only [State.perform, State.evDataResponse] at he
    split at he
    · exact .inl (State.idle_cases he)
    · rename_i c hc
      split at he
      · exact .inl (State.idle_cases he)
      · rename_i m rest hd
        split at he
        · cases he
          exact .inr (.of_up hc (congrArg Prod.fst (completeData_queues m (c.setDown rest))))
        · exact .inl (State.idle_cases he)
  case disconnect j =>
    simp only [State.perform, State.evDisconnect] at he
    split at he
    · exact .inl (State.idle_cases he)
    · rename_i c hc
      split at he
      · cases he
        exact .inr (.of_up hc rfl)
      · exact .inl (State.idle_cases he)

/-! ### The oldest request of a Core waits for its *Up*, the oldest answer for its *Down* -/

/-- The oldest request of Core `i` is `m`. -/
def State.OldestRequest (i : Nat) (m : CoreMsg) (s : State) : Prop :=
  ∃ c rest, s.cores[i]? = some c ∧ c.up = m :: rest

/-- The oldest answer at the Router is `tm`. -/
def State.OldestAnswer (tm : TaggedMsg) (s : State) : Prop := ∃ rest, s.memDown = tm :: rest

/-- Replacing a Core by one that has sent what it had sent, and perhaps more. -/
theorem State.OldestRequest.setCore {s : State} {i j : Nat} {m : CoreMsg} {c d : CoreState} (h : s.OldestRequest i m)
    (hc : s.cores[j]? = some c) (hpre : c.up <+: d.up) : (s.setCore j d).OldestRequest i m := by
  obtain ⟨c', rest, hc', hup⟩ := h
  by_cases hij : j = i
  · subst hij
    rw [hc] at hc'
    cases hc'
    obtain ⟨more, hmore⟩ := hpre
    exact ⟨d, rest ++ more, State.setCore_get_self hc, by rw [← hmore, hup, List.cons_append]⟩
  · exact ⟨c', rest, (State.setCore_get_other hij).trans hc', hup⟩

/-- Everything but its own *Up* and a reset leaves the oldest request of a Core where it is. -/
theorem State.OldestRequest.perform {s t : State} {i : Nat} {m : CoreMsg} {e : Event} (h : s.OldestRequest i m)
    (hs : e.single = true) (hne : e ≠ .routerUp i) (he : s.perform e = .next t) : t.OldestRequest i m := by
  have core : ∀ j, e.isOf j = true → t.OldestRequest i m := fun j hj => by
    rcases State.perform_stepsCore hj hs he with rfl | ⟨c, d, hc, hpre, rfl⟩
    · exact h
    · exact State.OldestRequest.setCore (s := s.withActive j) h hc hpre
  cases e with
  | fullStep j => cases hs
  | hostReset => cases hs
  | begin j => exact core j (beq_self_eq_true j)
  | fetchResponse j => exact core j (beq_self_eq_true j)
  | dataResponse j => exact core j (beq_self_eq_true j)
  | disconnect j => exact core j (beq_self_eq_true j)
  | routerUp j =>
    cases he
    rcases s.routerUp_cases j with e | ⟨c, m', rest, hc, _, _, e⟩ <;> rw [e]
    · exact h
    · obtain ⟨c', rest', hc', hup⟩ := h
      exact ⟨c', rest', (State.setCore_get_other fun hji => hne (by rw [hji])).trans hc', hup⟩
  | routerDown =>
    cases he
    rcases s.routerDown_cases with e | ⟨j, m', rest, c, _, _, hc, e⟩ | ⟨_, _, _, _, _, _, e⟩ <;> rw [e]
    · exact h
    · exact h.setCore hc List.prefix_rfl
    · exact h
  | memServe =>
    cases he
    unfold State.OldestRequest
    rwa [s.memServe_cores]
  | memRogue take writes answers =>
    cases he
    unfold State.OldestRequest
    rwa [s.memRogue_cores]
  | linkLost j =>
    cases he
    unfold State.linkLost
    split
    · exact h
    · rename_i c hc
      exact h.setCore hc List.prefix_rfl
  | memLinkLost => cases he; exact h
  | hostRun run => cases he; exact h

/-- Appending to the queue of answers leaves the oldest one the oldest. -/
theorem State.OldestAnswer.append {s t : State} {tm : TaggedMsg} (h : s.OldestAnswer tm) {more : List TaggedMsg}
    (ht : t.memDown = s.memDown ++ more) : t.OldestAnswer tm := by
  obtain ⟨rest, hrest⟩ := h
  exact ⟨rest ++ more, by rw [ht, hrest, List.cons_append]⟩

/-- Everything but *Down* and a reset leaves the oldest answer at the Router where it is. -/
theorem State.OldestAnswer.perform {s t : State} {tm : TaggedMsg} {e : Event} (h : s.OldestAnswer tm)
    (hs : e.single = true) (hne : e ≠ .routerDown) (he : s.perform e = .next t) : t.OldestAnswer tm := by
  have core : ∀ j, e.isOf j = true → t.OldestAnswer tm := fun j hj => by
    rcases State.perform_stepsCore hj hs he with rfl | ⟨_, _, _, _, rfl⟩ <;> exact h
  cases e with
  | fullStep j => cases hs
  | hostReset => cases hs
  | begin j => exact core j (beq_self_eq_true j)
  | fetchResponse j => exact core j (beq_self_eq_true j)
  | dataResponse j => exact core j (beq_self_eq_true j)
  | disconnect j => exact core j (beq_self_eq_true j)
  | routerUp j =>
    cases he
    rcases s.routerUp_cases j with e | ⟨_, _, _, _, _, _, e⟩ <;> rw [e] <;> exact h
  | routerDown => exact absurd rfl hne
  | memServe =>
    cases he
    rcases s.memServe_cases with e | ⟨_, _, _, _, _, e⟩ <;> rw [e]
    · exact h
    · exact h.append rfl
  | memRogue take writes answers =>
    cases he
    unfold State.memRogue
    split
    · exact h
    · exact h.append rfl
  | linkLost j =>
    cases he
    unfold State.linkLost
    split <;> exact h
  | memLinkLost => cases he; exact h
  | hostRun run => cases he; exact h

/-! ### No request and no answer is starved (R79, R226) -/

/-- What *Up(i)* does where it is enabled (R222). -/
theorem State.routerUp_oldest {s : State} {i : Nat} {c : CoreState} {m : CoreMsg} {rest : List CoreMsg}
    (hf : s.routerFault = false) (hc : s.cores[i]? = some c) (hup : c.up = m :: rest) :
    s.routerUp i = { s with
      cores := s.cores.set i { c with up := rest }, memUp := s.memUp ++ [(c.id, m)] } := by
  simp [State.routerUp, hc, hup, hf, State.setCore]

/-- What *Down* does where it is enabled and sets no `router_fault` (R223, R225). -/
theorem State.routerDown_oldest {s : State} {t : Nat} {m : CoreMsg} {rest : List TaggedMsg}
    (hf : s.routerFault = false) (hd : s.memDown = (t, m) :: rest) (hf' : s.routerDown.routerFault = false) :
    ∃ c, s.cores[t]? = some c ∧ s.routerDown = { s with
      cores := s.cores.set t { c with down := c.down ++ [m] }, memDown := rest } := by
  cases hc : s.cores[t]? with
  | some c => exact ⟨c, rfl, by simp [State.routerDown, hd, hf, hc, State.setCore]⟩
  | none => simp [State.routerDown, hd, hf, hc] at hf'

/-- The next state of a run, from what the event answers. -/
theorem Run.next {σ : Nat → Event} {r : Nat → State} (h : Run σ r) {k : Nat} {t : State}
    (he : (r k).perform (σ k) = .next t) : r (k + 1) = t := by
  simpa using (h k).symm.trans he

/-- Settles O60: the oldest message stays where it is until the Router's step that moves it, which is enabled as long
and so is taken. -/
theorem noRequestIsStarved : Obligations.NoRequestIsStarved := by
  intro σ r hrun hfair hsingle hfault
  refine ⟨fun n i c m rest hc hup => ?_, fun n t m rest hd => ?_⟩
  · obtain ⟨k, hnk, ⟨c', rest', hc', hup'⟩, hk⟩ :=
      (hfair.up i).taken (I := fun k => (r k).OldestRequest i m)
        (fun k ⟨d, rest, hd, hu⟩ => ⟨hfault k, d, hd, hu ▸ List.cons_ne_nil _ _⟩)
        (fun k h hne => h.perform (hsingle k) hne (hrun k)) ⟨c, rest, hc, hup⟩
    refine ⟨k, c', rest', hnk, hc', hup', ?_⟩
    rw [hrun.next (by rw [hk]; rfl), State.routerUp_oldest (hfault k) hc' hup']
  · obtain ⟨k, hnk, ⟨rest', hd'⟩, hk⟩ :=
      hfair.down.taken (I := fun k => (r k).OldestAnswer (t, m))
        (fun k ⟨rest, hu⟩ => ⟨hfault k, hu ▸ List.cons_ne_nil _ _⟩)
        (fun k h hne => h.perform (hsingle k) hne (hrun k)) ⟨rest, hd⟩
    have hnext : r (k + 1) = (r k).routerDown := hrun.next (by rw [hk]; rfl)
    obtain ⟨c', hc', hdown⟩ := State.routerDown_oldest (hfault k) hd' (hnext ▸ hfault (k + 1))
    exact ⟨k, c', rest', hnk, hd', hc', hnext.trans hdown⟩

end Sys2Proof.Machine
end

section
/-! Proofs for the family of 30_encoding: the round trip of the encoder and the decoder, exactly which words do not
decode, the rows of the opcode table, the decoder block. -/

namespace Sys2Proof

/-! ### Decoding inverts encoding (R104, R105, R116) -/

/-- The decoder on a laid-out word reads the fields that were laid out. -/
theorem decode_layoutWord {fam kind c1 low : Nat} (h1 : fam < 16) (h2 : kind < 16) (h3 : c1 < 16)
    (h4 : low < 2 ^ 52) : decode (layoutWord fam kind c1 low) = decodeFields fam kind c1 (low / 2 ^ 48) low := by
  obtain ⟨hfam, hkind, hc1, hc2, hlow⟩ := bits_layoutWord h1 h2 h3 h4
  rw [decode_eq, hfam, hkind, hc1, hc2, hlow]

theorem Reg.code_lt_nibble (r : Reg) : r.code < 16 := r.code_lt.trans (by decide)

/-- A register code in bits 51:48 fits the low field of the layout (R103). -/
theorem Reg.code_low_lt (q : Reg) : q.code * 2 ^ 48 < 2 ^ 52 := by
  have := q.code_lt
  omega

@[simp] theorem decodeOneReg_code (r : Reg) (mk : Reg → Instr) : decodeOneReg r.code mk = .ok (mk r) := by
  simp [decodeOneReg]

@[simp] theorem decodeTwoRegs_code (r q : Reg) (mk : Reg → Reg → Instr) :
    decodeTwoRegs r.code q.code mk = .ok (mk r q) := by
  simp [decodeTwoRegs]

theorem decode_encodeFields {i : Instr} (hi : i.WellFormed) : decode (encodeFields i) = .ok i := by
  have two : ∀ (fam : Nat) (r q : Reg), fam < 16 →
      decode (layoutWord fam 0 r.code (q.code * 2 ^ 48)) = decodeFields fam 0 r.code q.code (q.code * 2 ^ 48) := by
    intro fam r q hfam
    rw [decode_layoutWord hfam (by decide) r.code_lt_nibble q.code_low_lt, Nat.mul_div_cancel _ (by decide)]
  have one : ∀ (fam : Nat) (r : Reg) (low : Nat), fam < 16 → low < 2 ^ 52 →
      decode (layoutWord fam 0 r.code low) = decodeFields fam 0 r.code (low / 2 ^ 48) low :=
    fun fam r low hfam hlow => decode_layoutWord hfam (by decide) r.code_lt_nibble hlow
  have jump : ∀ (kind addr : Nat), kind < 16 → addrInRange addr = true →
      decode (layoutWord 7 kind 0 addr) = decodeJump kind addr :=
    fun kind addr hkind haddr => decode_layoutWord (by decide) hkind (by decide) (Laws.Canonical.addr_lt haddr)
  cases i with
  | nop => exact decode_layoutWord (by decide) (by decide) (by decide) (by decide)
  | add r q => exact (two 1 r q (by decide)).trans (decodeTwoRegs_code r q _)
  | mul r q => exact (two 2 r q (by decide)).trans (decodeTwoRegs_code r q _)
  | load r addr => exact (one 3 r addr (by decide) (Laws.Canonical.addr_lt hi)).trans (decodeOneReg_code r _)
  | store addr r => exact (one 4 r addr (by decide) (Laws.Canonical.addr_lt hi)).trans (decodeOneReg_code r _)
  | push r => exact (one 5 r 0 (by decide) (by decide)).trans (decodeOneReg_code r _)
  | pop r => exact (one 6 r 0 (by decide) (by decide)).trans (decodeOneReg_code r _)
  | jumpIfZero addr => exact jump 1 addr (by decide) hi
  | jumpIfPositive addr => exact jump 2 addr (by decide) hi
  | jumpIfNegative addr => exact jump 3 addr (by decide) hi

/-! ### The fields of a word that decodes (R105) -/

/-- `w` carries the family of the instruction numbered `op` (R112), and its jump kind if it is a jump (R101). -/
def CarriesOp (op : Nat) (w : Word) : Prop := bits w 63 60 = min op 7 ∧ (7 ≤ op → bits w 59 56 = op - 6)

/-- The fields of `w` that `i` uses are those of `i` (R102, R105). -/
structure Instr.HasFields (i : Instr) (w : Word) : Prop where
  op : CarriesOp i.op w
  r1 : ∀ r, i.r1? = some r → bits w 55 52 = r.code
  r2 : ∀ q, i.r2? = some q → bits w 51 48 = q.code
  addr : ∀ a, i.addr? = some a → bits w 51 0 = a

/-- A word has the fields of the instruction it decodes to: the cases of R105 give each one. -/
theorem hasFields_of_decode {w : Word} {i : Instr} (h : decode w = .ok i) : i.HasFields w := by
  obtain ⟨hf, rfl⟩ | ⟨r, q, hf, hr, hq, rfl⟩ | ⟨r, q, hf, hr, hq, rfl⟩ | ⟨r, hf, hr, rfl⟩ | ⟨r, hf, hr, rfl⟩ |
    ⟨r, hf, hr, rfl⟩ | ⟨r, hf, hr, rfl⟩ | ⟨hf, hk, rfl⟩ | ⟨hf, hk, rfl⟩ | ⟨hf, hk, rfl⟩ := decode_ok_cases h <;>
  constructor <;> simp [CarriesOp, Instr.op, Instr.r1?, Instr.r2?, Instr.addr?, *]

theorem Instr.wellFormed_of_addr {i : Instr} (h : ∀ a, i.addr? = some a → a < 2 ^ 52) : i.WellFormed := by
  cases i with
  | nop | add | mul | push | pop => rfl
  | load | store | jumpIfZero | jumpIfPositive | jumpIfNegative => exact decide_eq_true (h _ rfl)

theorem wellFormed_of_decode {w : Word} {i : Instr} (h : decode w = .ok i) : i.WellFormed :=
  Instr.wellFormed_of_addr fun a ha => (hasFields_of_decode h).addr a ha ▸ bits_addr_lt w

/-! ### Encoding inverts decoding on canonical words (R113, R116) -/

theorem encode_eq_some {i : Instr} (hi : i.WellFormed) {w : Word} : encode i = some w ↔ encodeFields i = w := by
  rw [encode, if_pos hi, Option.some.injEq]

/-- Of a word with register code 2 in bits 51:48, the low field is that code alone iff the bits below are zero. -/
theorem low_eq_code_iff {w : Word} {q : Reg} (h : bits w 51 48 = q.code) :
    bits w 51 0 = q.code * 2 ^ 48 ↔ bits w 47 0 = 0 := by
  have := bits_51_0 w
  omega

theorem bits_59_0_eq_zero (w : Word) :
    bits w 59 0 = 0 ↔ bits w 59 56 = 0 ∧ bits w 55 52 = 0 ∧ bits w 51 0 = 0 := by
  have := bits_59_0 w
  omega

theorem layoutWord_twoRegs_eq_iff {w : Word} {fam : Nat} {r q : Reg} (hfam : bits w 63 60 = fam)
    (hr : bits w 55 52 = r.code) (hq : bits w 51 48 = q.code) :
    layoutWord fam 0 r.code (q.code * 2 ^ 48) = w ↔ bits w 59 56 = 0 ∧ bits w 47 0 = 0 := by
  rw [layoutWord_eq_iff (hfam ▸ bits_fam_lt w) (by decide) r.code_lt_nibble q.code_low_lt, low_eq_code_iff hq]
  simp [hfam, hr]

theorem layoutWord_oneReg_eq_iff {w : Word} {fam low : Nat} {r : Reg} (hfam : bits w 63 60 = fam)
    (hr : bits w 55 52 = r.code) (hlow : low < 2 ^ 52) :
    layoutWord fam 0 r.code low = w ↔ bits w 59 56 = 0 ∧ bits w 51 0 = low := by
  rw [layoutWord_eq_iff (hfam ▸ bits_fam_lt w) (by decide) r.code_lt_nibble hlow]
  simp [hfam, hr]

theorem layoutWord_jump_eq_iff {w : Word} {kind addr : Nat} (hfam : bits w 63 60 = 7) (hkind : bits w 59 56 = kind)
    (haddr : bits w 51 0 = addr) : layoutWord 7 kind 0 addr = w ↔ bits w 55 52 = 0 := by
  rw [layoutWord_eq_iff (by decide) (hkind ▸ bits_nibble_lt w 56) (by decide) (haddr ▸ bits_addr_lt w)]
  simp [hfam, hkind, haddr]

theorem encodeFields_eq_iff {w : Word} {i : Instr} (h : i.HasFields w) :
    encodeFields i = w ↔ unusedBitsZero i w = true := by
  obtain ⟨⟨hf, hk⟩, hr, hq, ha⟩ := h
  cases i with
  | nop =>
    have hf : bits w 63 60 = 0 := hf
    rw [encodeFields, layoutWord_eq_iff (by decide) (by decide) (by decide) (by decide)]
    simp [unusedBitsZero, bits_59_0_eq_zero, hf]
  | add r q | mul r q =>
    refine (layoutWord_twoRegs_eq_iff hf (hr r rfl) (hq q rfl)).trans ?_
    simp [unusedBitsZero]
  | load r addr | store addr r =>
    have haddr := ha addr rfl
    refine (layoutWord_oneReg_eq_iff hf (hr r rfl) (haddr ▸ bits_addr_lt w)).trans ?_
    simp [unusedBitsZero, haddr]
  | push r | pop r =>
    refine (layoutWord_oneReg_eq_iff hf (hr r rfl) (low := 0) (by decide)).trans ?_
    simp [unusedBitsZero]
  | jumpIfZero addr | jumpIfPositive addr | jumpIfNegative addr =>
    refine (layoutWord_jump_eq_iff hf (hk (by simp [Instr.op])) (ha addr rfl)).trans ?_
    simp [unusedBitsZero]

/-- Settles O1: the fields of an encoded word are those of its line of R104, and a word is the layout of its fields. -/
theorem encodeDecodeRoundTrip : Obligations.EncodeDecodeRoundTrip := by
  refine ⟨fun i hi => ⟨encodeFields i, (encode_eq_some hi).mpr rfl, decode_encodeFields hi⟩, fun w i h => ?_⟩
  have hi := wellFormed_of_decode h
  exact ⟨hi, (encode_eq_some hi).trans (encodeFields_eq_iff (hasFields_of_decode h))⟩

/-- Settles O2, by running the decoder on the twelve words. -/
theorem sampleWordsDecode : Obligations.SampleWordsDecode := by
  unfold Obligations.SampleWordsDecode
  decide

/-! ### Which words do not decode (R109, R110) -/

theorem decodeOneReg_eq_err {c1 : Nat} {mk : Reg → Instr} {e : DecodeError} :
    decodeOneReg c1 mk = .err e ↔ e = .unknownRegister ∧ 7 ≤ c1 := by
  rw [← Reg.ofCode_eq_none, decodeOneReg]
  cases Reg.ofCode c1 <;> simp [eq_comm]

theorem decodeTwoRegs_eq_err {c1 c2 : Nat} {mk : Reg → Reg → Instr} {e : DecodeError} :
    decodeTwoRegs c1 c2 mk = .err e ↔ e = .unknownRegister ∧ (7 ≤ c1 ∨ 7 ≤ c2) := by
  rw [← Reg.ofCode_eq_none, ← Reg.ofCode_eq_none, decodeTwoRegs]
  cases Reg.ofCode c1 <;> cases Reg.ofCode c2 <;> simp [eq_comm]

theorem decodeJump_eq_err {kind addr : Nat} {e : DecodeError} :
    decodeJump kind addr = .err e ↔ e = .unknownOpcode ∧ (kind = 0 ∨ 4 ≤ kind) := by
  match kind with
  | 0 | _ + 4 => simp [decodeJump, eq_comm]
  | 1 | 2 | 3 => simp [decodeJump]

/-- The words of each decode error: a bad family or kind (R109), or a bad register code that the family uses (R110). -/
theorem decode_eq_err {w : Word} {e : DecodeError} : decode w = .err e ↔
    (e = .unknownOpcode ∧ (8 ≤ bits w 63 60 ∨ (bits w 63 60 = 7 ∧ (bits w 59 56 = 0 ∨ 4 ≤ bits w 59 56)))) ∨
      (e = .unknownRegister ∧ ((1 ≤ bits w 63 60 ∧ bits w 63 60 ≤ 6 ∧ 7 ≤ bits w 55 52) ∨
        (1 ≤ bits w 63 60 ∧ bits w 63 60 ≤ 2 ∧ 7 ≤ bits w 51 48))) := by
  rw [decode_eq]
  generalize bits w 63 60 = fam
  match fam with
  | 0 => simp [decodeFields]
  | 1 | 2 => simp [decodeFields, decodeTwoRegs_eq_err]
  | 3 | 4 | 5 | 6 => simp [decodeFields, decodeOneReg_eq_err]
  | 7 => simp [decodeFields, decodeJump_eq_err]
  | _ + 8 => simp [decodeFields, eq_comm]

/-- Settles O3, from the words of each error. -/
theorem unknownOpcodeWords : Obligations.UnknownOpcodeWords := by
  intro w
  simp [decode_eq_err]

/-- Settles O4, from the words of each error. -/
theorem unknownRegisterWords : Obligations.UnknownRegisterWords := by
  intro w
  simp [decode_eq_err]

/-! ### The opcode table (R119) -/

theorem CarriesOp.unique {op op' : Nat} {w : Word} (h : CarriesOp op w) (h' : CarriesOp op' w) : op = op' := by
  obtain ⟨hf, hk⟩ := h
  obtain ⟨hf', hk'⟩ := h'
  omega

/-- A word that carries a number of the table has no bad opcode (R109). -/
theorem CarriesOp.ne_unknownOpcode {op : Nat} {w : Word} (h : CarriesOp op w) (hop : op ≤ 9) :
    decode w ≠ .err .unknownOpcode := by
  obtain ⟨hf, hk⟩ := h
  rw [Ne, unknownOpcodeWords w]
  omega

theorem Instr.op_le (i : Instr) : i.op ≤ 9 := by
  cases i <;> simp [Instr.op]

/-- What `w AND mask = match` asks for a mask of the bits from `n` up. -/
theorem and_highMask_eq_iff {w mask p : Word} {n : Nat} (hm : mask = BitVec.allOnes 64 <<< n) :
    w &&& mask = p ↔ w.toNat / 2 ^ n * 2 ^ n = p.toNat := by
  have hle : w.toNat / 2 ^ n * 2 ^ n ≤ w.toNat := Nat.div_mul_le_self _ _
  rw [hm, ← BitVec.shiftLeft_ushiftRight, ← BitVec.toNat_inj, BitVec.toNat_shiftLeft, BitVec.toNat_ushiftRight,
    Nat.shiftLeft_eq, Nat.shiftRight_eq_div_pow, Nat.mod_eq_of_lt (hle.trans_lt w.isLt)]

/-- The two shapes of row: the family in the top nibble, or family 7 and the jump kind in the top byte. -/
theorem opcodeTable_rows : ∀ row ∈ opcodeTable,
    (row.op < 7 ∧ row.mask = BitVec.allOnes 64 <<< 60 ∧ row.pattern.toNat = row.op * 2 ^ 60) ∨
      (7 ≤ row.op ∧ row.op ≤ 9 ∧ row.mask = BitVec.allOnes 64 <<< 56 ∧
        row.pattern.toNat = 7 * 2 ^ 60 + (row.op - 6) * 2 ^ 56) := by decide

theorem opcodeTable_op_le {row : OpcodeRow} (h : row ∈ opcodeTable) : row.op ≤ 9 := by
  rcases opcodeTable_rows row h with ⟨hop, _⟩ | ⟨_, hop, _⟩ <;> omega

theorem opcodeTable_op_injective : ∀ row ∈ opcodeTable, ∀ row' ∈ opcodeTable, row.op = row'.op → row = row' := by
  decide

theorem exists_row_of_op : ∀ op ≤ 9, ∃ row ∈ opcodeTable, row.op = op := by decide

/-- A row selects exactly the words that carry its number. -/
theorem OpcodeRow.selects_iff {row : OpcodeRow} (hrow : row ∈ opcodeTable) {w : Word} :
    row.selects w = true ↔ CarriesOp row.op w := by
  have hw := w.isLt
  rw [OpcodeRow.selects, beq_iff_eq, CarriesOp]
  rcases opcodeTable_rows row hrow with ⟨hop, hm, hp⟩ | ⟨hlo, hhi, hm, hp⟩ <;>
  · rw [and_highMask_eq_iff hm, hp]
    simp only [bits]
    omega

/-- A word with a bad register code carries the number of its family (R110). -/
theorem carriesOp_of_unknownRegister {w : Word} (h : decode w = .err .unknownRegister) :
    ∃ op ≤ 9, CarriesOp op w := by
  rw [unknownRegisterWords w] at h
  exact ⟨bits w 63 60, by omega, by omega, by omega⟩

/-- A word that no row selects carries no number of the table. -/
theorem not_carriesOp_of_no_row {w : Word} (h : ∀ row ∈ opcodeTable, row.selects w = false) {op : Nat} (hop : op ≤ 9) :
    ¬ CarriesOp op w := by
  obtain ⟨row, hrow, rfl⟩ := exists_row_of_op op hop
  rw [← OpcodeRow.selects_iff hrow, h row hrow]
  exact Bool.false_ne_true

/-- Settles O5: a row selects the words that carry its number, and so does the decoder. -/
theorem opcodeTableSelects : Obligations.OpcodeTableSelects := by
  refine ⟨fun w row hrow hs => ?_, fun w hno => ?_, fun w row row' hrow hrow' hs hs' => ?_⟩
  · have hc := (OpcodeRow.selects_iff hrow).mp hs
    match hd : decode w with
    | .ok i => exact .inr ⟨i, rfl, (hasFields_of_decode hd).op.unique hc⟩
    | .err .unknownRegister => exact .inl rfl
    | .err .unknownOpcode => exact absurd hd (hc.ne_unknownOpcode (opcodeTable_op_le hrow))
  · match hd : decode w with
    | .ok i => exact absurd (hasFields_of_decode hd).op (not_carriesOp_of_no_row hno i.op_le)
    | .err .unknownRegister =>
      obtain ⟨op, hop, hc⟩ := carriesOp_of_unknownRegister hd
      exact absurd hc (not_carriesOp_of_no_row hno hop)
    | .err .unknownOpcode => rfl
  · exact opcodeTable_op_injective row hrow row' hrow'
      (((OpcodeRow.selects_iff hrow).mp hs).unique ((OpcodeRow.selects_iff hrow').mp hs'))

/-! ### The decoder block (R112) -/

/-- The three bits of output `r1` are register code 1, where that names a register. -/
theorem bits_54_52_of_code {w : Word} {r : Reg} (h : bits w 55 52 = r.code) : bits w 54 52 = r.code := by
  have := r.code_lt
  simp only [bits] at h ⊢
  omega

/-- The three bits of output `r2` are register code 2, where that names a register. -/
theorem bits_50_48_of_code {w : Word} {q : Reg} (h : bits w 51 48 = q.code) : bits w 50 48 = q.code := by
  have := q.code_lt
  simp only [bits] at h ⊢
  omega

/-- An output given when there is an operand is the operand's value, where the field holds it. -/
theorem ite_isSome_eq_map {α : Type} {o : Option α} {f : α → Nat} {n : Nat} (h : ∀ x, o = some x → n = f x) :
    (if o.isSome then some n else none) = o.map f := by
  cases o with
  | none => rfl
  | some x => exact congrArg some (h x rfl)

/-- The decoder block on a word that decodes. -/
theorem decoderBlock_of_decode {w : Word} {i : Instr} (h : decode w = .ok i) : decoderBlock w =
    { err := 0, op := some i.op, r1 := i.r1?.map Reg.code, r2 := i.r2?.map Reg.code, addr := i.addr? } := by
  have hi := hasFields_of_decode h
  simp only [decoderBlock, h, ite_isSome_eq_map fun r hr => bits_54_52_of_code (hi.r1 r hr),
    ite_isSome_eq_map fun q hq => bits_50_48_of_code (hi.r2 q hq), ite_isSome_eq_map hi.addr, Option.map_id']

/-- Settles O6: the outputs are the fields the decoder reads, and the two error numbers. -/
theorem decoderBlockOutputs : Obligations.DecoderBlockOutputs := by
  intro w
  match hd : decode w with
  | .ok i => exact decoderBlock_of_decode hd
  | .err .unknownOpcode => simp only [decoderBlock, hd, Decoded.errCode]
  | .err .unknownRegister => simp only [decoderBlock, hd, Decoded.errCode]

end Sys2Proof
end

section
/-! Proofs for the family of 40_engine_step: what each event of a Core does where it is enabled, the fetch, and the step
as one sequence against the step as events. -/

namespace Sys2Proof.Machine

/-! ### The events of a Core where they are enabled (R141, R145 to R149) -/

/-- A Core with a step to begin may begin it: `STEP_MODE` is *free* (R152). -/
theorem ready_and_stepAllowed {c : CoreState} (hready : c.phase = .ready) (run : Bool) :
    c.phase = .ready ∧ stepAllowed Config.stepMode run = true := ⟨hready, rfl⟩

theorem State.perform_begin_hit {s : State} {i : Nat} {c : CoreState} (hc : s.cores[i]? = some c)
    (hready : c.phase = .ready) {w : Word} (hw : c.win.lookup (c.reg .ip) = some w) :
    s.perform (.begin i) = (s.withActive i).decodeThen beginInstr w (c.reg .ip) := by
  simp only [State.perform, State.evBegin, hc, if_pos (ready_and_stepAllowed hready _), fetchAddr, hw]

theorem State.perform_begin_miss {s : State} {i : Nat} {c : CoreState} (hc : s.cores[i]? = some c)
    (hready : c.phase = .ready) (hw : c.win.lookup (c.reg .ip) = none) :
    s.perform (.begin i) = .next ((s.withActive i).sendFetch c) := by
  simp only [State.perform, State.evBegin, hc, if_pos (ready_and_stepAllowed hready _), fetchAddr, hw]

theorem State.perform_fullStep_hit {s : State} {i : Nat} {c : CoreState} (hc : s.cores[i]? = some c)
    (hready : c.phase = .ready) {w : Word} (hw : c.win.lookup (c.reg .ip) = some w) :
    s.perform (.fullStep i) = (s.withActive i).decodeThen exec w (c.reg .ip) := by
  simp only [State.perform, State.evFullStep, hc, if_pos (ready_and_stepAllowed hready _), fetchAddr, hw]

theorem State.perform_fullStep_miss {s : State} {i : Nat} {c : CoreState} (hc : s.cores[i]? = some c)
    (hready : c.phase = .ready) (hw : c.win.lookup (c.reg .ip) = none) :
    s.perform (.fullStep i) = (s.withActive i).missStep c := by
  simp only [State.perform, State.evFullStep, hc, if_pos (ready_and_stepAllowed hready _), fetchAddr, hw]

theorem State.perform_fetchResponse {s : State} {i : Nat} {c : CoreState} (hc : s.cores[i]? = some c) {a : Word}
    (hphase : c.phase = .awaitFetch a) {m : CoreMsg} {rest : List CoreMsg} (hdown : c.down = m :: rest) :
    s.perform (.fetchResponse i) = (s.withActive i).afterFetch beginInstr (c.setDown rest) a m := by
  simp only [State.perform, State.evFetchResponse, hc, hphase, hdown]

theorem State.perform_dataResponse {s : State} {i : Nat} {c : CoreState} (hc : s.cores[i]? = some c)
    (hdata : c.phase.awaitingData = true) {m : CoreMsg} {rest : List CoreMsg} (hdown : c.down = m :: rest) :
    s.perform (.dataResponse i) = .next ((s.withActive i).setCore i (completeData m (c.setDown rest))) := by
  simp only [State.perform, State.evDataResponse, hc, hdown, hdata, if_true]

theorem State.perform_disconnect {s : State} {i : Nat} {c : CoreState} (hc : s.cores[i]? = some c)
    (hwait : c.phase.awaiting = true) (hlink : s.linkDown c = true) :
    s.perform (.disconnect i) = .next ((s.withActive i).setCore i (c.halt .busDisconnected .nothing)) := by
  simp only [State.perform, State.evDisconnect, hc, hwait, hlink, and_self, if_true]

theorem State.decodeThen_ok {w : Word} {i : Instr} (h : decode w = .ok i) (s : State) (k : Instr → State → Result)
    (a : Word) : s.decodeThen k w a = k i s := by
  simp only [State.decodeThen, h]

theorem step_of_nextEvent {s s' : State} {e : Event} (h : s.nextEvent = (e, s')) : step s = s'.perform e := by
  rw [step, h]

/-! ### The fetch (R142, R146) -/

/-- Word `k` of a window refilled with eight words (R38). -/
theorem Window.refill_get {ws : List Word} (hlen : ws.length = 8) (b : Word) (k : Nat) :
    (Window.refill b ws).w[k]? = ws[k]? := by
  obtain ⟨_, _, hw⟩ := refillReplacesWhole b ws hlen
  rw [← Vector.getElem?_toList, hw]

/-- The retried lookup hits the first word of the refilled window (R142). -/
theorem Window.refill_lookup_base (a : Word) (ws : List Word) : (Window.refill a ws).lookup a = some (ws.getD 0 0) := by
  simp [Window.lookup, Window.refill]

/-- After an answer that passes the test, the window is refilled and its first word runs (R142, R146). -/
theorem State.afterFetch_words {a : Word} {m : CoreMsg} {ws : List Word} (h : checkAnswer a 8 m = .words ws) (s : State)
    (k : Instr → State → Result) (c : CoreState) : s.afterFetch k c a m =
      (s.setCore s.active { c with win := Window.refill a ws, phase := .ready }).decodeThen k (ws.getD 0 0) a := by
  simp only [State.afterFetch, CoreState.fetched, h, CoreState.takeAnswer_words, if_true, Window.refill_lookup_base]

/-- After an answer that leaves the Core halted, nothing runs (R146). -/
theorem State.afterFetch_not_ready {s : State} {c : CoreState} {a : Word} {m : CoreMsg}
    (h : (c.fetched a m).phase ≠ .ready) (k : Instr → State → Result) :
    s.afterFetch k c a m = .next (s.setCore s.active (c.fetched a m)) := by
  simp only [State.afterFetch, if_neg h]

/-- Eight entries at `a` to `a + 7` are the answer to a fetch at `a` (R66). -/
theorem checkAnswer_entries {a : Word} {es : List Entry} {n : Nat} (hlen : es.length = n)
    (haddr : ∀ (k : Nat) (e : Entry), es[k]? = some e → u64 e.1 = u64 a + k) :
    checkAnswer a n (.giveBlock es) = .words (es.map Prod.snd) := by
  simp only [checkAnswer, hlen, (contiguousFrom_iff (u64 a) es).mpr haddr, and_self, if_true]

/-- On a quiet bus a fetch that lies in the memory is answered by the block at IP (R142, R71). -/
theorem State.missStep_block {s : State} {c : CoreState} (q : s.Quiet c) (hin : u64 (c.reg .ip) + 8 ≤ 2 ^ 52) :
    s.missStep c = ({ s with tick := s.tick + 1 }.setCore s.active { c with
        win := Window.refill (c.reg .ip) ((s.mem.block (u64 (c.reg .ip)) 8).map Prod.snd)
        phase := .ready }).decodeThen exec (s.mem.read (u64 (c.reg .ip))) (c.reg .ip) := by
  have hrange : blockInRange (u64 (c.reg .ip)) Config.windowCount.toNat = true := by
    rw [blockInRange, Bool.and_eq_true, decide_eq_true_iff, decide_eq_true_iff, Config.windowCount_toNat]
    exact ⟨by decide, hin⟩
  rw [State.missStep_quiet q, fetchAddr, Memory.serve_read _ _ hrange]
  exact State.afterFetch_words (checkAnswer_block s.mem (by omega)) _ _ _

/-! ### What an event of a Core does -/

/-- Settles O27: the lookup hits and the word decodes, and nothing else stands before `exec`. -/
theorem stepRunsDecodedOnHit : Obligations.StepRunsDecodedOnHit := by
  intro s s' i c w ins hnext hc hready hw hdec
  rw [step_of_nextEvent hnext, State.perform_fullStep_hit hc hready hw]
  exact State.decodeThen_ok hdec _ _ _

/-- Settles O28: the memory answers the fetch with the eight words, which pass the test and refill the window. -/
theorem stepRunsDecodedOnMiss : Obligations.StepRunsDecodedOnMiss := by
  intro s s' i c ins hnext q hready hw hin hdec
  refine ⟨Window.refill (c.reg .ip) ((s'.mem.block (u64 (c.reg .ip)) 8).map Prod.snd), ?_, rfl, rfl,
    fun k hk => Window.refill_block _ _ _ _ hk⟩
  have hc : s'.cores[i]? = some c := q.atActive
  rw [step_of_nextEvent hnext, State.perform_fullStep_miss hc hready hw,
    State.missStep_block (s := s'.withActive i) q hin, ← hready]
  exact State.decodeThen_ok hdec _ _ _

/-- Settles O31: the fetch is sent, or the channel is gone. -/
theorem beginMissSends : Obligations.BeginMissSends := by
  intro s i c hc hready hw
  exact State.perform_begin_miss hc hready hw

/-- Settles O32, an instruction at a time: what needs no bus begins as it is executed whole. -/
theorem beginHitRuns : Obligations.BeginHitRuns := by
  intro s i c w ins hc hready hw hdec
  have hissue (f : CoreState → State) : (s.withActive i).onReady f = .next (f c) := State.onReady_next f hc hready
  rw [State.perform_begin_hit hc hready hw, State.decodeThen_ok hdec]
  cases ins with
  | load r1 addr => exact hissue _
  | store addr r1 => exact hissue _
  | push r1 =>
    refine (hissue _).trans ?_
    rw [CoreState.reg_pushed]
    rfl
  | pop r1 => exact hissue _
  | nop => rfl
  | add r1 r2 => rfl
  | mul r1 r2 => rfl
  | jumpIfZero addr => rfl
  | jumpIfPositive addr => rfl
  | jumpIfNegative addr => rfl

/-- Settles O33: the good block is the one that passes the test; any other message leaves the Core halted. -/
theorem fetchResponseRule : Obligations.FetchResponseRule := by
  constructor
  · intro s i c a es rest e0 hc hphase hdown hlen haddr hfirst
    refine ⟨Window.refill a (es.map Prod.snd), rfl, rfl, fun k e hk => ?_, ?_⟩
    · rw [Window.refill_get (by simpa using hlen), List.getElem?_map, hk]
      rfl
    · have hword : (es.map Prod.snd).getD 0 0 = e0.2 := by simp [hfirst]
      rw [State.perform_fetchResponse hc hphase hdown, State.afterFetch_words (checkAnswer_entries hlen haddr), hword]
      rfl
  · intro s i c a m rest hc hphase hdown hbad
    have hfetched := (c.setDown rest).fetched_bad a m hbad
    rw [State.perform_fetchResponse hc hphase hdown,
      State.afterFetch_not_ready (hfetched ▸ badAnswerPhase_ne_ready m), hfetched]
    rfl

/-- Settles O34: the event is enabled and halts the Core. -/
theorem disconnectHalts : Obligations.DisconnectHalts := by
  intro s i c hc hwait hgone
  exact State.perform_disconnect hc hwait (State.linkDown_of hgone)

/-- Settles O58, by the Core's phase. -/
theorem haltOutputs : Obligations.HaltOutputs := by
  constructor
  · intro c k x h
    simp only [CoreState.isHalted, CoreState.infoOut, CoreState.causeOut, h]
    exact ⟨trivial, trivial, by cases k <;> rfl⟩
  · intro c h
    cases hp : c.phase with
    | halted k x => exact absurd hp (h k x)
    | _ => simp [CoreState.isHalted, CoreState.infoOut, CoreState.causeOut, hp]

/-! ### The step as one sequence is a run of events (R150) -/

theorem State.performAll_singleton (e : Event) (s : State) : State.performAll [e] s = s.perform e := by
  rw [State.performAll]
  cases s.perform e <;> rfl

theorem State.performAll_append {s t : State} {es : List Event} (h : State.performAll es s = .next t)
    (fs : List Event) : State.performAll (es ++ fs) s = State.performAll fs t := by
  induction es generalizing s with
  | nil =>
    cases h
    rfl
  | cons e es ih =>
    simp only [State.performAll, List.cons_append] at h ⊢
    split at h
    · exact ih h
    · cases h
    · cases h

/-- The transport of a lone request is one *Up*, one memory service and one *Down* (R226). -/
theorem State.performAll_transport_lone {s : State} {c : CoreState} {msg : CoreMsg} (hc : s.cores[s.active]? = some c)
    (hup : c.up = [msg]) (hmu : s.memUp = []) (hmd : s.memDown = []) (hf : s.routerFault = false)
    (hm : s.memDisconnected = false) : State.performAll (transportEvents s.active) s = .next s.transport := by
  have hserve : (s.routerUp s.active).memUp.length = 1 := by simp [State.routerUp, hc, hup, hf, hmu]
  have hdown : (s.routerUp s.active).memServe.memDown.length = 1 := by
    simp [State.routerUp, State.memServe, hc, hup, hf, hmu, hmd, hm]
  simp only [State.transport, hserve, State.memServeTimes, hdown, State.routerDownTimes]
  rfl

/-- The quiet bus stays quiet where the active Core changes but for its queues, identity and input. -/
theorem State.Quiet.setCore {s : State} {c d : CoreState} (q : s.Quiet c) (hid : d.id = c.id) (hup : d.up = c.up)
    (hdown : d.down = c.down) (hlink : d.disconnected = c.disconnected) : (s.setCore s.active d).Quiet d where
  atActive := State.setCore_get_self q.atActive
  idOk := hid.trans q.idOk
  up := hup.trans q.up
  down := hdown.trans q.down
  memUp := q.memUp
  memDown := q.memDown
  linked := hlink.trans q.linked
  noFault := q.noFault
  memLinked := q.memLinked

/-- Taking its one message, a Core that had none is as it was. -/
theorem CoreState.setDown_setDown_nil {c : CoreState} (h : c.down = []) (d : List CoreMsg) :
    (c.setDown d).setDown [] = c := by
  rw [← h]
  rfl

/-- The Package after the memory took `msg` in (R70 to R73). -/
def State.served (s : State) (msg : CoreMsg) : State :=
  { s with mem := (s.mem.serve (Config.freeErrInfo s.tick) msg).1, tick := s.tick + 1 }

/-- What the memory answers to `msg` (R71 to R73). -/
def State.answerTo (s : State) (msg : CoreMsg) : CoreMsg := (s.mem.serve (Config.freeErrInfo s.tick) msg).2

/-- The memory's service of a message that is off the bus leaves the bus quiet. -/
theorem State.Quiet.served {s : State} {c : CoreState} (q : s.Quiet c) (msg : CoreMsg) : (s.served msg).Quiet c :=
  ⟨q.atActive, q.idOk, q.up, q.down, q.memUp, q.memDown, q.linked, q.noFault, q.memLinked⟩

/-- After its request is sent and the three events of the bus, the active Core has the memory's answer (R66, R67). -/
theorem State.Quiet.performAll_transport {s : State} {c : CoreState} (q : s.Quiet c) (msg : CoreMsg) (ph : Phase) :
    State.performAll (transportEvents s.active) (s.send c msg ph) =
      .next ((s.served msg).setCore s.active ((c.setPhase ph).setDown [s.answerTo msg])) := by
  have hlink : s.linkDown c = false := by simp [State.linkDown, q.linked, q.noFault]
  have hsend : s.send c msg ph = s.setCore s.active { c with up := [msg], phase := ph } := by
    simp [State.send, hlink, q.up]
  have hc : (s.send c msg ph).cores[s.active]? = some { c with up := [msg], phase := ph } := by
    rw [hsend]
    exact State.setCore_get_self q.atActive
  refine (State.performAll_transport_lone (s := s.send c msg ph) hc rfl q.memUp q.memDown q.noFault
    q.memLinked).trans ?_
  rw [State.transport_lone (s := s.send c msg ph) hc q.idOk rfl q.down q.memUp q.memDown q.noFault q.memLinked, hsend]
  simp [State.setCore, State.served, State.answerTo, CoreState.setDown, CoreState.setPhase, q.up]

/-- A transaction on a quiet bus is its request, the three events of the bus and *DataResponse* (R148). -/
theorem State.Quiet.transact_events {s : State} {c : CoreState} (q : s.Quiet c) {msg : CoreMsg} {ph : Phase}
    {k : CoreMsg → CoreState → CoreState} (hdata : ph.awaitingData = true)
    (hk : ∀ m (d : CoreState), d.phase = ph → k m d = completeData m d) :
    State.performAll (transportEvents s.active ++ [.dataResponse s.active]) (s.send c msg ph) =
      .next (s.transact c msg ph k) := by
  have hcore := CoreState.setDown_setDown_nil (c := c.setPhase ph) q.down
  rw [State.performAll_append (q.performAll_transport msg ph), State.performAll_singleton,
    State.perform_dataResponse (State.setCore_get_self (s := s.served msg) q.atActive) hdata rfl,
    State.transact_quiet q rfl rfl rfl rfl, hk _ (c.setPhase ph) rfl, hcore]
  exact congrArg Host.Outcome.next (State.setCore_setCore (s.served msg) s.active _ _)

/-- Sending a request replaces the active Core whole. -/
theorem State.setCore_send (s : State) (d c : CoreState) (msg : CoreMsg) (ph : Phase) :
    (s.setCore s.active d).send c msg ph = s.send c msg ph := State.setCore_setCore _ _ _ _

theorem State.setCore_transact (s : State) (d c : CoreState) (msg : CoreMsg) (ph : Phase)
    (k : CoreMsg → CoreState → CoreState) : (s.setCore s.active d).transact c msg ph k = s.transact c msg ph k := by
  rw [State.transact, State.setCore_send]
  rfl

/-- What Core `i` did in one event, with a data transaction after it or with none, comes to `whole`. -/
def RunsTo (i : Nat) (event whole : Result) : Prop :=
  event = whole ∨
    ∃ t, event = .next t ∧ State.performAll (transportEvents i ++ [.dataResponse i]) t = whole

/-- The issue part of an instruction that uses the bus, against the whole of it. `d` is the Core that sends. -/
theorem State.Quiet.issue_runsTo {s : State} {c : CoreState} (q : s.Quiet c) (hready : c.phase = .ready)
    {issue whole : CoreState → State} {d : CoreState} {msg : CoreMsg} {ph : Phase}
    {k : CoreMsg → CoreState → CoreState} (hissue : issue c = s.send d msg ph)
    (hwhole : whole c = s.transact d msg ph k) (hd : (s.setCore s.active d).Quiet d) (hdata : ph.awaitingData = true)
    (hk : ∀ m (e : CoreState), e.phase = ph → k m e = completeData m e) :
    RunsTo s.active (s.onReady issue) (s.onReady whole) := by
  have hevents := hd.transact_events (msg := msg) hdata hk
  rw [State.setCore_send, State.setCore_transact] at hevents
  rw [State.onReady_next issue q.atActive hready, State.onReady_next whole q.atActive hready, hissue, hwhole]
  exact .inr ⟨_, rfl, hevents⟩

/-- What an instruction begins, the events of the bus and *DataResponse* end as `exec` does (R147, R148). -/
theorem State.Quiet.beginInstr_runsTo {s : State} {c : CoreState} (q : s.Quiet c) (hready : c.phase = .ready)
    (i : Instr) : RunsTo s.active (beginInstr i s) (exec i s) := by
  have hsame : (s.setCore s.active c).Quiet c := q.setCore rfl rfl rfl rfl
  have hpushed : (s.setCore s.active c.pushed).Quiet c.pushed := q.setCore rfl rfl rfl rfl
  cases i with
  | nop => exact .inl rfl
  | add r1 r2 => exact .inl rfl
  | mul r1 r2 => exact .inl rfl
  | load r1 addr => exact q.issue_runsTo hready rfl rfl hsame rfl fun m d hd => by simp only [completeData, hd]
  | store addr r1 => exact q.issue_runsTo hready rfl rfl hsame rfl fun m d hd => by simp only [completeData, hd]
  | push r1 => exact q.issue_runsTo hready rfl rfl hpushed rfl fun m d hd => by simp only [completeData, hd]
  | pop r1 => exact q.issue_runsTo hready rfl rfl hsame rfl fun m d hd => by simp only [completeData, hd]
  | jumpIfZero addr => exact .inl rfl
  | jumpIfPositive addr => exact .inl rfl
  | jumpIfNegative addr => exact .inl rfl

theorem State.Quiet.decodeThen_runsTo {s : State} {c : CoreState} (q : s.Quiet c) (hready : c.phase = .ready)
    (w a : Word) : RunsTo s.active (s.decodeThen beginInstr w a) (s.decodeThen exec w a) := by
  cases hd : decode w with
  | ok i =>
    rw [State.decodeThen_ok hd, State.decodeThen_ok hd]
    exact q.beginInstr_runsTo hready i
  | err e =>
    left
    simp only [State.decodeThen, hd]

/-- The Core `c`, which waits on a quiet bus with the answer `m` to its fetch taken, runs on (R146). -/
theorem State.Quiet.afterFetch_runsTo {s : State} {c : CoreState} (q : s.Quiet c) (a : Word) (m : CoreMsg) :
    RunsTo s.active (s.afterFetch beginInstr c a m) (s.afterFetch exec c a m) := by
  cases h : checkAnswer a 8 m with
  | words ws =>
    rw [State.afterFetch_words h, State.afterFetch_words h]
    exact (q.setCore (d := { c with win := Window.refill a ws, phase := .ready }) rfl rfl rfl rfl).decodeThen_runsTo rfl
      _ a
  | bad cause info =>
    left
    have hhalt : c.fetched a m = c.halt cause info := by simp only [CoreState.fetched, h, CoreState.takeAnswer]
    have hphase : (c.fetched a m).phase ≠ .ready := by simp [hhalt]
    rw [State.afterFetch_not_ready hphase, State.afterFetch_not_ready hphase]

/-- The list of events behind `RunsTo`. -/
theorem RunsTo.performAll_or {i : Nat} {s : State} {e : Event} {whole : Result} (h : RunsTo i (s.perform e) whole) :
    State.performAll [e] s = whole ∨ State.performAll (e :: transportEvents i ++ [.dataResponse i]) s = whole := by
  rcases h with h | ⟨t, ht, h⟩
  · exact .inl ((State.performAll_singleton e s).trans h)
  · refine .inr ((State.performAll_append (es := [e]) (t := t) ?_ _).trans h)
    rw [State.performAll_singleton, ht]

/-- A step that misses on a quiet bus: after the request for the fetch and the events of the bus, *FetchResponse* does
the rest, but for a data transaction (R145, R146). -/
theorem State.Quiet.missStep_runsTo {s : State} {c : CoreState} (q : s.Quiet c) :
    ∃ t, State.performAll (transportEvents s.active) (s.sendFetch c) = .next t ∧
      RunsTo s.active (t.perform (.fetchResponse s.active)) (s.missStep c) := by
  have hruns := ((q.served (.requestBlock (fetchAddr c) Config.windowCount)).setCore
    (d := c.setPhase (.awaitFetch (fetchAddr c))) rfl rfl rfl rfl).afterFetch_runsTo (fetchAddr c)
    (s.answerTo (.requestBlock (fetchAddr c) Config.windowCount))
  rw [State.afterFetch_setCore, State.afterFetch_setCore] at hruns
  have hmiss : s.missStep c = (s.served (.requestBlock (fetchAddr c) Config.windowCount)).afterFetch exec
      (c.setPhase (.awaitFetch (fetchAddr c))) (fetchAddr c)
      (s.answerTo (.requestBlock (fetchAddr c) Config.windowCount)) := by
    rw [State.missStep_quiet q, State.served, Memory.serve_request_mem, State.answerTo]
  refine ⟨_, q.performAll_transport _ _, ?_⟩
  rw [State.perform_fetchResponse (State.setCore_get_self (s := s.served _) q.atActive) rfl rfl,
    CoreState.setDown_setDown_nil (c := c.setPhase (.awaitFetch (fetchAddr c))) q.down, hmiss]
  exact (congrArg (RunsTo s.active · _) (State.afterFetch_setCore (s.served _) _ _ _ _ _)).mpr hruns

/-- Settles O35: *Begin* on a hit, or *Begin*, the fetch's transaction and *FetchResponse* on a miss, and then a data
transaction where the instruction has one. -/
theorem fullStepIsEvents : Obligations.FullStepIsEvents := by
  intro s i c q hready
  have hc : s.cores[i]? = some c := q.atActive
  cases hw : c.win.lookup (c.reg .ip) with
  | some w =>
    have hruns := State.Quiet.decodeThen_runsTo (s := s.withActive i) q hready w (c.reg .ip)
    rw [← State.perform_begin_hit hc hready hw, ← State.perform_fullStep_hit hc hready hw] at hruns
    rcases hruns.performAll_or with h | h
    · exact ⟨_, by simp, h⟩
    · exact ⟨_, by simp, h⟩
  | none =>
    obtain ⟨t, ht, hruns⟩ := State.Quiet.missStep_runsTo (s := s.withActive i) q
    have hfetch : State.performAll (.begin i :: transportEvents i) s = .next t := by
      rw [State.performAll, State.perform_begin_miss hc hready hw]
      exact ht
    rw [State.perform_fullStep_miss hc hready hw]
    rcases hruns.performAll_or with h | h
    · exact ⟨_, by simp, (State.performAll_append hfetch _).trans h⟩
    · exact ⟨_, by simp, (State.performAll_append hfetch _).trans h⟩

end Sys2Proof.Machine
end

section
/-! Proofs for the family of 41_arithmetic: `Add` and `Mul`, the hardware tests of their overflow, the frame of the
instructions that use no bus. -/

namespace Sys2Proof.Machine

/-! ### `Add` and `Mul` (R161, R162) -/

/-- The common arm of R160 in the words of R31: the flags are those of the wrapped result, with overflow where the
mathematical result does not fit. -/
theorem CoreState.arith_completes_ofResult (c : CoreState) (r1 : Reg) (m : Int) :
    c.CompletesTo (c.arith r1 m) (fun q => if q = r1 then wrap64 m else c.reg q)
      (Flags.ofResult (wrap64 m) (decide (m < -2 ^ 63 ∨ m > 2 ^ 63 - 1))) :=
  (c.arith_completes r1 m).congr rfl (applyResultFlags _ _)

/-- Settles O8: the two-register form of the decoder, and the common arm of R160 on the sum. -/
theorem addRule : Obligations.AddRule := by
  refine ⟨fun w r1 r2 hfam h1 h2 => ?_, fun s c r1 r2 hc hready =>
    ⟨_, State.onReady_next _ hc hready, c.arith_completes_ofResult r1 _⟩⟩
  rw [decode_eq, hfam, h1, h2]
  exact decodeTwoRegs_code r1 r2 _

/-- Settles O9: the two-register form of the decoder, and the common arm of R160 on the product. -/
theorem mulRule : Obligations.MulRule := by
  refine ⟨fun w r1 r2 hfam h1 h2 => ?_, fun s c r1 r2 hc hready =>
    ⟨_, State.onReady_next _ hc hready, c.arith_completes_ofResult r1 _⟩⟩
  rw [decode_eq, hfam, h1, h2]
  exact decodeTwoRegs_code r1 r2 _

/-! ### The hardware tests of overflow (R161, R162) -/

theorem wrap64_sumOf (x y : Word) : wrap64 (sumOf x y) = x + y := by
  simp [sumOf, BitVec.ofInt_add]

/-- The model's test on a sum is the library's overflow of a signed addition. -/
theorem signedOverflow_sumOf (x y : Word) : signedOverflow (sumOf x y) = x.saddOverflow y := by
  rw [Bool.eq_iff_iff, signedOverflow_iff]
  simp only [sumOf, BitVec.saddOverflow, Bool.or_eq_true, decide_eq_true_iff, s64]
  omega

/-- Settles O10: the sign-bit test is the library's fact about signed additions. -/
theorem addOverflowBySigns : Obligations.AddOverflowBySigns := by
  intro x y
  rw [signedOverflow_sumOf, wrap64_sumOf, BitVec.saddOverflow_eq]
  rfl

/-- Bits 127:63 of a 128-bit pattern hold the quotient by `2^63`, rounded down. -/
theorem highBits_ofInt (m : Int) : (BitVec.ofInt 128 m).extractLsb' 63 65 = BitVec.ofInt 65 (m / 2 ^ 63) := by
  apply BitVec.eq_of_toNat_eq
  rw [BitVec.extractLsb'_toNat, BitVec.toNat_ofInt, BitVec.toNat_ofInt, Nat.shiftRight_eq_div_pow]
  omega

/-- Two integers that fit in 65 bits signed have one pattern only if they are equal. -/
theorem ofInt_65_eq_iff {a b : Int} (ha : -2 ^ 64 ≤ a ∧ a < 2 ^ 64) (hb : -2 ^ 64 ≤ b ∧ b < 2 ^ 64) :
    BitVec.ofInt 65 a = BitVec.ofInt 65 b ↔ a = b := by
  refine ⟨fun h => ?_, congrArg _⟩
  rw [← BitVec.toInt_ofInt_eq_self (w := 65) (by decide) ha.1 ha.2, h,
    BitVec.toInt_ofInt_eq_self (by decide) hb.1 hb.2]

/-- A product of two signed words lies within `2^126` of zero, so its pattern of 128 bits is exact. -/
theorem productOf_bounds (x y : Word) : -2 ^ 126 ≤ productOf x y ∧ productOf x y ≤ 2 ^ 126 :=
  ⟨BitVec.le_toInt_mul_toInt, BitVec.toInt_mul_toInt_le⟩

/-- Settles O11: a product fits iff its quotient by `2^63`, which is what bits 127:63 hold, is 0 or -1. -/
theorem mulOverflowByHighBits : Obligations.MulOverflowByHighBits := by
  intro x y
  obtain ⟨hlo, hhi⟩ := productOf_bounds x y
  have hzero : 0#65 = BitVec.ofInt 65 0 := rfl
  have hones : BitVec.allOnes 65 = BitVec.ofInt 65 (-1) := by decide
  rw [signedOverflow_iff, highBits_ofInt, hzero, hones, ne_eq, ne_eq, ofInt_65_eq_iff (by omega) (by decide),
    ofInt_65_eq_iff (by omega) (by decide)]
  omega

/-! ### The frame of the instructions that use no bus (R24, R33, R160, R190) -/

/-- `i`, without a bus transaction, makes `c'` of the Core `c`: of the registers it changes only IP and, as `Add` or
`Mul`, its first operand; the flags only as `Add` or `Mul`; nothing else. -/
structure CoreState.RegisterFrame (c : CoreState) (i : Instr) (c' : CoreState) : Prop where
  rest : c' = { c with regs := c'.regs, flags := c'.flags }
  regs : ∀ q, q ≠ Reg.ip → ¬((i.op = 1 ∨ i.op = 2) ∧ i.r1? = some q) → c'.reg q = c.reg q
  flags : i.op ≠ 1 → i.op ≠ 2 → c'.flags = c.flags

/-- The arithmetic arm stays in the frame of an instruction that is `Add` or `Mul` (R160). -/
theorem CoreState.RegisterFrame.arith {i : Instr} {c : CoreState} {r1 : Reg} (hready : c.phase = .ready)
    (hop : i.op = 1 ∨ i.op = 2) (hr1 : i.r1? = some r1) (m : Int) : c.RegisterFrame i (c.arith r1 m) where
  rest := CoreState.ext_fields rfl rfl rfl hready.symm rfl rfl rfl rfl
  regs q hip hq := by
    have hne : q ≠ r1 := fun h => hq ⟨hop, h.symm ▸ hr1⟩
    rw [(c.arith_completes r1 m).regs q hip, if_neg hne]
  flags h1 h2 := (hop.elim h1 h2).elim

/-- A jump stays in the frame of every instruction, taken or not (R190). -/
theorem CoreState.RegisterFrame.jump (i : Instr) {c : CoreState} (hready : c.phase = .ready) (taken : Bool) (addr : Nat) :
    c.RegisterFrame i (c.jump taken addr) where
  rest := by cases taken <;> exact CoreState.ext_fields rfl rfl rfl hready.symm rfl rfl rfl rfl
  regs q hip _ := by
    cases taken with
    | true => exact (c.jump_taken addr).regs q hip
    | false => exact (c.jump_not_taken addr).regs q hip
  flags _ _ := by cases taken <;> rfl

/-- `Nop`, `Add`, `Mul` and the jumps replace the active Core inside the frame, `Nop` as a jump that is not taken. -/
theorem exec_registerFrame {i : Instr} {s t : State} (hop : i.op = 0 ∨ i.op = 1 ∨ i.op = 2 ∨ 7 ≤ i.op)
    (he : exec i s = .next t) :
    ∃ c c', s.cores[s.active]? = some c ∧ t = s.setCore s.active c' ∧ c.RegisterFrame i c' := by
  cases i <;> obtain ⟨c, hc, hready, ht⟩ := State.onReady_cases he
  case nop => exact ⟨c, _, hc, ht, .jump _ hready false 0⟩
  case add => exact ⟨c, _, hc, ht, .arith hready (.inl rfl) rfl _⟩
  case mul => exact ⟨c, _, hc, ht, .arith hready (.inr rfl) rfl _⟩
  case jumpIfZero | jumpIfPositive | jumpIfNegative => exact ⟨c, _, hc, ht, .jump _ hready _ _⟩
  case load | store | push | pop => simp [Instr.op] at hop

/-- Settles O23: the active Core is replaced inside the frame, and the memory is not touched. -/
theorem registerInstrFrame : Obligations.RegisterInstrFrame := by
  intro i s t hop he
  obtain ⟨c, c', hc, rfl, hframe⟩ := exec_registerFrame hop he
  exact ⟨c, c', hc, rfl, hframe.rest, hframe.regs, hframe.flags, fun _ => rfl⟩

end Sys2Proof.Machine
end

section
/-! Proofs for the family of 42_load_store: `Load` and `Store`, from their issue to their completion or halt, and the
frames of the instructions that read or write one word on the bus. -/

namespace Sys2Proof.Machine

/-! ### The memory's service of one word (R71, R73) -/

/-- A one-word read in range is answered with its entry and changes nothing (R71). -/
theorem Memory.serve_read_one (m : Memory) (info : ErrInfo) {a : Word} (h : u64 a < Config.memWords) :
    m.serve info (.requestBlock a Config.oneCount) = (m, .giveBlock [(a, m.read (u64 a))]) := by
  have hrange : blockInRange (u64 a) Config.oneCount.toNat = true := by
    rw [blockInRange, Bool.and_eq_true, decide_eq_true_iff, decide_eq_true_iff, Config.oneCount_toNat]
    exact ⟨by decide, h⟩
  rw [Memory.serve_read m info hrange, Config.oneCount_toNat, Memory.block, Memory.block, zext64, BitVec.ofNat_toNat,
    BitVec.setWidth_eq]

theorem CoreMsg.not_writesTo_requestBlock (b : Word) (n : Count) (a : Nat) : ¬ (CoreMsg.requestBlock b n).writesTo a :=
  fun ⟨_, h, _⟩ => nomatch h

theorem CoreMsg.writesTo_one {b v : Word} {a : Nat} : (CoreMsg.giveBlock [(b, v)]).writesTo a ↔ u64 b = a := by
  simp [CoreMsg.writesTo]

/-! ### Sending, and a channel that is gone (R145, R149, R204) -/

/-- With its channel standing, the active Core sends and waits (R145). -/
theorem State.send_linked {s : State} {c : CoreState} (hd : c.disconnected = false) (hf : s.routerFault = false)
    (msg : CoreMsg) (ph : Phase) :
    s.send c msg ph = s.setCore s.active { c with up := c.up ++ [msg], phase := ph } := by
  simp [State.send, State.linkDown, hd, hf]

/-- With its channel gone at the send, a transaction halts the active Core and does nothing else (R149, R204). -/
theorem State.transact_gone {s : State} {c : CoreState} (h : c.disconnected = true ∨ s.routerFault = true)
    (msg : CoreMsg) (ph : Phase) (k : CoreMsg → CoreState → CoreState) :
    s.transact c msg ph k = s.setCore s.active (c.halt .busDisconnected .nothing) := by
  simp [State.transact, State.send, State.linkDown_of h]

/-! ### The completion part (R148) -/

/-- The address at which a Core that waits for data has asked for a word or written one. -/
def Phase.dataAddr? : Phase → Option Word
  | .awaitLoad _ a => some a
  | .awaitStore a _ => some a
  | .awaitPush a _ => some a
  | .awaitPop _ a => some a
  | .ready => none
  | .awaitFetch _ => none
  | .halted _ _ => none

theorem Phase.awaitingData_of_dataAddr {ph : Phase} {a : Word} (h : ph.dataAddr? = some a) :
    ph.awaitingData = true := by
  cases ph with
  | awaitLoad | awaitStore | awaitPush | awaitPop => rfl
  | ready | awaitFetch | halted => cases h

/-- Whatever data a Core waits for, a message that is not one entry at its address halts it (R66, R67, R148). -/
theorem completeData_bad {c : CoreState} {a : Word} (h : c.phase.dataAddr? = some a) {m : CoreMsg}
    (hbad : ∀ w, m ≠ .giveBlock [(a, w)]) : completeData m c = c.setPhase (badAnswerPhase m) := by
  unfold completeData
  cases hp : c.phase with
  | awaitLoad | awaitStore | awaitPush | awaitPop =>
    rw [hp] at h
    cases h
    exact c.takeAnswer_bad_one a m _ hbad
  | ready | awaitFetch | halted => rw [hp] at h; cases h

/-- *DataResponse* on a message that does not fit. -/
theorem State.perform_dataResponse_bad {s : State} {i : Nat} {c : CoreState} {a : Word} {m : CoreMsg}
    {rest : List CoreMsg} (hc : s.cores[i]? = some c) (ha : c.phase.dataAddr? = some a) (hdown : c.down = m :: rest)
    (hbad : ∀ w, m ≠ .giveBlock [(a, w)]) :
    s.perform (.dataResponse i) = .next { s with
      active := i, cores := s.cores.set i { c with down := rest, phase := badAnswerPhase m } } := by
  rw [State.perform_dataResponse hc (Phase.awaitingData_of_dataAddr ha) hdown,
    completeData_bad (c := c.setDown rest) ha hbad]
  rfl

/-- `Load` completes on one entry at its address: the word goes to `r1`, the flags follow it (R171). -/
theorem completeLoad_completes (r1 : Reg) (a w : Word) (c : CoreState) :
    c.CompletesTo (completeLoad r1 a (.giveBlock [(a, w)]) c) (fun q => if q = r1 then w else c.reg q)
      (Flags.ofResult w false) := by
  rw [completeLoad, checkAnswer_one]
  exact (c.setReg_completes r1 w _).congr rfl (applyResultFlags w false)

/-- `Store` completes on one entry at its address, whatever its word: the flags follow the stored word (R172, D16). -/
theorem completeStore_completes (a v w : Word) (c : CoreState) :
    c.CompletesTo (completeStore a v (.giveBlock [(a, w)]) c) c.reg (Flags.ofResult v false) := by
  rw [completeStore, checkAnswer_one]
  exact (c.setFlags_completes _).congr rfl (applyResultFlags v false)

/-! ### `Load` and `Store` (R171, R172) -/

/-- On a quiet bus `Load` completes on the word that the memory holds (R171). -/
theorem State.Quiet.exec_load {s : State} {c : CoreState} (q : s.Quiet c) (hready : c.phase = .ready) {addr : Nat}
    (haddr : addr < 2 ^ 52) (r1 : Reg) :
    exec (.load r1 addr) s = .next { s with
      cores := s.cores.set s.active (completeLoad r1 (zext64 addr) (.giveBlock [(zext64 addr, s.mem.read addr)])
        (c.setPhase (.awaitLoad r1 (zext64 addr))))
      tick := s.tick + 1 } := by
  have hu := u64_absoluteAddr haddr
  have hserve := Memory.serve_read_one s.mem (Config.freeErrInfo s.tick) (a := absoluteAddr addr) (hu.trans_lt haddr)
  refine (State.onReady_next _ q.atActive hready).trans ?_
  rw [State.transact_quiet q rfl rfl rfl rfl, hserve, hu]
  rfl

/-- On a quiet bus `Store` writes its word and completes on the echo (R172). -/
theorem State.Quiet.exec_store {s : State} {c : CoreState} (q : s.Quiet c) (hready : c.phase = .ready) {addr : Nat}
    (haddr : addr < 2 ^ 52) (r1 : Reg) :
    exec (.store addr r1) s = .next { s with
      cores := s.cores.set s.active (completeStore (zext64 addr) (c.reg r1) (.giveBlock [(zext64 addr, c.reg r1)])
        (c.setPhase (.awaitStore (zext64 addr) (c.reg r1))))
      mem := s.mem.write addr (c.reg r1)
      tick := s.tick + 1 } := by
  have hu := u64_absoluteAddr haddr
  have hserve := Memory.serve_write s.mem (Config.freeErrInfo s.tick) (a := absoluteAddr addr) (v := c.reg r1)
    (hu.trans_lt haddr)
  refine (State.onReady_next _ q.atActive hready).trans ?_
  rw [State.transact_quiet q rfl rfl rfl rfl, hserve, hu]
  rfl

/-- Settles O17, a clause at a time; the halts during the wait are those of every Core that waits for data. -/
theorem loadRule : Obligations.LoadRule := by
  refine ⟨?decodes, ?issue, ?quiet, ?answered, ?bad, ?lost, ?gone⟩
  case decodes =>
    intro w r1 hfam hr
    rw [decode_eq, hfam, hr]
    exact decodeOneReg_code r1 _
  case issue =>
    intro s c r1 addr hc hready hd hf
    exact (State.onReady_next _ hc hready).trans (congrArg _ (State.send_linked hd hf _ _))
  case quiet =>
    intro s c r1 addr q hready haddr
    exact ⟨_, q.exec_load hready haddr r1, (completeLoad_completes r1 _ _ _).of_setPhase⟩
  case answered =>
    intro s i c r1 a w rest hc hphase hdown
    refine ⟨_, State.perform_dataResponse hc (hphase ▸ rfl) hdown, ?_⟩
    rw [completeData, CoreState.setDown_phase, hphase]
    exact completeLoad_completes r1 a w _
  case bad =>
    intro s i c r1 a m rest hc hphase hdown hbad
    exact State.perform_dataResponse_bad hc (hphase ▸ rfl) hdown hbad
  case lost =>
    intro s i c r1 a hc hphase hgone
    exact disconnectHalts s i c hc (hphase ▸ rfl) hgone
  case gone =>
    intro s c r1 addr hc hready hgone
    exact (State.onReady_next _ hc hready).trans (congrArg _ (State.transact_gone hgone _ _ _))

/-- Settles O18, a clause at a time, as for `Load`; the word stored is read back by the law of the memory. -/
theorem storeRule : Obligations.StoreRule := by
  refine ⟨?decodes, ?issue, ?quiet, ?answered, ?bad, ?lost, ?gone⟩
  case decodes =>
    intro w r1 hfam hr
    rw [decode_eq, hfam, hr]
    exact decodeOneReg_code r1 _
  case issue =>
    intro s c r1 addr hc hready hd hf
    exact (State.onReady_next _ hc hready).trans (congrArg _ (State.send_linked hd hf _ _))
  case quiet =>
    intro s c r1 addr q hready haddr
    exact ⟨_, _, q.exec_store hready haddr r1, rfl, (completeStore_completes _ _ _ _).of_setPhase,
      fun hok b => Memory.read_write hok addr b _⟩
  case answered =>
    intro s i c a v w rest hc hphase hdown
    refine ⟨_, State.perform_dataResponse hc (hphase ▸ rfl) hdown, ?_⟩
    rw [completeData, CoreState.setDown_phase, hphase]
    exact completeStore_completes a v w _
  case bad =>
    intro s i c a v m rest hc hphase hdown hbad
    exact State.perform_dataResponse_bad hc (hphase ▸ rfl) hdown hbad
  case lost =>
    intro s i c a v hc hphase hgone
    exact disconnectHalts s i c hc (hphase ▸ rfl) hgone
  case gone =>
    intro s c r1 addr hc hready hgone
    exact (State.onReady_next _ hc hready).trans (congrArg _ (State.transact_gone hgone _ _ _))

/-! ### Frames (R20, R38, R171, R172, R182) -/

/-- A completion that leaves a register alone where it takes the words leaves it alone on every answer (R207). -/
theorem CoreState.reg_takeAnswer {c : CoreState} {ans : Answer} {k : List Word → CoreState} {q : Reg}
    (h : ∀ ws, (k ws).reg q = c.reg q) : (c.takeAnswer ans k).reg q = c.reg q :=
  CoreState.takeAnswer_field (·.reg q) (fun _ _ _ => rfl) c ans k h

theorem completeLoad_reg {r1 q : Reg} (hip : q ≠ .ip) (hr1 : q ≠ r1) (a : Word) (m : CoreMsg) (c : CoreState) :
    (completeLoad r1 a m c).reg q = c.reg q :=
  CoreState.reg_takeAnswer fun _ => by simp [hip, hr1]

theorem completeStore_reg {q : Reg} (hip : q ≠ .ip) (a v : Word) (m : CoreMsg) (c : CoreState) :
    (completeStore a v m c).reg q = c.reg q :=
  CoreState.reg_takeAnswer fun _ => by simp [hip]

theorem CoreState.popWord_reg {r1 q : Reg} (hip : q ≠ .ip) (hr1 : q ≠ r1) (hsp : q ≠ .sp) (w : Word) (c : CoreState) :
    (c.popWord r1 w).reg q = c.reg q := by
  by_cases h : s64 (c.reg .sp + 1) < 0
  · rw [c.popWord_underflow r1 w h, CoreState.reg_halt]
  · rw [(c.popWord_completes r1 w h).regs q hip, if_neg hr1, if_neg hsp]

theorem completePop_reg {r1 q : Reg} (hip : q ≠ .ip) (hr1 : q ≠ r1) (hsp : q ≠ .sp) (a : Word) (m : CoreMsg)
    (c : CoreState) : (completePop r1 a m c).reg q = c.reg q :=
  CoreState.reg_takeAnswer fun _ => CoreState.popWord_reg hip hr1 hsp _ c

/-- Settles O24: the request writes nothing, and the completions keep the registers that the instruction does not
name. -/
theorem readInstrFrame : Obligations.ReadInstrFrame := by
  intro i s t hop hok he
  cases i with
  | load r1 addr =>
    obtain ⟨c, hc, _, rfl⟩ := State.onReady_cases he
    obtain ⟨c', hc', hwin, hid, hreg, hmem, hother⟩ := State.transact_frame hok hc (fun q => q ≠ .ip ∧ q ≠ r1)
      rfl rfl rfl (fun _ _ => rfl) fun m d =>
        ⟨(completeLoad_changes r1 _ m d).win, (completeLoad_changes r1 _ m d).id,
          fun q ⟨hip, hr1⟩ => completeLoad_reg hip hr1 _ m d⟩
    exact ⟨c, c', hc, hc', hwin, hid, fun q hip hr1 _ => hreg q ⟨hip, fun h => hr1 (h ▸ rfl)⟩,
      fun a => hmem a (CoreMsg.not_writesTo_requestBlock _ _ a), hother⟩
  | pop r1 =>
    obtain ⟨c, hc, _, rfl⟩ := State.onReady_cases he
    obtain ⟨c', hc', hwin, hid, hreg, hmem, hother⟩ := State.transact_frame hok hc
      (fun q => q ≠ .ip ∧ q ≠ r1 ∧ q ≠ .sp) rfl rfl rfl (fun _ _ => rfl) fun m d =>
        ⟨(completePop_changes r1 _ m d).win, (completePop_changes r1 _ m d).id,
          fun q ⟨hip, hr1, hsp⟩ => completePop_reg hip hr1 hsp _ m d⟩
    exact ⟨c, c', hc, hc', hwin, hid, fun q hip hr1 hsp => hreg q ⟨hip, fun h => hr1 (h ▸ rfl), fun h => hsp ⟨rfl, h⟩⟩,
      fun a => hmem a (CoreMsg.not_writesTo_requestBlock _ _ a), hother⟩
  | nop | add | mul | store | push | jumpIfZero | jumpIfPositive | jumpIfNegative => simp [Instr.op] at hop

/-- Settles O25: the request writes at the instruction's address only, and the completion keeps all but IP. -/
theorem storeFrame : Obligations.StoreFrame := by
  intro addr r1 s t hok he
  obtain ⟨c, hc, _, rfl⟩ := State.onReady_cases he
  obtain ⟨c', hc', hwin, hid, hreg, hmem, hother⟩ := State.transact_frame hok hc (· ≠ .ip) rfl rfl rfl (fun _ _ => rfl)
    fun m d => ⟨(completeStore_changes _ _ m d).win, (completeStore_changes _ _ m d).id,
      fun q hip => completeStore_reg hip _ _ m d⟩
  exact ⟨c, c', hc, hc', hwin, hid, hreg, fun a ha => hmem a fun hw => ha (CoreMsg.writesTo_one.mp hw).symm, hother⟩

end Sys2Proof.Machine
end

section
/-! Proofs for the family of 43_stack: `Push` and `Pop`, from their issue to their completion or halt, the test of the
raised SP, the round trip of the two, and the frame of `Push`. -/

namespace Sys2Proof.Machine

/-! ### The memory refuses a one-word read (R72) -/

/-- A one-word read out of range is refused and changes nothing (R72). -/
theorem Memory.serve_read_one_refused (m : Memory) (info : ErrInfo) {a : Word} (h : Config.memWords ≤ u64 a) :
    m.serve info (.requestBlock a Config.oneCount) = (m, .error info) := by
  refine Memory.serve_read_refused m info ?_
  rw [blockInRange, Config.oneCount_toNat, Bool.and_eq_false_iff, decide_eq_false_iff_not, decide_eq_false_iff_not]
  exact .inr (by omega)

/-! ### The raised SP (R182, R183) -/

/-- Raising by one gives a negative word from -2 and below, and where it wraps past `I64_MAX` (R183). -/
theorem s64_add_one_neg_iff (x : Word) : s64 (x + 1) < 0 ↔ s64 x ≤ -2 ∨ x = i64Max := by
  have hmax : x = i64Max ↔ x.toNat = 2 ^ 63 - 1 := BitVec.toNat_eq
  have hsum : (x + 1).toNat = (x.toNat + 1) % 2 ^ 64 := BitVec.toNat_add x 1
  have hlt : x.toNat < 2 ^ 64 := x.isLt
  rw [hmax, s64, s64, BitVec.toInt_eq_toNat_cond, BitVec.toInt_eq_toNat_cond, hsum]
  omega

/-- Every other word is raised to one that is not negative (R183). -/
theorem not_s64_add_one_neg_iff (x : Word) : ¬ s64 (x + 1) < 0 ↔ -1 ≤ s64 x ∧ x ≠ i64Max := by
  rw [s64_add_one_neg_iff, not_or, Int.not_le]
  rfl

/-- Raising an SP that is in the address space does not make it negative (R183). -/
theorem not_s64_add_one_neg {x : Word} (h : u64 x < Config.memWords) : ¬ s64 (x + 1) < 0 := by
  have hlt : x.toNat < 2 ^ 52 := h
  refine (not_s64_add_one_neg_iff x).mpr ⟨?_, ?_⟩
  · rw [s64, BitVec.toInt_eq_toNat_of_lt (by omega)]
    omega
  · rintro rfl
    exact absurd hlt (by decide)

/-! ### The completion part (R148) -/

/-- `Push` completes on one entry at its address, whatever its word: the flags follow the pushed word (R181, D16). -/
theorem completePush_completes (a v w : Word) (c : CoreState) :
    c.CompletesTo (completePush a v (.giveBlock [(a, w)]) c) c.reg (Flags.ofResult v false) := by
  rw [completePush, checkAnswer_one]
  exact (c.setFlags_completes _).congr rfl (applyResultFlags v false)

/-- `Pop` takes the word of one entry at its address (R182). -/
theorem completePop_one (r1 : Reg) (a w : Word) (c : CoreState) :
    completePop r1 a (.giveBlock [(a, w)]) c = c.popWord r1 w := by
  rw [completePop, checkAnswer_one]
  rfl

/-- `Pop` completes on its word where the raised SP is not negative: `r1` is written last (R182, D10). -/
theorem CoreState.popWord_completes_ofResult {c : CoreState} (h : ¬ s64 (c.reg .sp + 1) < 0) (r1 : Reg) (w : Word) :
    c.CompletesTo (c.popWord r1 w)
      (fun q => if q = r1 then w else if q = Reg.sp then c.reg .sp + 1 else c.reg q) (Flags.ofResult w false) :=
  (c.popWord_completes r1 w h).congr rfl (applyResultFlags w false)

/-- *DataResponse* of a Core that waits for a `Pop`, on the entry it waits for (R148). -/
theorem State.perform_dataResponse_pop {s : State} {i : Nat} {c : CoreState} {r1 : Reg} {a w : Word}
    {rest : List CoreMsg} (hc : s.cores[i]? = some c) (hphase : c.phase = .awaitPop r1 a)
    (hdown : c.down = .giveBlock [(a, w)] :: rest) :
    s.perform (.dataResponse i) = .next ((s.withActive i).setCore i ((c.setDown rest).popWord r1 w)) := by
  rw [State.perform_dataResponse hc (hphase ▸ rfl) hdown, completeData, CoreState.setDown_phase, hphase]
  simp only [completePop_one]

/-! ### `Push` and `Pop` on a quiet bus (R181, R182) -/

/-- What `Push` completes to from the lowered SP it completes to from the SP before, which it lowers (R181). -/
theorem CoreState.CompletesTo.of_pushed {c c' : CoreState} {f : Flags} (h : c.pushed.CompletesTo c' c.pushed.reg f) :
    c.CompletesTo c' (fun q => if q = Reg.sp then c.reg .sp - 1 else c.reg q) f :=
  ⟨fun q hq => (h.regs q hq).trans (c.reg_pushed q), h.ip, h.flags, h.win, h.phase, h.up, h.down, h.id,
    h.disconnected⟩

/-- On a quiet bus `Push` lowers SP and completes on whatever the memory answers (R181). -/
theorem State.Quiet.exec_push {s : State} {c : CoreState} (q : s.Quiet c) (hready : c.phase = .ready) (r1 : Reg)
    {mem : Memory} {m : CoreMsg}
    (hserve : s.mem.serve (Config.freeErrInfo s.tick) (.giveBlock [(c.reg .sp - 1, c.pushed.reg r1)]) = (mem, m)) :
    exec (.push r1) s = .next { s with
      cores := s.cores.set s.active (completePush (c.reg .sp - 1) (c.pushed.reg r1) m
        (c.pushed.setPhase (.awaitPush (c.reg .sp - 1) (c.pushed.reg r1))))
      mem := mem
      tick := s.tick + 1 } := by
  refine (State.onReady_next _ q.atActive hready).trans ?_
  rw [State.transact_quiet (c := c.pushed) q rfl rfl rfl rfl, pushAddr, hserve]
  rfl

/-- On a quiet bus `Pop` completes on whatever the memory answers (R182). -/
theorem State.Quiet.exec_pop {s : State} {c : CoreState} (q : s.Quiet c) (hready : c.phase = .ready) (r1 : Reg)
    {m : CoreMsg}
    (hserve : s.mem.serve (Config.freeErrInfo s.tick) (.requestBlock (c.reg .sp) Config.oneCount) = (s.mem, m)) :
    exec (.pop r1) s = .next { s with
      cores := s.cores.set s.active (completePop r1 (c.reg .sp) m (c.setPhase (.awaitPop r1 (c.reg .sp))))
      tick := s.tick + 1 } := by
  refine (State.onReady_next _ q.atActive hready).trans ?_
  rw [State.transact_quiet q rfl rfl rfl rfl, popAddr, hserve]
  rfl

/-- On a quiet bus with the lowered SP in range `Push` writes its word there and completes (R181). -/
theorem State.Quiet.exec_push_completes {s : State} {c : CoreState} (q : s.Quiet c) (hready : c.phase = .ready)
    (hsp : u64 (c.reg .sp - 1) < 2 ^ 52) (r1 : Reg) :
    ∃ c', exec (.push r1) s = .next { s with
        cores := s.cores.set s.active c'
        mem := s.mem.write (u64 (c.reg .sp - 1)) (c.pushed.reg r1)
        tick := s.tick + 1 } ∧
      c.CompletesTo c' (fun q => if q = Reg.sp then c.reg .sp - 1 else c.reg q)
        (Flags.ofResult (c.pushed.reg r1) false) :=
  ⟨_, q.exec_push hready r1 (Memory.serve_write _ _ hsp), (completePush_completes _ _ _ _).of_setPhase.of_pushed⟩

/-- On a quiet bus with SP in range `Pop` completes on the word that the memory holds there (R182). -/
theorem State.Quiet.exec_pop_completes {s : State} {c : CoreState} (q : s.Quiet c) (hready : c.phase = .ready)
    (hsp : u64 (c.reg .sp) < 2 ^ 52) (r1 : Reg) :
    ∃ c', exec (.pop r1) s = .next { s with cores := s.cores.set s.active c', tick := s.tick + 1 } ∧
      c.CompletesTo c'
        (fun q => if q = r1 then s.mem.read (u64 (c.reg .sp)) else if q = Reg.sp then c.reg .sp + 1 else c.reg q)
        (Flags.ofResult (s.mem.read (u64 (c.reg .sp))) false) := by
  refine ⟨_, q.exec_pop hready r1 (Memory.serve_read_one _ _ hsp), ?_⟩
  rw [completePop_one]
  exact (CoreState.popWord_completes_ofResult (c := c.setPhase _) (not_s64_add_one_neg hsp) r1 _).of_setPhase

/-- Settles O19, a clause at a time, as for `Store`; SP is lowered before the request is made, so each halt leaves it
lowered. -/
theorem pushRule : Obligations.PushRule := by
  refine ⟨?decodes, ?issue, ?quiet, ?refused, ?answered, ?bad, ?lost, ?gone⟩
  case decodes =>
    intro w r1 hfam hr
    rw [decode_eq, hfam, hr]
    exact decodeOneReg_code r1 _
  case issue =>
    intro s c r1 v hc hready hd hf hv
    obtain rfl : v = c.pushed.reg r1 := hv.trans (c.reg_pushed r1).symm
    exact (State.onReady_next _ hc hready).trans (congrArg _ (State.send_linked (c := c.pushed) hd hf _ _))
  case quiet =>
    intro s c r1 v q hready hsp hv
    obtain rfl : v = c.pushed.reg r1 := hv.trans (c.reg_pushed r1).symm
    obtain ⟨c', he, hcompletes⟩ := q.exec_push_completes hready hsp r1
    exact ⟨c', _, he, rfl, hcompletes, fun hok b => Memory.read_write hok _ b _⟩
  case refused =>
    intro s c r1 q hready hsp
    exact ⟨_, q.exec_push hready r1 (Memory.serve_write_refused _ _ hsp.not_gt)⟩
  case answered =>
    intro s i c a v w rest hc hphase hdown
    refine ⟨_, State.perform_dataResponse hc (hphase ▸ rfl) hdown, ?_⟩
    rw [completeData, CoreState.setDown_phase, hphase]
    exact completePush_completes a v w _
  case bad =>
    intro s i c a v m rest hc hphase hdown hbad
    exact State.perform_dataResponse_bad hc (hphase ▸ rfl) hdown hbad
  case lost =>
    intro s i c a v hc hphase hgone
    exact disconnectHalts s i c hc (hphase ▸ rfl) hgone
  case gone =>
    intro s c r1 hc hready hgone
    exact (State.onReady_next _ hc hready).trans (congrArg _ (State.transact_gone (c := c.pushed) hgone _ _ _))

/-- Settles O20, a clause at a time; the test of the raised SP decides the completion. -/
theorem popRule : Obligations.PopRule := by
  refine ⟨?decodes, ?issue, ?quiet, ?refused, ?answered, ?bad, ?lost, ?gone⟩
  case decodes =>
    intro w r1 hfam hr
    rw [decode_eq, hfam, hr]
    exact decodeOneReg_code r1 _
  case issue =>
    intro s c r1 hc hready hd hf
    exact (State.onReady_next _ hc hready).trans (congrArg _ (State.send_linked hd hf _ _))
  case quiet =>
    rintro s c r1 w q hready hsp rfl
    exact q.exec_pop_completes hready hsp r1
  case refused =>
    intro s c r1 q hready hsp
    exact ⟨_, q.exec_pop hready r1 (Memory.serve_read_one_refused _ _ hsp)⟩
  case answered =>
    intro s i c r1 a w rest hc hphase hdown
    have he := State.perform_dataResponse_pop hc hphase hdown
    split
    · next hneg => rw [he, CoreState.popWord_underflow (c.setDown rest) r1 w hneg]; rfl
    · next hpos => exact ⟨_, he, CoreState.popWord_completes_ofResult (c := c.setDown rest) hpos r1 w⟩
  case bad =>
    intro s i c r1 a m rest hc hphase hdown hbad
    exact State.perform_dataResponse_bad hc (hphase ▸ rfl) hdown hbad
  case lost =>
    intro s i c r1 a hc hphase hgone
    exact disconnectHalts s i c hc (hphase ▸ rfl) hgone
  case gone =>
    intro s c r1 hc hready hgone
    exact (State.onReady_next _ hc hready).trans (congrArg _ (State.transact_gone hgone _ _ _))

/-- Settles O21: the test is on the raised SP, and `s64_add_one_neg_iff` says at which SP it fails. -/
theorem popTestFailsExactly : Obligations.PopTestFailsExactly := by
  intro s i c r1 a w rest hc hphase hdown
  refine ⟨_, _, State.perform_dataResponse_pop hc hphase hdown,
    State.setCore_get_self (s := s.withActive i) hc, ?_⟩
  rw [← s64_add_one_neg_iff, ← not_s64_add_one_neg_iff]
  by_cases hneg : s64 (c.reg .sp + 1) < 0
  · rw [CoreState.popWord_underflow (c.setDown rest) r1 w hneg]
    exact ⟨iff_of_true rfl hneg, iff_of_false nofun (not_not_intro hneg)⟩
  · rw [(CoreState.popWord_completes (c.setDown rest) r1 w hneg).phase]
    exact ⟨iff_of_false nofun hneg, iff_of_true rfl hneg⟩

/-! ### `Push` then `Pop` (R184) -/

/-- The quiet bus stays quiet where the active Core completes an instruction and the memory has served it. -/
theorem State.Quiet.completes {s : State} {c d : CoreState} (q : s.Quiet c) {upd : Reg → Word} {f : Flags}
    (h : c.CompletesTo d upd f) (mem : Memory) (tick : Nat) :
    ({ s with cores := s.cores.set s.active d, mem := mem, tick := tick } : State).Quiet d :=
  have hset := q.setCore h.id h.up h.down h.disconnected
  ⟨hset.atActive, hset.idOk, hset.up, hset.down, hset.memUp, hset.memDown, hset.linked, hset.noFault, hset.memLinked⟩

/-- What an instruction leaves in the register it writes: the advance follows, which IP alone sees (R27, R144). -/
theorem CoreState.CompletesTo.reg {c c' : CoreState} {upd : Reg → Word} {f : Flags} (h : c.CompletesTo c' upd f)
    (q : Reg) : c'.reg q = if q = .ip then upd q + 1 else upd q := by
  split
  · next hip => rw [hip, h.ip]
  · next hip => exact h.regs q hip

/-- Settles O22: `Push` leaves the word at the lowered SP, where `Pop` reads it and raises SP again. -/
theorem pushPopRoundTrip : Obligations.PushPopRoundTrip := by
  intro s c r q hquiet hready hok hr hq hlow hhigh
  have haddr : u64 (c.reg .sp - 1) = u64 (c.reg .sp) - 1 := BitVec.toNat_sub_of_le hlow
  have hword : c.pushed.reg r = c.reg r := (c.reg_pushed r).trans (if_neg hr)
  obtain ⟨c1, hpush, hc1⟩ := hquiet.exec_push_completes hready (by omega) r
  have hsp1 : c1.reg .sp = c.reg .sp - 1 := hc1.regs .sp (by decide)
  have hquiet1 := hquiet.completes hc1 (s.mem.write (u64 (c.reg .sp - 1)) (c.pushed.reg r)) (s.tick + 1)
  obtain ⟨c2, hpop, hc2⟩ := hquiet1.exec_pop_completes hc1.phase (by rw [hsp1]; omega) q
  have hread : (s.mem.write (u64 (c.reg .sp - 1)) (c.pushed.reg r)).read (u64 (c.reg .sp - 1)) = c.reg r := by
    rw [Memory.read_write hok, if_pos rfl, hword]
  simp only [hsp1, hread] at hc2
  refine ⟨_, _, c2, hpush, hpop, State.setCore_get_self hquiet1.atActive, ?_, ?_, ?_, hc2.flags, hc2.phase⟩
  · rw [hc2.reg q, if_pos rfl]
  · rw [hc2.regs .sp (by decide), if_neg hq.symm, if_pos rfl, BitVec.sub_add_cancel]
  · rw [← haddr]
    exact hread

/-! ### The frame of `Push` (R20, R38, R181) -/

theorem completePush_reg {q : Reg} (hip : q ≠ .ip) (a v : Word) (m : CoreMsg) (c : CoreState) :
    (completePush a v m c).reg q = c.reg q :=
  CoreState.reg_takeAnswer fun _ => by simp [hip]

/-- Settles O26: the issue part lowers SP, the request writes at the lowered SP only, and the completion keeps all but
IP. -/
theorem pushFrame : Obligations.PushFrame := by
  intro r1 s t hok he
  obtain ⟨c, hc, _, rfl⟩ := State.onReady_cases he
  obtain ⟨c', hc', hwin, hid, hreg, hmem, hother⟩ := State.transact_frame (c := c.pushed) hok hc
    (fun q => q ≠ .ip ∧ q ≠ .sp) rfl rfl rfl (fun q ⟨_, hsp⟩ => (c.reg_pushed q).trans (if_neg hsp)) fun m d =>
      ⟨(completePush_changes _ _ m d).win, (completePush_changes _ _ m d).id,
        fun q ⟨hip, _⟩ => completePush_reg hip _ _ m d⟩
  exact ⟨c, c', hc, hc', hwin, hid, fun q hip hsp => hreg q ⟨hip, hsp⟩,
    fun a ha => hmem a fun hw => ha (CoreMsg.writesTo_one.mp hw).symm, hother⟩

end Sys2Proof.Machine
end

section
/-! Proofs for the family of 44_jump_nop: the three jumps and `Nop`, and the pair of jumps that is unconditional. -/

namespace Sys2Proof.Machine

/-! ### The shared decoding and the shared arm of the jumps (R101, R190) -/

/-- A word of family 7 is decoded by its jump kind; the register codes take no part (R105). -/
theorem decode_of_family_jump {w : Word} (hfam : bits w 63 60 = 7) :
    decode w = decodeJump (bits w 59 56) (bits w 51 0) := by
  rw [decode_eq, hfam, decodeFields]

/-- The two outcomes of a jump whose condition reads as `p`: the target, or the advance (R144, R190). -/
theorem CoreState.jump_outcome {taken : Bool} {p : Prop} [Decidable p] (h : taken = true ↔ p) (c : CoreState)
    (addr : Nat) :
    if p then c.JumpsTo (c.jump taken addr) (zext64 addr) else c.CompletesTo (c.jump taken addr) c.reg c.flags := by
  split
  · next hp => rw [h.mpr hp]; exact c.jump_taken addr
  · next hp => rw [Bool.eq_false_iff.mpr (mt h.mp hp)]; exact c.jump_not_taken addr

/-- With `POSITIVE_EXCLUDES_ZERO` off, SIGN alone decides `JumpIfPositive` (R192, D6). -/
theorem positiveTaken_default_iff (f : Flags) :
    positiveTaken Config.positiveExcludesZero f = true ↔ f.s = false := by
  simp [positiveTaken, Config.positiveExcludesZero]

/-! ### The four instructions (R191 to R194) -/

/-- Settles O12: kind 1 of family 7, and the shared arm on ZERO. -/
theorem jumpIfZeroRule : Obligations.JumpIfZeroRule := by
  refine ⟨fun w hfam hkind => ?_, fun s c addr hc hready =>
    ⟨_, State.onReady_next _ hc hready, c.jump_outcome Iff.rfl addr⟩⟩
  rw [decode_of_family_jump hfam, hkind, decodeJump]

/-- Settles O13: kind 2 of family 7, and the shared arm on SIGN clear. -/
theorem jumpIfPositiveRule : Obligations.JumpIfPositiveRule := by
  refine ⟨fun w hfam hkind => ?_, fun s c addr hc hready =>
    ⟨_, State.onReady_next _ hc hready, c.jump_outcome (positiveTaken_default_iff c.flags) addr⟩⟩
  rw [decode_of_family_jump hfam, hkind, decodeJump]

/-- Settles O14: kind 3 of family 7, and the shared arm on SIGN set. -/
theorem jumpIfNegativeRule : Obligations.JumpIfNegativeRule := by
  refine ⟨fun w hfam hkind => ?_, fun s c addr hc hready =>
    ⟨_, State.onReady_next _ hc hready, c.jump_outcome Iff.rfl addr⟩⟩
  rw [decode_of_family_jump hfam, hkind, decodeJump]

/-- Settles O15: family 0 alone decides the decoding, and the flags written before the advance are the old ones. -/
theorem nopRule : Obligations.NopRule := by
  refine ⟨fun w hfam => ?_, fun s c hc hready =>
    ⟨_, State.onReady_next _ hc hready, c.setFlags_completes c.flags⟩⟩
  rw [decode_eq, hfam, decodeFields]

/-! ### The unconditional pair (R195) -/

/-- Settles O16: with SIGN set the first jump is taken; with SIGN clear it falls through with the flags kept, so the
second is taken. -/
theorem jumpPairIsUnconditional : Obligations.JumpPairIsUnconditional := by
  intro s c t hc hready
  obtain ⟨c1, hneg, hc1⟩ := jumpIfNegativeRule.2 s c t hc hready
  have hget := State.setCore_get_self (d := c1) hc
  refine ⟨_, c1, hneg, hget, ?_⟩
  by_cases hsign : c.flags.s = true
  · rw [if_pos hsign] at hc1
    exact .inl hc1.ip
  · rw [if_neg hsign] at hc1
    have hclear : c1.flags.s = false := by rw [hc1.flags, Bool.eq_false_iff.mpr hsign]
    obtain ⟨c2, hpos, hc2⟩ := jumpIfPositiveRule.2 _ c1 t hget hc1.phase
    rw [if_pos hclear] at hc2
    exact .inr ⟨hc1.ip, _, c2, hpos, State.setCore_get_self hget, hc2.ip, hc2.flags.trans hc1.flags⟩

end Sys2Proof.Machine
end

section
/-! Proofs for the family of 60_exceptions: halting and what a halted Core keeps, the two halts of a fetch, and the
Router with its fault. -/

namespace Sys2Proof.Machine

/-! ### A halted Core (R151, R208) -/

theorem CoreState.phase_of_isHalted {c : CoreState} (h : c.isHalted = true) : ∃ k x, c.phase = .halted k x := by
  cases hphase : c.phase with
  | halted k x => exact ⟨k, x, rfl⟩
  | _ => simp [CoreState.isHalted, hphase] at h

/-- No event of a halted Core is enabled: each asks for a phase that is not `Halted` (R145 to R149, R151). -/
theorem State.perform_of_isHalted {s : State} {i : Nat} {c : CoreState} {e : Event} (hc : s.cores[i]? = some c)
    (hhalted : c.isHalted = true) (hown : e.isOf i = true) : s.perform e = s.idle := by
  obtain ⟨k, x, hphase⟩ := c.phase_of_isHalted hhalted
  cases e <;> simp only [Event.isOf, beq_iff_eq, Bool.false_eq_true] at hown <;> subst hown
  case fullStep => simp [State.perform, State.evFullStep, hc, hphase]
  case begin => simp [State.perform, State.evBegin, hc, hphase]
  case fetchResponse => simp [State.perform, State.evFetchResponse, hc, hphase]
  case dataResponse =>
    simp only [State.perform, State.evDataResponse, hc, hphase, Phase.awaitingData]
    split <;> rfl
  case disconnect => simp [State.perform, State.evDisconnect, hc, hphase, Phase.awaiting]

/-- Settles O39: a halted Core's own events are not enabled, and no other event touches its own part. -/
theorem haltedIsAbsorbing : Obligations.HaltedIsAbsorbing := by
  intro s t i c hstep hreset hc hhalted
  cases hown : s.nextEvent.1.isOf i with
  | false => exact onlyOwnEventsChangeACore s t i c hstep hreset hown hc
  | true =>
    have hc' : s.nextEvent.2.cores[i]? = some c :=
      State.nextEvent_keeps (P := fun u => u.cores[i]? = some c) (fun _ _ _ h => h) hc
    rw [step, State.perform_of_isHalted hc' hhalted hown] at hstep
    rw [State.idle_cases hstep]
    exact ⟨c, hc', rfl⟩

/-! ### The two halts of a fetch (R202, R203) -/

theorem State.decodeThen_err {s : State} {c : CoreState} (hc : s.cores[s.active]? = some c) {w : Word} {e : DecodeError}
    (h : decode w = .err e) (k : Instr → State → Result) (a : Word) :
    s.decodeThen k w a = .next (s.setCore s.active (c.halt (decodeCause e) (.fetched w a))) := by
  simp only [State.decodeThen, h, hc]

/-- On a quiet bus a fetch whose first word does not decode halts the Core with its window refilled (R142, R202). -/
theorem State.missStep_decode_err {s : State} {c : CoreState} (q : s.Quiet c) (hin : u64 (c.reg .ip) + 8 ≤ 2 ^ 52)
    {e : DecodeError} (hdec : decode (s.mem.read (u64 (c.reg .ip))) = .err e) :
    s.missStep c = .next ({ s with tick := s.tick + 1 }.setCore s.active { c with
      win := Window.refill (c.reg .ip) ((s.mem.block (u64 (c.reg .ip)) 8).map Prod.snd)
      phase := .halted (decodeCause e) (.fetched (s.mem.read (u64 (c.reg .ip))) (c.reg .ip)) }) := by
  rw [State.missStep_block q hin,
    State.decodeThen_err (State.setCore_get_self (s := { s with tick := s.tick + 1 }) q.atActive) hdec]
  simp [CoreState.halt, CoreState.setPhase]

/-- Settles O29: on a hit the decoder halts the Core as it stands, on a miss as the refill has left it. -/
theorem decodeErrorHalts : Obligations.DecodeErrorHalts := by
  constructor
  · intro s s' i c w e ev hev hnext hc hready hw hdec
    have hhalt := State.decodeThen_err (s := s'.withActive i) hc hdec
    rw [step_of_nextEvent hnext]
    rcases hev with rfl | rfl
    · rw [State.perform_fullStep_hit hc hready hw, hhalt]
      cases e <;> rfl
    · rw [State.perform_begin_hit hc hready hw, hhalt]
      cases e <;> rfl
  · intro s s' i c e hnext q hready hw hin hdec
    refine ⟨Window.refill (c.reg .ip) ((s'.mem.block (u64 (c.reg .ip)) 8).map Prod.snd), rfl, rfl,
      fun k hk => Window.refill_block _ _ _ _ hk, ?_⟩
    have hc : s'.cores[i]? = some c := q.atActive
    rw [step_of_nextEvent hnext, State.perform_fullStep_miss hc hready hw,
      State.missStep_decode_err (s := s'.withActive i) q hin hdec]
    cases e <;> rfl

theorem CoreState.fetched_error (c : CoreState) (a : Word) (info : ErrInfo) :
    c.fetched a (.error info) = c.halt .memoryError (.err info) := rfl

/-- On a quiet bus a fetch that does not lie in the memory is refused, which halts the Core (R72, R203). -/
theorem State.missStep_refused {s : State} {c : CoreState} (q : s.Quiet c) (hout : 2 ^ 52 < u64 (c.reg .ip) + 8) :
    s.missStep c = .next ({ s with tick := s.tick + 1 }.setCore s.active
      (c.halt .memoryError (.err (Config.freeErrInfo s.tick)))) := by
  have hrange : blockInRange (u64 (c.reg .ip)) Config.windowCount.toNat = false := by
    rw [blockInRange, Bool.and_eq_false_iff, decide_eq_false_iff_not, decide_eq_false_iff_not, Config.windowCount_toNat]
    exact .inr (Nat.not_le.mpr hout)
  rw [State.missStep_quiet q, fetchAddr, Memory.serve_read_refused _ _ hrange,
    State.afterFetch_not_ready (by simp [CoreState.fetched_error]), CoreState.fetched_error]
  rfl

/-- Settles O30: the memory refuses the fetch and the window is not refilled. -/
theorem fetchRefusedHalts : Obligations.FetchRefusedHalts := by
  intro s s' i c hnext q hready hw hout
  refine ⟨Config.freeErrInfo s'.tick, ?_⟩
  have hc : s'.cores[i]? = some c := q.atActive
  rw [step_of_nextEvent hnext, State.perform_fullStep_miss hc hready hw,
    State.missStep_refused (s := s'.withActive i) q hout]
  rfl

/-! ### The Router (R222, R223) -/

/-- Settles O43: the tag is the Core's identity, which is its index. -/
theorem routerUpTags : Obligations.RouterUpTags := by
  intro s i c m rest hids hf hc hup
  rw [State.perform, State.routerUp_oldest hf hc hup, hids i c hc]

theorem State.routerDown_of_core {s : State} {t : Nat} {m : CoreMsg} {rest : List TaggedMsg} {c : CoreState}
    (hf : s.routerFault = false) (hd : s.memDown = (t, m) :: rest) (hc : s.cores[t]? = some c) :
    s.routerDown = { s.setCore t { c with down := c.down ++ [m] } with memDown := rest } := by
  simp [State.routerDown, hd, hf, hc]

theorem State.routerDown_of_no_core {s : State} {t : Nat} {m : CoreMsg} {rest : List TaggedMsg}
    (hf : s.routerFault = false) (hd : s.memDown = (t, m) :: rest) (hc : s.cores[t]? = none) :
    s.routerDown = { s with memDown := rest, routerFault := true } := by
  simp [State.routerDown, hd, hf, hc]

/-- Settles O44: the Core at the tag is replaced, or there is none. -/
theorem routerDownRoutes : Obligations.RouterDownRoutes := by
  constructor
  · intro s t m rest c hf hd hc
    refine ⟨(s.setCore t { c with down := c.down ++ [m] }).cores, ?_, State.setCore_get_self hc,
      fun j hj => State.setCore_get_other hj.symm⟩
    rw [State.perform, State.routerDown_of_core hf hd hc]
    rfl
  · intro s t m rest hf hd ht
    rw [State.perform, State.routerDown_of_no_core hf hd (List.getElem?_eq_none ht)]

/-! ### The Router's fault (R225) -/

theorem State.routerUp_of_routerFault {s : State} (h : s.routerFault = true) (i : Nat) : s.routerUp i = s := by
  rcases s.routerUp_cases i with e | ⟨_, _, _, _, _, hf, _⟩
  · exact e
  · exact absurd (hf.symm.trans h) Bool.false_ne_true

theorem State.routerDown_of_routerFault {s : State} (h : s.routerFault = true) : s.routerDown = s := by
  rcases s.routerDown_cases with e | ⟨_, _, _, _, _, hf, _⟩ | ⟨_, _, _, _, hf, _⟩
  · exact e
  · exact absurd (hf.symm.trans h) Bool.false_ne_true
  · exact absurd (hf.symm.trans h) Bool.false_ne_true

/-- Settles O45: neither Router event is enabled, and *Disconnect* is. -/
theorem routerFaultStops : Obligations.RouterFaultStops := by
  refine ⟨fun _ => rfl, fun s i hf => ⟨?_, ?_, fun c hc hwait => disconnectHalts s i c hc hwait (.inr hf)⟩⟩
  · rw [State.perform, State.routerUp_of_routerFault hf]
  · rw [State.perform, State.routerDown_of_routerFault hf]

/-- The Router's and the memory's events keep `router_fault`: the Router stops, and the memory does not write it. -/
theorem routerFault_busKeeps : BusKeeps fun s => s.routerFault = true where
  up s i h := by
    rw [State.routerUp_of_routerFault h]
    exact h
  serve s h := by rcases s.memServe_cases with e | ⟨_, _, _, _, _, e⟩ <;> rw [e] <;> exact h
  down s h := by
    rw [State.routerDown_of_routerFault h]
    exact h

/-- Every event but the host's reset keeps `router_fault`. -/
theorem routerFault_eventKeeps : EventKeeps fun s => s.routerFault = true where
  core i :=
    { set := fun _ _ _ h _ _ => h
      bus := routerFault_busKeeps.onCore i
      active := fun _ h => h }
  bus := routerFault_busKeeps
  rogue s _ _ _ h := by
    unfold State.memRogue
    split <;> exact h
  linkLost s _ h := by
    unfold State.linkLost
    split <;> exact h
  memLinkLost _ _ := rfl
  run _ _ h := h
  take _ _ _ h := h

/-- Settles O46, by the law of the events above. -/
theorem routerFaultIsSticky : Obligations.RouterFaultIsSticky := fun _ _ hstep hreset hf =>
  routerFault_eventKeeps.step hreset hf hstep

/-! ### The input of a Core (R204) -/

/-- `s` has a Core `i` whose `disconnected` input is 1. -/
def State.InputLost (i : Nat) (s : State) : Prop := ∃ c, s.cores[i]? = some c ∧ c.disconnected = true

theorem State.InputLost.setCore {s : State} {i j : Nat} {c d : CoreState} (h : s.InputLost i)
    (hc : s.cores[j]? = some c) (hd : c.disconnected = true → d.disconnected = true) : (s.setCore j d).InputLost i := by
  obtain ⟨e, he, hlost⟩ := h
  by_cases hij : j = i
  · subst hij
    rw [hc] at he
    cases he
    exact ⟨d, State.setCore_get_self hc, hd hlost⟩
  · exact ⟨e, (State.setCore_get_other hij).trans he, hlost⟩

theorem State.KeepsOwn.inputLost {s t : State} (hk : s.KeepsOwn t) {i : Nat} (h : s.InputLost i) : t.InputLost i := by
  obtain ⟨c, hc, hlost⟩ := h
  obtain ⟨c', hc', _, hd⟩ := hk i c hc
  exact ⟨c', hc', hd.trans hlost⟩

theorem inputLost_busKeeps (i : Nat) : BusKeeps (State.InputLost i) where
  up s k := (s.routerUp_keepsOwn k).inputLost
  serve s := s.memServe_keepsOwn.inputLost
  down s := s.routerDown_keepsOwn.inputLost

/-- Every event but the host's reset keeps the input: no Core writes its own, and *linkLost* writes a 1. -/
theorem inputLost_eventKeeps (i : Nat) : EventKeeps (State.InputLost i) where
  core j :=
    { set := fun _ _ _ h hc hcd => ⟨h.1, h.2.setCore hc hcd.disconnected.trans⟩
      bus := (inputLost_busKeeps i).onCore j
      active := fun _ h => h }
  bus := inputLost_busKeeps i
  rogue s take writes answers :=
    (State.KeepsOwn.of_cores (.rfl s) (s.memRogue_cores take writes answers)).inputLost
  linkLost s j h := by
    unfold State.linkLost
    split
    · exact h
    · next hc => exact h.setCore hc fun _ => rfl
  memLinkLost _ h := h
  run _ _ h := h
  take _ _ _ h := h

/-- Settles O57: *linkLost* replaces the Core, and the law of the events above does the rest. -/
theorem disconnectedSticks : Obligations.DisconnectedSticks := by
  constructor
  · intro s i c hc
    simp only [State.perform, State.linkLost, hc]
    rfl
  · intro s t i c hstep hreset hc hlost
    exact (inputLost_eventKeeps i).step hreset ⟨c, hc, hlost⟩ hstep

end Sys2Proof.Machine
end

section
/-! Proof for the family of 70_reset_and_hazards: the host's reset as one event of the Package (R250, R251). -/

namespace Sys2Proof.Machine

theorem State.resetOf_cores_length (n : Nat) (mem : Memory) : (State.resetOf n mem).cores.length = n := by
  simp [State.resetOf]

/-- Settles O51: the Cores of the answered state are those of a Package of the same size after reset, and every other
part is a field that the reset writes (the queues, `router_fault`) or hands on (the memory). -/
theorem hostResetResetsPackage : Obligations.HostResetResetsPackage := by
  intro s
  have hlen : s.applyReset.cores.length = s.cores.length := State.resetOf_cores_length s.cores.length s.mem
  have hcore : ∀ i, i < s.cores.length → s.applyReset.cores[i]? = some (CoreState.reset i) := fun i hi =>
    (State.resetOf_get (mem := s.mem)).mpr ⟨hi, rfl⟩
  exact ⟨s.applyReset, rfl, rfl, hlen, rfl, rfl, rfl, hcore⟩

end Sys2Proof.Machine
end

section
/-! Proof for the family of the model's own readings: what an event of a halted Core answers (R208, log entry 9). -/

namespace Sys2Proof.Machine

/-- Settles O42: a halted Core enables none of its events, and the answer to an event that is not enabled is the fault
exactly when every Core is halted. -/
theorem allHaltedIsTheFault : Obligations.AllHaltedIsTheFault := by
  intro s i c e hc hhalted hown
  have hidle : s.perform e = s.idle := State.perform_of_isHalted hc hhalted hown
  rw [hidle, State.idle, State.allHalted]

end Sys2Proof.Machine
end
